-- ==== Sys2Proof/Word.lean ====
section
/-! DEFINITION. The words of the block: bytes, 32-bit coordinates (00_scope.md R9), and the domain of a value that
may be unknown (the mark `?` of 45_panel_reference_model.md R250). -/

namespace Sys2Proof

/-- A byte; bit 0 is the least significant bit (R9). -/
abbrev Byte := BitVec 8

/-- A coordinate or extent: unsigned 32 bits, `+` and `-` mod 2^32 (R9). -/
abbrev U32 := BitVec 32

/-- A field marked `?` in R250: a known value or `unknown`. `unknown` is the spec's own state, not a missing reset
value: a claim cannot rely on it. -/
inductive Val (α : Type) where
  | unknown
  | known (a : α)
deriving DecidableEq, Repr

end Sys2Proof
end

