-- ==== Sys2Proof/Config.lean ====
section
/-! DEFINITION. The configuration record `Cfg` (00_scope.md R6), this hardware's values of it (`Config.hw`), and the
free values: the OPEN parameters and the draws of the environment (42_transport_busy_fsm.md R170), each an opaque
constant that no proof can evaluate. -/

namespace Sys2Proof

/-- The electrical level of a line (R174). -/
inductive Level where
  | low
  | high
deriving DecidableEq, Repr, Inhabited

/-- `Color = {Black, White, Chromatic}` (R15). -/
inductive Color where
  | black
  | white
  | chromatic
deriving DecidableEq, Repr

/-- The two RAM planes (R14): achromatic and chromatic. -/
inductive Plane where
  | bw
  | red
deriving DecidableEq, Repr

/-- The closed set of 13 panel commands, in the order of R71. -/
inductive PanelCommand where
  | swReset
  | dataEntryMode
  | setXRange
  | setYRange
  | setXCounter
  | setYCounter
  | writeRamBw
  | writeRamRed
  | updateControl1
  | masterActivation
  | deepSleep
  | patternBw
  | patternRed
deriving DecidableEq, Repr

/-- Every panel command, once (R71). -/
def PanelCommand.all : List PanelCommand :=
  [.swReset, .dataEntryMode, .setXRange, .setYRange, .setXCounter, .setYCounter, .writeRamBw, .writeRamRed,
   .updateControl1, .masterActivation, .deepSleep, .patternBw, .patternRed]

/-- The configuration record of R6, constant for the life of a block instance. `patFieldsCover` is the parameter
assumption of 92_eei_decisions.md D6 (PAT_FIELDS selects steps that cover the panel), which R266 makes its effect
depend on. -/
structure Cfg where
  W : Nat
  H : Nat
  cmdSwReset : Byte
  cmdDataEntryMode : Byte
  cmdSetXRange : Byte
  cmdSetYRange : Byte
  cmdSetXCounter : Byte
  cmdSetYCounter : Byte
  cmdWriteRamBw : Byte
  cmdWriteRamRed : Byte
  cmdUpdateControl1 : Byte
  cmdMasterActivation : Byte
  cmdDeepSleep : Byte
  cmdPatternBw : Byte
  cmdPatternRed : Byte
  demPayload : Byte
  uc1Payload0 : Byte
  uc1Payload1 : Byte
  dsPayload : Byte
  patPhaseBit : Fin 8
  patFields : Byte
  patFieldsCover : Bool
  resetInitialDelayUs : Nat
  resetPulseUs : Nat
  busyIdleLevel : Level
  defaultBackground : Color
deriving DecidableEq, Repr

/-- The command byte parameter `CMD_*` of a command (R71, column "code parameter"). -/
def Cfg.code (c : Cfg) : PanelCommand → Byte
  | .swReset => c.cmdSwReset
  | .dataEntryMode => c.cmdDataEntryMode
  | .setXRange => c.cmdSetXRange
  | .setYRange => c.cmdSetYRange
  | .setXCounter => c.cmdSetXCounter
  | .setYCounter => c.cmdSetYCounter
  | .writeRamBw => c.cmdWriteRamBw
  | .writeRamRed => c.cmdWriteRamRed
  | .updateControl1 => c.cmdUpdateControl1
  | .masterActivation => c.cmdMasterActivation
  | .deepSleep => c.cmdDeepSleep
  | .patternBw => c.cmdPatternBw
  | .patternRed => c.cmdPatternRed

/-- The outcome of a pin write (R170): a draw of the environment. -/
inductive PinDraw where
  | ok
  | fail
deriving DecidableEq, Repr, Inhabited

/-- The outcome of a bus transfer (R170): `fault n` fails after delivering the first `n` bytes, or all of them when
there are fewer, so that every prefix can be drawn (R180). -/
inductive BusDraw where
  | ok
  | fault (delivered : Nat)
deriving DecidableEq, Repr, Inhabited

/-- The outcome of a sample of the busy line (R170): its level, or a fault. -/
inductive BusyDraw where
  | level (l : Level)
  | fault
deriving DecidableEq, Repr, Inhabited

namespace Config

/-- FREE VALUE (log 2): the seven bits of PAT_FIELDS beside PAT_PHASE_BIT. OPEN in R6. -/
opaque patOtherBits : BitVec 7
/-- FREE VALUE (log 2): whether PAT_FIELDS selects steps that cover the panel (D6). -/
opaque patFieldsCover : Bool
/-- FREE VALUE (log 2): RESET_INITIAL_DELAY_US. OPEN in R6. -/
opaque resetInitialDelayUs : Nat
/-- FREE VALUE (log 2): RESET_PULSE_US. OPEN in R6. -/
opaque resetPulseUs : Nat
/-- FREE VALUE (log 2): BUSY_IDLE_LEVEL. OPEN in R6. -/
opaque busyIdleLevel : Level

/-- FREE VALUES (log 3): the n-th draw of a `SetPin(DC, _)` after the state's script is used up (R170). -/
opaque freeDc : Nat → PinDraw
/-- FREE VALUES (log 3): the n-th draw of a `SetPin(RST, _)` after the state's script is used up (R170). -/
opaque freeRst : Nat → PinDraw
/-- FREE VALUES (log 3): the n-th draw of a `BusWrite` after the state's script is used up (R170, R180). -/
opaque freeBus : Nat → BusDraw
/-- FREE VALUES (log 3): the n-th draw of a `ReadBusy` after the state's script is used up (R170). -/
opaque freeBusy : Nat → BusyDraw
/-- FREE VALUES (log 5): whether the panel finishes its processing in its turn after a block transition (R253, R188). -/
opaque freeFinish : Nat → Bool

/-- This hardware's configuration (R6): the geometry of D1, the default bytes of R72 and D3 to D6 (PRESUMED by the
spec from general knowledge, log 1), White for DEFAULT_BACKGROUND (D16), the OPEN parameters free (log 2). -/
def hw : Cfg where
  W := 152
  H := 296
  cmdSwReset := 0x12
  cmdDataEntryMode := 0x11
  cmdSetXRange := 0x44
  cmdSetYRange := 0x45
  cmdSetXCounter := 0x4E
  cmdSetYCounter := 0x4F
  cmdWriteRamBw := 0x24
  cmdWriteRamRed := 0x26
  cmdUpdateControl1 := 0x21
  cmdMasterActivation := 0x20
  cmdDeepSleep := 0x10
  cmdPatternBw := 0x47
  cmdPatternRed := 0x46
  demPayload := 0x03
  uc1Payload0 := 0x00
  uc1Payload1 := 0x80
  dsPayload := 0x03
  patPhaseBit := 7
  patFields := patOtherBits.setWidth 8
  patFieldsCover := patFieldsCover
  resetInitialDelayUs := resetInitialDelayUs
  resetPulseUs := resetPulseUs
  busyIdleLevel := busyIdleLevel
  defaultBackground := .white

end Config
end Sys2Proof
end

