-- ==== Sys2Proof/Syntax.lean ====
section
/-! DEFINITION. The instruction vocabularies (00_scope.md R2) as ONE inductive: the 13 panel commands (30_encoding.md
R71), the 13 host requests (R86) and the 3 reserved request codes (R88); and the two encoded forms they have, the
panel command frame (R70) and the host request record (R86, R87). -/

namespace Sys2Proof

/-- One constructor per row of spec/opcode_table.json. Panel commands carry their payload fields, host requests their
operands. -/
inductive Instr where
  /-- SW_RESET (R131). -/
  | swReset
  /-- DATA_ENTRY_MODE with its payload byte (R132, R79). -/
  | dataEntryMode (p0 : Byte)
  /-- SET_X_RANGE with the two column groups (R133, R75). -/
  | setXRange (xs xe : BitVec 5)
  /-- SET_Y_RANGE with the two rows (R134, R76). -/
  | setYRange (ys ye : BitVec 9)
  /-- SET_X_COUNTER with the column group (R135, R77). -/
  | setXCounter (x : BitVec 5)
  /-- SET_Y_COUNTER with the row (R136, R78). -/
  | setYCounter (y : BitVec 9)
  /-- WRITE_RAM_BW with its stream (R137, R83). -/
  | writeRamBw (stream : List Byte)
  /-- WRITE_RAM_RED with its stream (R138, R83). -/
  | writeRamRed (stream : List Byte)
  /-- UPDATE_CONTROL_1 with its two payload bytes (R139, R80). -/
  | updateControl1 (p0 p1 : Byte)
  /-- MASTER_ACTIVATION (R140). -/
  | masterActivation
  /-- DEEP_SLEEP with its payload byte (R141, R81). -/
  | deepSleep (p0 : Byte)
  /-- PATTERN_BW with its payload byte (R142, R82). -/
  | patternBw (p0 : Byte)
  /-- PATTERN_RED with its payload byte (R143, R82). -/
  | patternRed (p0 : Byte)
  /-- INIT (R207). -/
  | init
  /-- UPLOAD_FRAME (R208). -/
  | uploadFrame (bw : List Byte)
  /-- UPLOAD_COLOR_FRAME (R209). -/
  | uploadColorFrame (bw red : List Byte)
  /-- UPLOAD_PARTIAL (R210). -/
  | uploadPartial (bw : List Byte) (x y w h : U32)
  /-- REFRESH (R211). -/
  | refresh
  /-- UPLOAD_AND_REFRESH (R212). -/
  | uploadAndRefresh (bw : List Byte)
  /-- CLEAR (R216). -/
  | clear
  /-- SLEEP (R217). -/
  | sleep
  /-- WAKE (R218). -/
  | wake
  /-- SET_BG with its 2-bit colour code (R219); code 3 is reserved (R88). -/
  | setBg (col : BitVec 2)
  /-- GET_BG (R220). -/
  | getBg
  /-- GET_WIDTH (R221). -/
  | getWidth
  /-- GET_HEIGHT (R222). -/
  | getHeight
  /-- Reserved request code 0xD (R88). -/
  | reservedD
  /-- Reserved request code 0xE (R88). -/
  | reservedE
  /-- Reserved request code 0xF (R88). -/
  | reservedF
deriving DecidableEq, Repr

/-- A request record (R86), as the block latches it (10_state.md R28): buffers are values, so the latch holds a
snapshot of their bytes. The colour of SET_BG is the decoded one: code 3 is never latched (R88). -/
inductive Request where
  | init
  | uploadFrame (bw : List Byte)
  | uploadColorFrame (bw red : List Byte)
  | uploadPartial (bw : List Byte) (x y w h : U32)
  | refresh
  | uploadAndRefresh (bw : List Byte)
  | clear
  | sleep
  | wake
  | setBg (col : Color)
  | getBg
  | getWidth
  | getHeight
deriving DecidableEq, Repr

/-- The flat form of a host request (R87): a 4-bit op and the other fields carried beside it. A field the op does not
use is absent; the model's record holds it as zero or empty and the decoder does not read it (log 12). -/
structure RequestWord where
  op : BitVec 4
  bw : List Byte := []
  red : List Byte := []
  x : U32 := 0
  y : U32 := 0
  w : U32 := 0
  h : U32 := 0
  col : BitVec 2 := 0
deriving DecidableEq, Repr

/-- The encoded form of an instruction: a panel command frame (R70), whose payload is `none` where the frame has no
`Data` step, or a host request (R87). -/
inductive Encoded where
  | frame (code : Byte) (payload : Option (List Byte))
  | request (r : RequestWord)
deriving DecidableEq, Repr

/-- A window in inclusive pixel coordinates (R109). -/
structure Win where
  xs : U32
  ys : U32
  xe : U32
  ye : U32
deriving DecidableEq, Repr

end Sys2Proof
end

