-- ==== Sys2Proof/WellFormed.lean ====
section
/-! DEFINITION. What a legal configuration is (00_scope.md R7) and which instructions the two vocabularies contain
(30_encoding.md R71, R85, R87, R88): the payload constants of the panel commands, and no reserved request code. The
machine runs an ill-formed instruction too (its meaning is total): well-formedness says what the block itself sends
and what names an operation of the source. -/

namespace Sys2Proof

/-- The 13 command bytes of a configuration. -/
def Cfg.codes (c : Cfg) : List Byte := PanelCommand.all.map c.code

/-- The constraints of R7, in its order. -/
def Cfg.legal (c : Cfg) : Bool :=
  decide (1 ≤ c.W ∧ c.W ≤ 256) && decide (1 ≤ c.H ∧ c.H ≤ 512) && decide c.codes.Nodup
    && !c.patFields.getLsbD c.patPhaseBit.val

/-- The instruction is one the vocabularies contain: a panel command carries the payload R71 gives it, a request code
is not reserved (R88). -/
def Instr.wf (c : Cfg) (i : Instr) : Bool :=
  match i with
  | .swReset => true
  | .dataEntryMode p0 => decide (p0 = c.demPayload)
  | .setXRange _ _ => true
  | .setYRange _ _ => true
  | .setXCounter _ => true
  | .setYCounter _ => true
  | .writeRamBw _ => true
  | .writeRamRed _ => true
  | .updateControl1 p0 p1 => decide (p0 = c.uc1Payload0 ∧ p1 = c.uc1Payload1)
  | .masterActivation => true
  | .deepSleep p0 => decide (p0 = c.dsPayload)
  | .patternBw p0 => decide (p0 &&& ~~~((1 : Byte) <<< c.patPhaseBit.val) = c.patFields)
  | .patternRed p0 => decide (p0 &&& ~~~((1 : Byte) <<< c.patPhaseBit.val) = c.patFields)
  | .init => true
  | .uploadFrame _ => true
  | .uploadColorFrame _ _ => true
  | .uploadPartial _ _ _ _ _ => true
  | .refresh => true
  | .uploadAndRefresh _ => true
  | .clear => true
  | .sleep => true
  | .wake => true
  | .setBg col => decide (col ≠ 3)
  | .getBg => true
  | .getWidth => true
  | .getHeight => true
  | .reservedD => false
  | .reservedE => false
  | .reservedF => false

end Sys2Proof
end

