-- ==== Sys2Proof/Decode.lean ====
section
/-! DEFINITION. The decoder of both encoded forms, total on every frame and every request record and rejecting a frame
by name, and after it the encoder, both written from the tables of 30_encoding.md (R70 to R88). `decodeTableWord`
reads the numbers of spec/opcode_table.json. -/

namespace Sys2Proof

/-- The payload shape of a command (R71, column "fixed length"). -/
inductive PayloadShape where
  | fixed (n : Nat)
  | stream
deriving DecidableEq, Repr

/-- Column "fixed length" of R71. -/
def PanelCommand.shape : PanelCommand → PayloadShape
  | .swReset => .fixed 0
  | .dataEntryMode => .fixed 1
  | .setXRange => .fixed 2
  | .setYRange => .fixed 4
  | .setXCounter => .fixed 1
  | .setYCounter => .fixed 2
  | .writeRamBw => .stream
  | .writeRamRed => .stream
  | .updateControl1 => .fixed 2
  | .masterActivation => .fixed 0
  | .deepSleep => .fixed 1
  | .patternBw => .fixed 1
  | .patternRed => .fixed 1

/-- Column "processing (busy)" of R71. -/
def PanelCommand.processing : PanelCommand → Bool
  | .swReset => true
  | .dataEntryMode => false
  | .setXRange => false
  | .setYRange => false
  | .setXCounter => false
  | .setYCounter => false
  | .writeRamBw => false
  | .writeRamRed => false
  | .updateControl1 => false
  | .masterActivation => true
  | .deepSleep => false
  | .patternBw => true
  | .patternRed => true

/-- The command a byte sent with DC low names, if it is one of the 13 codes (R84, R85). -/
def Cfg.command? (c : Cfg) (b : Byte) : Option PanelCommand :=
  PanelCommand.all.find? (fun m => c.code m == b)

/-- Why a frame is no instruction. -/
inductive DecodeError where
  /-- The code byte is none of the 13 (R85). -/
  | unknownCommand (code : Byte)
  /-- The payload does not have the command's shape (R71, R85). -/
  | payloadShape (cmd : PanelCommand)
  /-- A payload bit that is always 0 is set: bits 7..5 of an X byte or bits 7..1 of a high Y byte (R73, R74, R85). -/
  | reservedBits (cmd : PanelCommand)
deriving DecidableEq, Repr

/-! ### Fields (R73, R74) -/

/-- The 5-bit column group of an X byte; none where bits 7..5 are not 0 (R73). -/
def xField (b : Byte) : Option (BitVec 5) :=
  if b.toNat < 32 then some (b.setWidth 5) else none

/-- A 9-bit row from its low and high bytes: `lo | ((hi & 1) << 8)` (R74, R258). -/
def rowOfBytes (lo hi : Byte) : BitVec 9 := lo.setWidth 9 ||| ((hi.setWidth 9 &&& 1) <<< 8)

/-- The 9-bit row of a Y byte pair; none where bits 7..1 of the high byte are not 0 (R74). -/
def yField (lo hi : Byte) : Option (BitVec 9) :=
  if hi.toNat < 2 then some (rowOfBytes lo hi) else none

/-- The X byte of a column group: bits 7..5 are 0 (R73). -/
def xByte (g : BitVec 5) : Byte := g.setWidth 8

/-- The low byte of a row (R74). -/
def rowLo (y : BitVec 9) : Byte := y.setWidth 8

/-- The high byte of a row: bit 0 is `y[8]`, bits 7..1 are 0 (R74). -/
def rowHi (y : BitVec 9) : Byte := (y >>> 8).setWidth 8

/-! ### Decoding -/

/-- A command with no payload (R71). -/
def decode0 (m : PanelCommand) (i : Instr) (payload : Option (List Byte)) : Except DecodeError Instr :=
  match payload with
  | none => .ok i
  | some _ => .error (.payloadShape m)

/-- A command with one payload byte (R71). -/
def decode1 (m : PanelCommand) (f : Byte → Option Instr) (payload : Option (List Byte)) : Except DecodeError Instr :=
  match payload with
  | some [p0] => (f p0).elim (.error (.reservedBits m)) .ok
  | _ => .error (.payloadShape m)

/-- A command with two payload bytes (R71). -/
def decode2 (m : PanelCommand) (f : Byte → Byte → Option Instr) (payload : Option (List Byte)) :
    Except DecodeError Instr :=
  match payload with
  | some [p0, p1] => (f p0 p1).elim (.error (.reservedBits m)) .ok
  | _ => .error (.payloadShape m)

/-- A command with four payload bytes (R71). -/
def decode4 (m : PanelCommand) (f : Byte → Byte → Byte → Byte → Option Instr) (payload : Option (List Byte)) :
    Except DecodeError Instr :=
  match payload with
  | some [p0, p1, p2, p3] => (f p0 p1 p2 p3).elim (.error (.reservedBits m)) .ok
  | _ => .error (.payloadShape m)

/-- A command with a stream (R83): any length, and always a `Data` step (R70). -/
def decodeStream (m : PanelCommand) (f : List Byte → Instr) (payload : Option (List Byte)) :
    Except DecodeError Instr :=
  match payload with
  | some bs => .ok (f bs)
  | none => .error (.payloadShape m)

/-- A frame's payload read by its command (R71, R75 to R83). -/
def decodePayload (m : PanelCommand) (payload : Option (List Byte)) : Except DecodeError Instr :=
  match m with
  | .swReset => decode0 m .swReset payload
  | .dataEntryMode => decode1 m (fun p0 => some (.dataEntryMode p0)) payload
  | .setXRange => decode2 m (fun p0 p1 => (xField p0).bind fun xs => (xField p1).map fun xe => .setXRange xs xe) payload
  | .setYRange =>
    decode4 m (fun p0 p1 p2 p3 => (yField p0 p1).bind fun ys => (yField p2 p3).map fun ye => .setYRange ys ye) payload
  | .setXCounter => decode1 m (fun p0 => (xField p0).map .setXCounter) payload
  | .setYCounter => decode2 m (fun p0 p1 => (yField p0 p1).map .setYCounter) payload
  | .writeRamBw => decodeStream m .writeRamBw payload
  | .writeRamRed => decodeStream m .writeRamRed payload
  | .updateControl1 => decode2 m (fun p0 p1 => some (.updateControl1 p0 p1)) payload
  | .masterActivation => decode0 m .masterActivation payload
  | .deepSleep => decode1 m (fun p0 => some (.deepSleep p0)) payload
  | .patternBw => decode1 m (fun p0 => some (.patternBw p0)) payload
  | .patternRed => decode1 m (fun p0 => some (.patternRed p0)) payload

/-- A panel command frame: the code names the command (R84), the payload gives its fields. -/
def decodeFrame (c : Cfg) (code : Byte) (payload : Option (List Byte)) : Except DecodeError Instr :=
  match c.command? code with
  | some m => decodePayload m payload
  | none => .error (.unknownCommand code)

/-- A host request by its op code (R87, R88): every one of the 16 codes is a row of the table. -/
def decodeRequest (r : RequestWord) : Instr :=
  match r.op.toNat with
  | 0 => .init
  | 1 => .uploadFrame r.bw
  | 2 => .uploadColorFrame r.bw r.red
  | 3 => .uploadPartial r.bw r.x r.y r.w r.h
  | 4 => .refresh
  | 5 => .uploadAndRefresh r.bw
  | 6 => .clear
  | 7 => .sleep
  | 8 => .wake
  | 9 => .setBg r.col
  | 10 => .getBg
  | 11 => .getWidth
  | 12 => .getHeight
  | 13 => .reservedD
  | 14 => .reservedE
  | _ => .reservedF

/-- Decoding of either encoded form, total. -/
def decode (c : Cfg) (e : Encoded) : Except DecodeError Instr :=
  match e with
  | .frame code payload => decodeFrame c code payload
  | .request r => .ok (decodeRequest r)

/-! ### Encoding -/

/-- The encoded form of an instruction, from the tables of R71 and R87 and the payload layouts R75 to R83. -/
def encode (c : Cfg) (i : Instr) : Encoded :=
  match i with
  | .swReset => .frame c.cmdSwReset none
  | .dataEntryMode p0 => .frame c.cmdDataEntryMode (some [p0])
  | .setXRange xs xe => .frame c.cmdSetXRange (some [xByte xs, xByte xe])
  | .setYRange ys ye => .frame c.cmdSetYRange (some [rowLo ys, rowHi ys, rowLo ye, rowHi ye])
  | .setXCounter x => .frame c.cmdSetXCounter (some [xByte x])
  | .setYCounter y => .frame c.cmdSetYCounter (some [rowLo y, rowHi y])
  | .writeRamBw s => .frame c.cmdWriteRamBw (some s)
  | .writeRamRed s => .frame c.cmdWriteRamRed (some s)
  | .updateControl1 p0 p1 => .frame c.cmdUpdateControl1 (some [p0, p1])
  | .masterActivation => .frame c.cmdMasterActivation none
  | .deepSleep p0 => .frame c.cmdDeepSleep (some [p0])
  | .patternBw p0 => .frame c.cmdPatternBw (some [p0])
  | .patternRed p0 => .frame c.cmdPatternRed (some [p0])
  | .init => .request { op := 0x0 }
  | .uploadFrame bw => .request { op := 0x1, bw := bw }
  | .uploadColorFrame bw red => .request { op := 0x2, bw := bw, red := red }
  | .uploadPartial bw x y w h => .request { op := 0x3, bw := bw, x := x, y := y, w := w, h := h }
  | .refresh => .request { op := 0x4 }
  | .uploadAndRefresh bw => .request { op := 0x5, bw := bw }
  | .clear => .request { op := 0x6 }
  | .sleep => .request { op := 0x7 }
  | .wake => .request { op := 0x8 }
  | .setBg col => .request { op := 0x9, col := col }
  | .getBg => .request { op := 0xA }
  | .getWidth => .request { op := 0xB }
  | .getHeight => .request { op := 0xC }
  | .reservedD => .request { op := 0xD }
  | .reservedE => .request { op := 0xE }
  | .reservedF => .request { op := 0xF }

/-! ### Colour codes and requests -/

/-- The 2-bit colour code (10_state.md R23). -/
def Color.code : Color → BitVec 2
  | .black => 0
  | .white => 1
  | .chromatic => 2

/-- The colour of a 2-bit code; code 3 is reserved (R23, R88). -/
def colorOfCode (b : BitVec 2) : Option Color :=
  match b.toNat with
  | 0 => some .black
  | 1 => some .white
  | 2 => some .chromatic
  | _ => none

/-- The request an instruction offers at the request port. None for a panel command, and none for what R88 refuses:
a reserved code, and SET_BG with code 3. -/
def Instr.request? (i : Instr) : Option Request :=
  match i with
  | .swReset => none
  | .dataEntryMode _ => none
  | .setXRange _ _ => none
  | .setYRange _ _ => none
  | .setXCounter _ => none
  | .setYCounter _ => none
  | .writeRamBw _ => none
  | .writeRamRed _ => none
  | .updateControl1 _ _ => none
  | .masterActivation => none
  | .deepSleep _ => none
  | .patternBw _ => none
  | .patternRed _ => none
  | .init => some .init
  | .uploadFrame bw => some (.uploadFrame bw)
  | .uploadColorFrame bw red => some (.uploadColorFrame bw red)
  | .uploadPartial bw x y w h => some (.uploadPartial bw x y w h)
  | .refresh => some .refresh
  | .uploadAndRefresh bw => some (.uploadAndRefresh bw)
  | .clear => some .clear
  | .sleep => some .sleep
  | .wake => some .wake
  | .setBg col => (colorOfCode col).map .setBg
  | .getBg => some .getBg
  | .getWidth => some .getWidth
  | .getHeight => some .getHeight
  | .reservedD => none
  | .reservedE => none
  | .reservedF => none

/-! ### The numbers of spec/opcode_table.json -/

/-- The `n` bytes of a number, the first in its least significant byte. -/
def bytesOfNat : Nat → Nat → List Byte
  | 0, _ => []
  | n + 1, w => BitVec.ofNat 8 w :: bytesOfNat n (w / 256)

/-- The encoded form that a number of the opcode table stands for. A number below 16 is a host op (mask 0xF); its
operands, which the table gives no bits, are zero and empty. Any other number is a frame: its first byte is the code,
its later bytes are the payload the command's shape asks for, and a stream, which the table gives no bits, is empty.
The two ranges are apart because no command byte of this configuration is below 16 (DESIGN CHOICE, log 11). -/
def tableEncoded (nbits w : Nat) : Encoded :=
  let v := w % 2 ^ nbits
  if v < 16 then .request { op := BitVec.ofNat 4 v }
  else
    let code := BitVec.ofNat 8 v
    match (Config.hw.command? code).map PanelCommand.shape with
    | some (.fixed 0) => .frame code none
    | some (.fixed (n + 1)) => .frame code (some (bytesOfNat (n + 1) (v / 256)))
    | some .stream => .frame code (some [])
    | none => .frame code none

/-- The instruction the decoder reads from a number of the opcode table. -/
def decodeTableWord (nbits w : Nat) : Option Instr :=
  match decode Config.hw (tableEncoded nbits w) with
  | .ok i => some i
  | .error _ => none

end Sys2Proof
end

