-- ==== Sys2Proof/Machine/State.lean ====
section
/-! DEFINITION. The state of the machine as plain data: the block's record (10_state.md R20), the panel's record
(45_panel_reference_model.md R250), and the environment's inputs (42_transport_busy_fsm.md R170) as scripts; the state
after reset (R37, R251, R310); the reasons a step could stop. -/

namespace Sys2Proof.Machine

/-! ### The block's vocabulary -/

/-- The sequencer phase (R26). -/
inductive SeqPhase where
  | idle
  | exec
  | wait
deriving DecidableEq, Repr

/-- The lifecycle register (R25). -/
inductive Life where
  | uninitialized
  | ready
  | asleep
deriving DecidableEq, Repr

/-- The data/command select output (R29). -/
inductive DcLevel where
  | low
  | high
  | undriven
deriving DecidableEq, Repr

/-- The reset output (R30). -/
inductive RstLevel where
  | deasserted
  | asserted
  | undriven
deriving DecidableEq, Repr

/-- What a write of the reset line drives it to (R173). -/
inductive RstDrive where
  | deasserted
  | asserted
deriving DecidableEq, Repr

/-- The level a write of the reset line leaves (R173). -/
def RstDrive.toLevel : RstDrive → RstLevel
  | .deasserted => .deasserted
  | .asserted => .asserted

/-- The abstract outcome of a busy sample (R174). -/
inductive BusySample where
  | idle
  | busy
deriving DecidableEq, Repr

/-- The transport fault kinds (R280). -/
inductive FaultKind where
  | bus
  | dcOutput
  | rstOutput
  | busyInput
deriving DecidableEq, Repr

/-- The five forms of a step (R11). `delay` stands in no step list that the block builds: it is used only inside
`hwReset`. -/
inductive Step where
  | cmd (b : Byte)
  | data (bs : List Byte)
  | hwReset (d1 d2 : Nat)
  | wait
  | delay (us : Nat)
deriving DecidableEq, Repr

/-- The response (R33). -/
inductive Response where
  | ok
  | okColor (col : Color)
  | okNat (n : U32)
  | err (kind : FaultKind)
deriving DecidableEq, Repr

/-- The trace events (R176). -/
inductive Event where
  | accept (r : Request)
  | cmd (b : Byte)
  | data (bs : List Byte)
  | rst (d : RstDrive)
  | delay (us : Nat)
  | busySample (o : BusySample)
  | fault (kind : FaultKind) (k : Nat)
  | respond (r : Response)
deriving DecidableEq, Repr

/-! ### The panel's vocabulary (R250) -/

/-- Sparse data by key in canonical form: keys strictly rising. A key that is not listed reads as unknown. -/
abbrev Sparse (α : Type) := List (Nat × α)

/-- A RAM plane: cells keyed by `y * 32 + x` (20_memory.md R50). A cell that is not listed is unknown (R251). -/
abbrev Memory := List Host.Cell

/-- The physical image: pixels keyed by `y * W + x`. A pixel that is not listed is unknown (R251). -/
abbrev Image := List (Nat × Color)

/-- The panel's power state (R250, R297). -/
inductive Power where
  | awake
  | deepSleep
deriving DecidableEq, Repr

/-- A processing effect in progress (R253, R255, R256, R263, R266). -/
inductive Effect where
  | resetDone
  | swResetDone
  | display
  | fill (p : Plane) (phase : Bool)
deriving DecidableEq, Repr

/-- The decode state of the current command frame (R250, R252). -/
inductive FrameState where
  | noFrame
  | expect (cmd : PanelCommand) (remaining : Nat) (got : List Byte)
  | stream (p : Plane)
deriving DecidableEq, Repr

/-- The panel's state (R250). `busy` is a `Val` because R251 makes it unknown at block reset. -/
structure Panel where
  power : Val Power
  inReset : Bool
  busy : Val Bool
  pending : Option Effect
  dem : Val Byte
  uc1 : Val (Byte × Byte)
  wxs : Val (BitVec 5)
  wxe : Val (BitVec 5)
  wys : Val (BitVec 9)
  wye : Val (BitVec 9)
  xc : Val (BitVec 5)
  yc : Val (BitVec 9)
  ramBw : Memory
  ramRed : Memory
  shown : Image
  frame : FrameState
  undef : Bool
deriving DecidableEq, Repr

/-- The panel at block reset (R251). -/
def Panel.initial : Panel where
  power := .unknown
  inReset := false
  busy := .unknown
  pending := none
  dem := .unknown
  uc1 := .unknown
  wxs := .unknown
  wxe := .unknown
  wys := .unknown
  wye := .unknown
  xc := .unknown
  yc := .unknown
  ramBw := []
  ramRed := []
  shown := []
  frame := .noFrame
  undef := false

/-! ### The environment -/

/-- The draws of one primitive: a script, read first, and how many draws of the opaque free stream have been taken
after it ran out (log 3). -/
structure Draws (α : Type) where
  script : List α
  taken : Nat
deriving DecidableEq, Repr

/-- The environment's inputs (R170): draws for each primitive, when the panel finishes (R253), and the requests the
host holds offered at the port (R186, R290). -/
structure Env where
  dc : Draws PinDraw
  rst : Draws PinDraw
  bus : Draws BusDraw
  busy : Draws BusyDraw
  finish : Draws Bool
  offers : List RequestWord
deriving DecidableEq, Repr

/-- The environment of State.reset: no script, no request offered (log 3, log 13). -/
def Env.initial : Env where
  dc := { script := [], taken := 0 }
  rst := { script := [], taken := 0 }
  bus := { script := [], taken := 0 }
  busy := { script := [], taken := 0 }
  finish := { script := [], taken := 0 }
  offers := []

/-! ### The state -/

/-- The block's record (R20), `construct` (the automatic construction request of R310 is still to be accepted), the
panel (R250) and the environment. -/
structure State where
  seq : SeqPhase
  req : Option Request
  steps : List Step
  k : Nat
  bg : Color
  life : Life
  violation : Bool
  refused : Bool
  dc : DcLevel
  rst : RstLevel
  trace : List Event
  resp : Option Response
  construct : Bool
  panel : Panel
  env : Env
deriving DecidableEq, Repr

/-- The values of a block reset (R37, R251, R310): the record a block of configuration `c` starts from. -/
def State.initial (c : Cfg) : State where
  seq := .idle
  req := none
  steps := []
  k := 0
  bg := c.defaultBackground
  life := .uninitialized
  violation := false
  refused := false
  dc := .undriven
  rst := .undriven
  trace := []
  resp := none
  construct := true
  panel := .initial
  env := .initial

/-- The state right after block reset, at any configuration. A configuration that breaks R7 has no block, so no state
(R7, 70_reset_and_hazards.md R312). -/
def State.resetAt (c : Cfg) : Option State := if c.legal then some (State.initial c) else none

/-- The state right after block reset of this hardware. -/
def State.reset : State := State.initial Config.hw

/-! ### Stops -/

/-- Why a step could stop with a fault: never. Every block transition is defined for every state and every draw
(60_exceptions.md R299); a transport fault is an abort, which is a next state (R284). -/
inductive Fault where
deriving DecidableEq, Repr

/-- Why a step could be refused. -/
inductive Refusal where
  /-- An arm of `exec` that has no meaning yet; raised by no arm of this model. Safe. -/
  | notModelled (mnemonic : String)
  /-- The configuration breaks R7: the model has no block for it and refuses it (R312). Raised by `execAt` and `stepAt`,
  never by `exec` and `step`, whose configuration is legal. Safe. -/
  | illegalConfiguration
deriving DecidableEq, Repr

end Sys2Proof.Machine
end

