-- ==== Sys2Proof/Machine/Memory.lean ====
section
/-! DEFINITION. Sparse data by key and the panel's RAM planes: the one canonical form (keys strictly rising; a key that
is not listed reads as unknown, so no entry is unknown), reading and writing that keep it; and reads of host buffers
(20_memory.md R50, R51). -/

namespace Sys2Proof.Machine

/-- Every key of the list is above `b`, and the keys rise strictly. -/
def Sparse.rising {α : Type} (b : Nat) : Sparse α → Bool
  | [] => true
  | (a, _) :: rest => decide (b < a) && Sparse.rising a rest

/-- The canonical form: the keys rise strictly. -/
def Sparse.wf {α : Type} : Sparse α → Bool
  | [] => true
  | (a, _) :: rest => Sparse.rising a rest

/-- What is at a key; unknown where nothing is listed. -/
def Sparse.read {α : Type} (m : Sparse α) (key : Nat) : Val α :=
  match m with
  | [] => .unknown
  | (a, v) :: rest => if a = key then .known v else Sparse.read rest key

/-- Write a known value at a key, keeping the canonical form. -/
def Sparse.insert {α : Type} (key : Nat) (v : α) : Sparse α → Sparse α
  | [] => [(key, v)]
  | (a, w) :: rest =>
    if key < a then (key, v) :: (a, w) :: rest
    else if key = a then (key, v) :: rest
    else (a, w) :: Sparse.insert key v rest

/-- Forget what is at a key: nothing is listed there afterwards. -/
def Sparse.erase {α : Type} (key : Nat) : Sparse α → Sparse α
  | [] => []
  | (a, w) :: rest => if a = key then Sparse.erase key rest else (a, w) :: Sparse.erase key rest

/-- Write a value that may be unknown: writing what an unlisted key reads as removes the entry. -/
def Sparse.write {α : Type} (m : Sparse α) (key : Nat) (v : Val α) : Sparse α :=
  match v with
  | .known a => Sparse.insert key a m
  | .unknown => Sparse.erase key m

/-- The canonical form of a RAM plane. -/
def Memory.wf (m : Memory) : Bool := Sparse.wf m

/-- The key of the RAM cell at column group `x`, row `y` (R50). -/
def ramKey (x : BitVec 5) (y : BitVec 9) : Nat := y.toNat * 32 + x.toNat

/-- The byte of a RAM cell, if known (R250). -/
def Memory.read (m : Memory) (x : BitVec 5) (y : BitVec 9) : Val Byte := Sparse.read m (ramKey x y)

/-- Write a RAM cell (R260): a byte, or unknown, which lists nothing. -/
def Memory.write (m : Memory) (x : BitVec 5) (y : BitVec 9) (v : Val Byte) : Memory := Sparse.write m (ramKey x y) v

/-- The canonical form of the physical image. -/
def Image.wf (m : Image) : Bool := Sparse.wf m

/-- `MemRead(buf, i, n) = [buf[i], ..., buf[i+n-1]]` (R51). -/
def memRead (buf : List Byte) (i n : Nat) : List Byte := (buf.drop i).take n

/-- The bytes a buffer streams: each byte once, in ascending order (R51). -/
def snapshot (buf : List Byte) : List Byte := memRead buf 0 buf.length

end Sys2Proof.Machine
end

