-- ==== Sys2Proof/Machine/Operands.lean ====
section
/-! DEFINITION. The addressing arithmetic and the register-payload encoder (40_address_arithmetic.md R100 to R122,
30_encoding.md R73 to R83): pure functions of their arguments and `Cfg`. -/

namespace Sys2Proof.Machine

/-! ### Geometry (R100 to R102) -/

/-- `STRIDE = ceil(W / 8) = (W + 7) >> 3` (R100). -/
def stride (c : Cfg) : Nat := (c.W + 7) >>> 3

/-- `BUF_LEN = STRIDE * H` (R101). -/
def bufLen (c : Cfg) : Nat := stride c * c.H

/-- The byte of a full-frame buffer that holds pixel (x, y), for `x < W` and `y < H` (R102). -/
def byteIndex (c : Cfg) (x y : Nat) : Nat := y * stride c + (x >>> 3)

/-- The bit of its byte that holds a pixel of column x; bit 7 is the leftmost (R102). -/
def bitPos (x : Nat) : Nat := 7 - (x &&& 7)

/-- The pixel's bit in a buffer; none for a pixel outside the panel, which has no byte, and where the buffer is too
short (R102). -/
def pixelBit (c : Cfg) (buf : List Byte) (x y : Nat) : Option Bool :=
  if x < c.W ∧ y < c.H then (buf[byteIndex c x y]?).map (fun b => b.getLsbD (bitPos x)) else none

/-! ### Coordinate encoders (R103, R104) -/

/-- `XEnc(x) = u8((x >> 3) & 0x1f)` (R103). -/
def xEnc (x : U32) : Byte := ((x >>> 3) &&& 0x1f).setWidth 8

/-- `YLo(y) = u8(y & 0xff)` (R104). -/
def yLo (y : U32) : Byte := (y &&& 0xff).setWidth 8

/-- `YHi(y) = u8((y >> 8) & 0x01)` (R104). -/
def yHi (y : U32) : Byte := ((y >>> 8) &&& 0x01).setWidth 8

/-- `YEnc(y) = [YLo(y), YHi(y)]`, low byte first (R104, R55). -/
def yEnc (y : U32) : List Byte := [yLo y, yHi y]

/-! ### Windows and cursor (R109 to R114) -/

/-- `FullWindow = {0, 0, W - 1, H - 1}` (R110). -/
def fullWindow (c : Cfg) : Win :=
  { xs := 0, ys := 0, xe := BitVec.ofNat 32 (c.W - 1), ye := BitVec.ofNat 32 (c.H - 1) }

/-- `PartialWindow(x, y, w, h)`, with `+` and `-` mod 2^32 (R111). -/
def partialWindow (x y w h : U32) : Win := { xs := x, ys := y, xe := x + w - 1, ye := y + h - 1 }

/-- The SET_X_RANGE payload (R112, R75). -/
def xRangePayload (win : Win) : List Byte := [xEnc win.xs, xEnc win.xe]

/-- The SET_Y_RANGE payload (R113, R76). -/
def yRangePayload (win : Win) : List Byte := yEnc win.ys ++ yEnc win.ye

/-- The SET_X_COUNTER payload (R114, R77). -/
def xCounterPayload (x : U32) : List Byte := [xEnc x]

/-- The SET_Y_COUNTER payload (R114, R78). -/
def yCounterPayload (y : U32) : List Byte := yEnc y

/-! ### Predicates and derived quantities (R115 to R117) -/

/-- `WindowLegal(x, y, w, h)`, in unbounded naturals (R115). -/
def windowLegal (c : Cfg) (x y w h : U32) : Bool :=
  decide (1 ≤ w.toNat) && decide (1 ≤ h.toNat) && decide (x.toNat + w.toNat ≤ c.W) && decide (y.toNat + h.toNat ≤ c.H)

/-- `Aligned8(x, w)` (R116). -/
def aligned8 (x w : U32) : Bool := decide (x.toNat % 8 = 0) && decide (w.toNat % 8 = 0)

/-- The column groups a window covers; 0 for an inverted one (R117). -/
def groups (win : Win) : Nat :=
  if (xEnc win.xs).toNat ≤ (xEnc win.xe).toNat then (xEnc win.xe).toNat - (xEnc win.xs).toNat + 1 else 0

/-- The rows a window covers; 0 for an inverted one (R117). -/
def rows (win : Win) : Nat :=
  if (win.ys &&& 0x1ff).toNat ≤ (win.ye &&& 0x1ff).toNat then (win.ye &&& 0x1ff).toNat - (win.ys &&& 0x1ff).toNat + 1
  else 0

/-- `Capacity(win)` (R117). -/
def capacity (win : Win) : Nat := groups win * rows win

/-! ### Colour (R118 to R121) -/

/-- `PixelColor(a, r)` (R118). -/
def pixelColor (a r : Bool) : Color := if r then .chromatic else if a then .white else .black

/-- `ClearPhases(bg) = (bwPhase, redPhase)` (R119). -/
def clearPhases : Color → Bool × Bool
  | .black => (false, false)
  | .white => (true, false)
  | .chromatic => (false, true)

/-- `zeros(n)` (R10, R121). -/
def zeros (n : Nat) : List Byte := List.replicate n 0x00

/-! ### Payloads (R79 to R83) -/

/-- `PatPayload(phase) = PAT_FIELDS | (phase << PAT_PHASE_BIT)` (R82). -/
def patPayload (c : Cfg) (phase : Bool) : Byte :=
  c.patFields ||| (if phase then (1 : Byte) <<< c.patPhaseBit.val else 0)

/-- The fill phase a pattern payload carries: `(p >> PAT_PHASE_BIT) & 1` (R266). -/
def patPhase (c : Cfg) (p : Byte) : Bool := p.getLsbD c.patPhaseBit.val

end Sys2Proof.Machine
end

