-- ==== Sys2Proof/Machine/Flags.lean ====
section
/-! DEFINITION. What the block records about a request beside its steps: the contract-violation test (43_operations.md
R201), the lifecycle after completion (R215), the result (30_encoding.md R89), and the codes of the fault kinds
(60_exceptions.md R280). -/

namespace Sys2Proof.Machine

/-- `Viol(req, life)` (R201): (a) a protocol operation when the lifecycle is not Ready; (b) to (d) a wrong buffer
length or an illegal window. -/
def violates (c : Cfg) (r : Request) (life : Life) : Bool :=
  match r with
  | .init => false
  | .uploadFrame bw => decide (life ≠ .ready) || decide (bw.length ≠ bufLen c)
  | .uploadColorFrame bw red =>
    decide (life ≠ .ready) || decide (bw.length ≠ bufLen c) || decide (red.length ≠ bufLen c)
  | .uploadPartial bw x y w h =>
    decide (life ≠ .ready) || !windowLegal c x y w h || decide (bw.length ≠ capacity (partialWindow x y w h))
  | .refresh => decide (life ≠ .ready)
  | .uploadAndRefresh bw => decide (life ≠ .ready) || decide (bw.length ≠ bufLen c)
  | .clear => decide (life ≠ .ready)
  | .sleep => decide (life ≠ .ready)
  | .wake => false
  | .setBg _ => false
  | .getBg => false
  | .getWidth => false
  | .getHeight => false

/-- `LifeAfter(req, life)` on completion (R215). -/
def lifeAfter (r : Request) (life : Life) : Life :=
  match r with
  | .init => .ready
  | .wake => .ready
  | .sleep => .asleep
  | .uploadFrame _ => life
  | .uploadColorFrame _ _ => life
  | .uploadPartial _ _ _ _ _ => life
  | .refresh => life
  | .uploadAndRefresh _ => life
  | .clear => life
  | .setBg _ => life
  | .getBg => life
  | .getWidth => life
  | .getHeight => life

/-- The background register after completion (R187, R219). -/
def bgAfter (r : Request) (bg : Color) : Color :=
  match r with
  | .setBg col => col
  | .init => bg
  | .uploadFrame _ => bg
  | .uploadColorFrame _ _ => bg
  | .uploadPartial _ _ _ _ _ => bg
  | .refresh => bg
  | .uploadAndRefresh _ => bg
  | .clear => bg
  | .sleep => bg
  | .wake => bg
  | .getBg => bg
  | .getWidth => bg
  | .getHeight => bg

/-- `Result(req)` (R187, R89). -/
def result (c : Cfg) (r : Request) (bg : Color) : Response :=
  match r with
  | .getBg => .okColor bg
  | .getWidth => .okNat (BitVec.ofNat 32 c.W)
  | .getHeight => .okNat (BitVec.ofNat 32 c.H)
  | .init => .ok
  | .uploadFrame _ => .ok
  | .uploadColorFrame _ _ => .ok
  | .uploadPartial _ _ _ _ _ => .ok
  | .refresh => .ok
  | .uploadAndRefresh _ => .ok
  | .clear => .ok
  | .sleep => .ok
  | .wake => .ok
  | .setBg _ => .ok

/-- The 2-bit code of a fault kind (R280). -/
def FaultKind.code : FaultKind → BitVec 2
  | .bus => 0
  | .dcOutput => 1
  | .rstOutput => 2
  | .busyInput => 3

end Sys2Proof.Machine
end

