-- ==== Sys2Proof/Machine/StepLists.lean ====
section
/-! DEFINITION. The operation sequencer's step lists (43_operations.md R200 to R222): the frame of a panel command
(30_encoding.md R70), the pseudo-instructions (R92) and `StepList(req, bg)`. -/

namespace Sys2Proof.Machine

/-- `Frame(code, p)` (R70): the code with DC low, then the payload with DC high unless the command has none. -/
def frame (c : Cfg) (m : PanelCommand) (p : List Byte) : List Step :=
  match m.shape with
  | .fixed 0 => [.cmd (c.code m)]
  | .fixed (_ + 1) => [.cmd (c.code m), .data p]
  | .stream => [.cmd (c.code m), .data p]

/-- `SetWindow(win)` (R202): X range, then Y range. -/
def setWindow (c : Cfg) (win : Win) : List Step :=
  frame c .setXRange (xRangePayload win) ++ frame c .setYRange (yRangePayload win)

/-- `SetCursor(x, y)` (R203): X counter, then Y counter. -/
def setCursor (c : Cfg) (x y : U32) : List Step :=
  frame c .setXCounter (xCounterPayload x) ++ frame c .setYCounter (yCounterPayload y)

/-- `InitSteps` (R204). -/
def initSteps (c : Cfg) : List Step :=
  [.hwReset c.resetInitialDelayUs c.resetPulseUs, .wait]
    ++ frame c .swReset [] ++ [.wait]
    ++ frame c .dataEntryMode [c.demPayload]
    ++ setWindow c (fullWindow c)
    ++ frame c .updateControl1 [c.uc1Payload0, c.uc1Payload1]
    ++ setCursor c 0 0

/-- `WriteCode(plane)` (R205). -/
def writeCommand : Plane → PanelCommand
  | .bw => .writeRamBw
  | .red => .writeRamRed

/-- `UploadRegion(plane, s, win)` (R205). -/
def uploadRegion (c : Cfg) (p : Plane) (s : List Byte) (win : Win) : List Step :=
  setWindow c win ++ setCursor c win.xs win.ys ++ frame c (writeCommand p) (snapshot s)

/-- The steps of UPLOAD_FRAME (R208): the chromatic plane is all no-colour bytes (R121). -/
def uploadFrameSteps (c : Cfg) (bw : List Byte) : List Step :=
  uploadRegion c .bw bw (fullWindow c) ++ uploadRegion c .red (zeros (bufLen c)) (fullWindow c)

/-- The steps of UPLOAD_COLOR_FRAME (R209). -/
def uploadColorFrameSteps (c : Cfg) (bw red : List Byte) : List Step :=
  uploadRegion c .bw bw (fullWindow c) ++ uploadRegion c .red red (fullWindow c)

/-- The steps of UPLOAD_PARTIAL (R210): the achromatic plane, then the full window restored. -/
def uploadPartialSteps (c : Cfg) (bw : List Byte) (x y w h : U32) : List Step :=
  uploadRegion c .bw bw (partialWindow x y w h) ++ setWindow c (fullWindow c)

/-- The steps of REFRESH (R211). -/
def refreshSteps (c : Cfg) : List Step := frame c .masterActivation [] ++ [.wait]

/-- The steps of CLEAR (R216): it reads the background register at acceptance. -/
def clearSteps (c : Cfg) (bg : Color) : List Step :=
  frame c .patternBw [patPayload c (clearPhases bg).1] ++ [.wait]
    ++ frame c .patternRed [patPayload c (clearPhases bg).2] ++ [.wait]

/-- The steps of SLEEP (R217): no `Wait`. -/
def sleepSteps (c : Cfg) : List Step := frame c .deepSleep [c.dsPayload]

/-- `StepList(req, bg)` (R200). -/
def stepList (c : Cfg) (r : Request) (bg : Color) : List Step :=
  match r with
  | .init => initSteps c
  | .uploadFrame bw => uploadFrameSteps c bw
  | .uploadColorFrame bw red => uploadColorFrameSteps c bw red
  | .uploadPartial bw x y w h => uploadPartialSteps c bw x y w h
  | .refresh => refreshSteps c
  | .uploadAndRefresh bw => uploadFrameSteps c bw ++ refreshSteps c
  | .clear => clearSteps c bg
  | .sleep => sleepSteps c
  | .wake => initSteps c
  | .setBg _ => []
  | .getBg => []
  | .getWidth => []
  | .getHeight => []

end Sys2Proof.Machine
end

