-- ==== Sys2Proof/Machine/PanelOps.lean ====
section
/-! DEFINITION. The panel reference model (45_panel_reference_model.md): how the panel reacts to each event the block
appends (R252 to R268), what finishing its processing does (R253, R255, R256, R263, R266), and the sticky undefined
state (R269). -/

namespace Sys2Proof.Machine

namespace Panel

/-! ### Parts of the state -/

/-- The RAM plane (R250). -/
def ram (p : Panel) : Plane → Memory
  | .bw => p.ramBw
  | .red => p.ramRed

/-- The panel with one RAM plane replaced. -/
def setRam (p : Panel) (pl : Plane) (m : Memory) : Panel :=
  match pl with
  | .bw => { p with ramBw := m }
  | .red => { p with ramRed := m }

/-- The window and the counters become unknown (R266). -/
def forgetAddressing (p : Panel) : Panel :=
  { p with wxs := .unknown, wxe := .unknown, wys := .unknown, wye := .unknown, xc := .unknown, yc := .unknown }

/-- Every chip register becomes unknown (R255, R256, R265). -/
def forgetRegisters (p : Panel) : Panel := { p.forgetAddressing with dem := .unknown, uc1 := .unknown }

/-- Every RAM byte becomes unknown (R255, R256, R265). -/
def forgetRam (p : Panel) : Panel := { p with ramBw := [], ramRed := [] }

/-- Panel behaviour becomes undefined (R269): the flag is set and every field that may be unknown is. The line
`inReset`, which the block drives, is kept; no frame and no effect is pending (log 29). -/
def setUndef (p : Panel) : Panel :=
  { p.forgetRegisters.forgetRam with
    power := .unknown, busy := .unknown, pending := none, shown := [], frame := .noFrame, undef := true }

/-! ### Processing (R253) -/

/-- A processing effect starts: busy is raised atomically with the event (R253, D24). -/
def startProcessing (e : Effect) (p : Panel) : Panel := { p with busy := .known true, pending := some e }

/-- The cells of a plane under a uniform fill: every `g < STRIDE`, `y < H` (R266), padding bits among them (log 33). -/
def fillCells (c : Cfg) (phase : Bool) : Memory :=
  (List.range c.H).flatMap fun y =>
    (List.range (stride c)).map fun g => (y * 32 + g, if phase then (0xFF : Byte) else (0x00 : Byte))

/-- The colour a pixel shows at the end of an activation, if it is known (R263). -/
def pixelShown (c : Cfg) (p : Panel) (x y : Nat) : Option Color :=
  match Sparse.read p.ramBw (y * 32 + (x >>> 3)), Sparse.read p.ramRed (y * 32 + (x >>> 3)) with
  | .known a, .known r =>
    if p.uc1 = .known (c.uc1Payload0, c.uc1Payload1) then
      some (pixelColor (a.getLsbD (bitPos x)) (r.getLsbD (bitPos x)))
    else none
  | _, _ => none

/-- The image at the end of an activation: the known pixels, in rising key order (R263). -/
def image (c : Cfg) (p : Panel) : Image :=
  (List.range c.H).flatMap fun y =>
    (List.range c.W).filterMap fun x => (p.pixelShown c x y).map fun col => (y * c.W + x, col)

/-- What a pending effect does when the panel finishes: a reset forgets registers and RAM (R255, R256), an activation
shows RAM (R263), a fill writes its plane and forgets the addressing (R266; uniform, if PAT_FIELDS covers the panel, for
any payload byte: log 34). -/
def applyEffect (c : Cfg) (e : Effect) (p : Panel) : Panel :=
  match e with
  | .resetDone => p.forgetRegisters.forgetRam
  | .swResetDone => p.forgetRegisters.forgetRam
  | .display => { p with shown := p.image c }
  | .fill pl phase => (p.setRam pl (if c.patFieldsCover then fillCells c phase else [])).forgetAddressing

/-- The panel finishes (R253): it applies `pending`, then `busy <- false` and `pending <- none`. -/
def finish (c : Cfg) (p : Panel) : Panel :=
  match p.pending with
  | some e => { p.applyEffect c e with busy := .known false, pending := none }
  | none => { p with busy := .known false, pending := none }

/-! ### Command effects (R255 to R266) -/

/-- The panel takes commands: awake, not in reset, not busy, not undefined. Anything else makes a command or data byte
undefined (R254, R255, R267); power or busy unknown counts as such (log 7). -/
def takesBytes (p : Panel) : Bool :=
  !p.undef && !p.inReset && decide (p.busy = .known false) && decide (p.power = .known .awake)

/-- DATA_ENTRY_MODE (R257). -/
def effDataEntryMode (p0 : Byte) (p : Panel) : Panel := { p with dem := .known p0 }

/-- SET_X_RANGE (R258). -/
def effSetXRange (p0 p1 : Byte) (p : Panel) : Panel :=
  { p with wxs := .known ((p0 &&& 0x1f).setWidth 5), wxe := .known ((p1 &&& 0x1f).setWidth 5) }

/-- SET_Y_RANGE (R258). -/
def effSetYRange (p0 p1 p2 p3 : Byte) (p : Panel) : Panel :=
  { p with wys := .known (rowOfBytes p0 p1), wye := .known (rowOfBytes p2 p3) }

/-- SET_X_COUNTER (R259). -/
def effSetXCounter (p0 : Byte) (p : Panel) : Panel := { p with xc := .known ((p0 &&& 0x1f).setWidth 5) }

/-- SET_Y_COUNTER (R259). -/
def effSetYCounter (p0 p1 : Byte) (p : Panel) : Panel := { p with yc := .known (rowOfBytes p0 p1) }

/-- UPDATE_CONTROL_1 (R262). -/
def effUpdateControl1 (p0 p1 : Byte) (p : Panel) : Panel := { p with uc1 := .known (p0, p1) }

/-- DEEP_SLEEP (R265): the fixed payload loses RAM and registers and keeps the image; any other is undefined. -/
def effDeepSleep (c : Cfg) (p0 : Byte) (p : Panel) : Panel :=
  if p0 = c.dsPayload then { p.forgetRegisters.forgetRam with power := .known .deepSleep } else p.setUndef

/-- PATTERN_BW and PATTERN_RED (R266): the fill of the phase in PAT_PHASE_BIT is pending, whatever the payload's other
bits are. DESIGN CHOICE (log 34): D6 speaks of PAT_FIELDS only, and N3 says not to assume a uniform fill under every
setting of those bits; the model fills alike for a byte whose other bits are not PAT_FIELDS, which the block never sends.
-/
def effPattern (c : Cfg) (pl : Plane) (p0 : Byte) (p : Panel) : Panel := p.startProcessing (.fill pl (patPhase c p0))

/-- A command whose code byte is its whole frame takes effect at that byte (R252): SW_RESET (R256) and
MASTER_ACTIVATION (R263). No other command is without a payload. -/
def runAtCode (m : PanelCommand) (p : Panel) : Panel :=
  match m with
  | .swReset => p.startProcessing .swResetDone
  | .masterActivation => p.startProcessing .display
  | .dataEntryMode => p
  | .setXRange => p
  | .setYRange => p
  | .setXCounter => p
  | .setYCounter => p
  | .writeRamBw => p
  | .writeRamRed => p
  | .updateControl1 => p
  | .deepSleep => p
  | .patternBw => p
  | .patternRed => p

/-- An effect of one payload byte. -/
def with1 (got : List Byte) (f : Byte → Panel → Panel) (p : Panel) : Panel :=
  match got with
  | [p0] => f p0 p
  | _ => p.setUndef

/-- An effect of two payload bytes. -/
def with2 (got : List Byte) (f : Byte → Byte → Panel → Panel) (p : Panel) : Panel :=
  match got with
  | [p0, p1] => f p0 p1 p
  | _ => p.setUndef

/-- An effect of four payload bytes. -/
def with4 (got : List Byte) (f : Byte → Byte → Byte → Byte → Panel → Panel) (p : Panel) : Panel :=
  match got with
  | [p0, p1, p2, p3] => f p0 p1 p2 p3 p
  | _ => p.setUndef

/-- A command takes effect when its fixed payload is complete (R252). The commands that take no fixed payload never
come here; like any payload of a wrong length they would leave the panel undefined. -/
def runCommand (c : Cfg) (m : PanelCommand) (got : List Byte) (p : Panel) : Panel :=
  match m with
  | .dataEntryMode => p.with1 got effDataEntryMode
  | .setXRange => p.with2 got effSetXRange
  | .setYRange => p.with4 got effSetYRange
  | .setXCounter => p.with1 got effSetXCounter
  | .setYCounter => p.with2 got effSetYCounter
  | .updateControl1 => p.with2 got effUpdateControl1
  | .deepSleep => p.with1 got (effDeepSleep c)
  | .patternBw => p.with1 got (effPattern c .bw)
  | .patternRed => p.with1 got (effPattern c .red)
  | .swReset => p.setUndef
  | .masterActivation => p.setUndef
  | .writeRamBw => p.setUndef
  | .writeRamRed => p.setUndef

/-! ### RAM streams (R260, R261) -/

/-- The addressing of a RAM write, when it has a meaning: the data-entry mode is the configured one, the window and
the counters are known, and the counters are inside the window (R260). -/
def writeCursor (c : Cfg) (p : Panel) : Option (BitVec 5 × BitVec 9) :=
  match p.dem, p.wxs, p.wxe, p.wys, p.wye, p.xc, p.yc with
  | .known d, .known xs, .known xe, .known ys, .known ye, .known x, .known y =>
    if d = c.demPayload ∧ xs ≤ x ∧ x ≤ xe ∧ ys ≤ y ∧ y ≤ ye then some (x, y) else none
  | _, _, _, _, _, _, _ => none

/-- The counters step on: X first, and at the window's right edge back to its left edge and down a row (R260). Past
row 511 the row counter is unknown: the wrap is in no source (R261, log 9). -/
def advanceCursor (x : BitVec 5) (y : BitVec 9) (p : Panel) : Panel :=
  if .known x = p.wxe then
    { p with xc := p.wxs, yc := if y.toNat = 511 then .unknown else .known (y + 1) }
  else { p with xc := .known (x + 1) }

/-- What a RAM cell holds after a byte is written to it: the byte, on the panel; beyond it (column groups past
`(W-1) >> 3`, rows past `H-1`) what the chip holds is unspecified, so unknown (20_memory.md R52, U16; log 30). DESIGN
CHOICE (log 33): where W is not a multiple of 8, the padding bits of a row's last byte are known with the whole byte, as
R260, R264 and R270(b) store it, although R102 and U6 give any value for them at the panel. At W = 152 there are none.
-/
def cellValue (c : Cfg) (x : BitVec 5) (y : BitVec 9) (d : Byte) : Val Byte :=
  if x.toNat < stride c ∧ y.toNat < c.H then .known d else .unknown

/-- One byte of a RAM stream (R260): written at the counters, or, where the write has no meaning, the whole plane
becomes unknown (R261). -/
def writeByte (c : Cfg) (pl : Plane) (p : Panel) (d : Byte) : Panel :=
  match p.writeCursor c with
  | some (x, y) => (p.setRam pl ((p.ram pl).write x y (cellValue c x y d))).advanceCursor x y
  | none => p.setRam pl []

/-- The bytes of a RAM stream, in order (R260). -/
def writeStream (c : Cfg) (pl : Plane) (bs : List Byte) (p : Panel) : Panel := bs.foldl (writeByte c pl) p

/-! ### Events (R252) -/

/-- A byte sent with DC low (R252, R268). -/
def onCmd (c : Cfg) (b : Byte) (p : Panel) : Panel :=
  if !p.takesBytes then p.setUndef
  else
    match p.frame with
    | .expect _ _ _ => p.setUndef
    | _ =>
      match c.command? b with
      | none => p.setUndef
      | some m =>
        match m.shape with
        | .fixed 0 => runAtCode m { p with frame := .noFrame }
        | .fixed (n + 1) => { p with frame := .expect m (n + 1) [] }
        | .stream => { p with frame := .stream (if m = .writeRamBw then .bw else .red) }

/-- Bytes sent with DC high (R252). -/
def onData (c : Cfg) (bs : List Byte) (p : Panel) : Panel :=
  if !p.takesBytes then p.setUndef
  else
    match p.frame with
    | .noFrame => p.setUndef
    | .stream pl => p.writeStream c pl bs
    | .expect m remaining got =>
      if bs.length < remaining then { p with frame := .expect m (remaining - bs.length) (got ++ bs) }
      else if bs.length = remaining then runCommand c m (got ++ bs) { p with frame := .noFrame }
      else p.setUndef

/-- The end of a RAM stream at a reset event (R252); an incomplete fixed payload is kept (log 8). -/
def endStream (p : Panel) : Panel :=
  match p.frame with
  | .stream _ => { p with frame := .noFrame }
  | _ => p

/-- The reset line is driven (R255): asserted, the chip is in reset; the deassert that ends a pulse wakes it and starts
its reset processing; any other deassert has no effect. -/
def onRst (d : RstDrive) (p : Panel) : Panel :=
  match d with
  | .asserted => { p.endStream with inReset := true }
  | .deasserted =>
    if p.inReset then { (p.endStream.startProcessing .resetDone) with inReset := false, power := .known .awake }
    else p.endStream

/-- The busy line is sampled (R253): an idle sample of a panel that still was busy says that it has finished just before
(log 5); a busy sample of a panel that is not busy is outside the reference model (log 6). -/
def onSample (c : Cfg) (o : BusySample) (p : Panel) : Panel :=
  match o with
  | .idle => if p.busy = .known true then p.finish c else p
  | .busy => if p.busy = .known false then p.setUndef else p

/-- What an undefined panel still follows: the reset line (R269, log 29). -/
def onUndef (e : Event) (p : Panel) : Panel :=
  match e with
  | .rst .asserted => { p with inReset := true }
  | .rst .deasserted => { p with inReset := false }
  | .accept _ => p
  | .cmd _ => p
  | .data _ => p
  | .delay _ => p
  | .busySample _ => p
  | .fault _ _ => p
  | .respond _ => p

/-- The panel's reaction to one event of the block (R252 to R269). DESIGN CHOICE (log 32): it does not look at the
block's `violation` flag, so the reference model keeps its known values on a violating run too, where R24 and U1 let no
claim about the chip rely on them. -/
def react (c : Cfg) (e : Event) (p : Panel) : Panel :=
  if p.undef then p.onUndef e
  else
    match e with
    | .cmd b => p.onCmd c b
    | .data bs => p.onData c bs
    | .rst d => p.onRst d
    | .busySample o => p.onSample c o
    | .accept _ => p
    | .delay _ => p
    | .fault _ _ => p
    | .respond _ => p

end Panel
end Sys2Proof.Machine
end

