-- ==== Sys2Proof/Machine/Ops.lean ====
section
/-! DEFINITION. The named operations the block's transitions are made of (42_transport_busy_fsm.md, 60_exceptions.md):
appending an event, drawing from the environment, the transport primitives and steps (R171 to R175), TAKING AN
EXCEPTION (`abort`, R284), the end of a request (`complete`, R187), the request port (R185, R186, R290, R291), and the
block's own reset. -/

namespace Sys2Proof.Machine

/-! ### The trace (R176) and the panel (R188) -/

namespace State

/-- Append an event to the trace and deliver it to the panel before anything else happens (R188, R252). -/
def emit (c : Cfg) (e : Event) (s : State) : State :=
  { s with trace := s.trace ++ [e], panel := s.panel.react c e }

/-- The sequencer returns to SEQ_IDLE with no request (R187, R284). -/
def toIdle (s : State) : State := { s with req := none, steps := [], k := 0, seq := .idle }

/-- A step is done: `k <- k + 1` (R27, R185). -/
def advance (s : State) : State := { s with k := s.k + 1 }

end State

/-! ### Draws (R170) -/

/-- The next draw: the script's, or, once it has run out, the next of the free stream (log 3). -/
def Draws.next {α : Type} (free : Nat → α) (d : Draws α) : α × Draws α :=
  match d.script with
  | a :: rest => (a, { d with script := rest })
  | [] => (free d.taken, { d with taken := d.taken + 1 })

/-- The outcome a `SetPin(DC, _)` draws, and the environment after it. -/
def Env.drawDc (e : Env) : PinDraw × Env := ((e.dc.next Config.freeDc).1, { e with dc := (e.dc.next Config.freeDc).2 })

/-- The outcome a `SetPin(RST, _)` draws, and the environment after it. -/
def Env.drawRst (e : Env) : PinDraw × Env :=
  ((e.rst.next Config.freeRst).1, { e with rst := (e.rst.next Config.freeRst).2 })

/-- The outcome a `BusWrite` draws, and the environment after it. -/
def Env.drawBus (e : Env) : BusDraw × Env :=
  ((e.bus.next Config.freeBus).1, { e with bus := (e.bus.next Config.freeBus).2 })

/-- The outcome a `ReadBusy` draws, and the environment after it. -/
def Env.drawBusy (e : Env) : BusyDraw × Env :=
  ((e.busy.next Config.freeBusy).1, { e with busy := (e.busy.next Config.freeBusy).2 })

/-- Whether the panel finishes now, and the environment after the draw. -/
def Env.drawFinish (e : Env) : Bool × Env :=
  ((e.finish.next Config.freeFinish).1, { e with finish := (e.finish.next Config.freeFinish).2 })

/-! ### The panel's turn (R188, R253) -/

/-- The panel's turn, after a block transition and inside a reset pulse (R188, R253): where its processing is pending,
it finishes or not as the draw says (log 5). -/
def panelTurn (c : Cfg) (s : State) : State :=
  match s.panel.pending with
  | none => s
  | some _ =>
    if s.env.drawFinish.1 then { s with env := s.env.drawFinish.2, panel := s.panel.finish c }
    else { s with env := s.env.drawFinish.2 }

/-! ### Taking an exception (R284) and the end of a request (R187) -/

/-- `Abort(kind, k)` (R284), the block's only exception entry: the Fault event with the request's own step index (log
31), the Err response, life Uninitialized (D19), no request, SEQ_IDLE; bg, violation, refused, dc and rst are kept.
There is no return (R286). -/
def abort (c : Cfg) (kind : FaultKind) (s : State) : State :=
  (({ (s.emit c (.fault kind s.k)) with resp := some (.err kind) }).emit c (.respond (.err kind))).toIdle
    |> fun t => { t with life := .uninitialized }

/-- `Complete` (R187). With no request latched, which no run reaches, only the sequencer returns to idle (log 19). -/
def complete (c : Cfg) (s : State) : State :=
  match s.req with
  | some r =>
    (({ s with
        life := lifeAfter r s.life
        bg := bgAfter r s.bg
        resp := some (result c r (bgAfter r s.bg)) }).emit c (.respond (result c r (bgAfter r s.bg)))).toIdle
  | none => s.toIdle

/-! ### Transport primitives -/

/-- What a step's primitives end in: the step is done, or a transport fault of a kind, with the state each leaves. -/
inductive Attempt where
  | done (s : State)
  | fault (kind : FaultKind) (s : State)
deriving DecidableEq, Repr

/-- Go on with the next primitive only if none has faulted (R283). -/
def Attempt.andThen (a : Attempt) (f : State → Attempt) : Attempt :=
  match a with
  | .done s => f s
  | .fault kind s => .fault kind s

/-- The end of a step (R185): `k <- k + 1`, or the abort. -/
def settle (c : Cfg) (a : Attempt) : State :=
  match a with
  | .done s => s.advance
  | .fault kind s => abort c kind s

/-- `SetPin(DC, lvl)` (R171, R172): a fault leaves `dc` at its old value. -/
def setDc (lvl : DcLevel) (s : State) : Attempt :=
  match s.env.drawDc.1 with
  | .ok => .done { s with env := s.env.drawDc.2, dc := lvl }
  | .fail => .fault .dcOutput { s with env := s.env.drawDc.2 }

/-- `SetPin(RST, d)` and its event (R173): a fault leaves `rst` at its old value. -/
def setRst (c : Cfg) (d : RstDrive) (s : State) : Attempt :=
  match s.env.drawRst.1 with
  | .ok => .done (({ s with env := s.env.drawRst.2, rst := d.toLevel }).emit c (.rst d))
  | .fail => .fault .rstOutput { s with env := s.env.drawRst.2 }

/-- `Delay(us)`: always Ok (R170, R177). -/
def delayFor (c : Cfg) (us : Nat) (s : State) : Attempt := .done (s.emit c (.delay us))

/-- `BusWrite(bs)` (R171, R172, R180): the event of what was delivered, none where nothing was. -/
def busWrite (c : Cfg) (bs : List Byte) (event : List Byte → Event) (s : State) : Attempt :=
  match s.env.drawBus.1 with
  | .ok => .done (({ s with env := s.env.drawBus.2 }).emit c (event bs))
  | .fault n =>
    .fault .bus
      (if bs.take n = [] then { s with env := s.env.drawBus.2 }
       else ({ s with env := s.env.drawBus.2 }).emit c (event (bs.take n)))

/-! ### Steps -/

/-- `Cmd(b)` (R171). -/
def sendCmd (c : Cfg) (b : Byte) (s : State) : Attempt := (setDc .low s).andThen (busWrite c [b] fun _ => .cmd b)

/-- `Data(bs)` (R172). -/
def sendData (c : Cfg) (bs : List Byte) (s : State) : Attempt := (setDc .high s).andThen (busWrite c bs .data)

/-- A `Delay` inside a reset pulse (R173), and then the panel's turn: R188 lets the panel finish between any two events
of the pulse, and a finish before the `Delay` event, to which the panel does not react, leaves what one after it leaves
(log 5). -/
def pulseDelay (c : Cfg) (us : Nat) (s : State) : Attempt :=
  (delayFor c us s).andThen fun t => .done (panelTurn c t)

/-- `HwReset(d1, d2)` (R173). -/
def hwReset (c : Cfg) (d1 d2 : Nat) (s : State) : Attempt :=
  ((((setRst c .deasserted s).andThen (pulseDelay c d1)).andThen (setRst c .asserted)).andThen (pulseDelay c d2)).andThen
    (setRst c .deasserted)

/-- `Idle(level) = (level = BUSY_IDLE_LEVEL)` (R174). -/
def idleLevel (c : Cfg) (l : Level) : Bool := decide (l = c.busyIdleLevel)

/-- One sample of `Wait` (R175, R181): idle moves on, busy waits, a fault aborts. -/
def sampleBusy (c : Cfg) (s : State) : State :=
  match s.env.drawBusy.1 with
  | .fault => abort c .busyInput { s with env := s.env.drawBusy.2 }
  | .level l =>
    if idleLevel c l then
      { (({ s with env := s.env.drawBusy.2 }).emit c (.busySample .idle)).advance with seq := .exec }
    else { (({ s with env := s.env.drawBusy.2 }).emit c (.busySample .busy)) with seq := .wait }

/-! ### The request port -/

/-- Acceptance of a request (R185, first case): latch, step list, `k`, violation flag, Accept event, EXEC. A violating
request only sets the flag (R24, R289); that the panel's values stay what the reference model makes them is a DESIGN
CHOICE (log 32). -/
def acceptRequest (c : Cfg) (r : Request) (s : State) : State :=
  { (s.emit c (.accept r)) with
    req := some r
    steps := stepList c r s.bg
    k := 0
    violation := s.violation || violates c r s.life
    seq := .exec }

/-- A refused request (R88, R291): consumed, and only the sticky mark is set. -/
def refuseRequest (s : State) : State := { s with refused := true }

/-- A request offered while the port is not ready stays offered, unchanged (R186, R290). -/
def holdOffer (w : RequestWord) (s : State) : State := { s with env := { s.env with offers := w :: s.env.offers } }

/-- A request offered at the port: accepted in SEQ_IDLE, held otherwise (R185, R186). DESIGN CHOICE (log 15): `construct`
is not looked at. Asked of an idle block that has not yet accepted its automatic INIT (R310), which `step` never does,
the request is accepted at once and `construct` stays set, so that the INIT comes after it. -/
def offerRequest (c : Cfg) (w : RequestWord) (r : Request) (s : State) : State :=
  if s.seq = .idle then acceptRequest c r s else holdOffer w s

/-- A request that R88 refuses, offered at the port: refused in SEQ_IDLE, held otherwise (R185, R290); `construct` is
not looked at (log 15). -/
def offerRefused (w : RequestWord) (s : State) : State := if s.seq = .idle then refuseRequest s else holdOffer w s

/-! ### Panel command frames as instructions -/

/-- The step index stands at a `Data` step. -/
def State.payloadDue (s : State) : Bool :=
  match s.steps[s.k]? with
  | some (.data _) => true
  | _ => false

/-- One block transition of a frame (R70, R130, R185): the `Data` step of its payload where the step index stands at a
`Data` step, otherwise the `Cmd` step of its code. DESIGN CHOICE (log 14): `seq` is not looked at. A state that is not
in EXEC, of which `step` never asks this (R179: nothing is sent in WAIT), sends the byte and advances `k` all the same.
-/
def sendFrame (c : Cfg) (code : Byte) (payload : Option (List Byte)) (s : State) : State :=
  match payload with
  | some bs => if s.payloadDue then settle c (sendData c bs s) else settle c (sendCmd c code s)
  | none => settle c (sendCmd c code s)

/-! ### Block reset -/

/-- Block reset (power-on) at any moment (R37, R319): the block's record as after reset, the panel unknown (R251); the
environment's scripts and the host's offers are the outside world's and stay. -/
def State.blockReset (s : State) : State := { State.reset with env := s.env }

/-- Block reset at any configuration; none where the configuration has no block (R7). -/
def State.blockResetAt (c : Cfg) (s : State) : Option State := (State.resetAt c).map fun r => { r with env := s.env }

end Sys2Proof.Machine
end

