-- ==== Sys2Proof/Machine/HostRequests.lean ====
section
/-! DEFINITION. The meanings of the 13 host requests (43_operations.md R207 to R222) and of the reserved request codes
(30_encoding.md R88), each at any configuration `c` (00_scope.md R6) and on this hardware: the request is offered at the
request port, where an idle block accepts it, builds its step list and enters EXEC (42_transport_busy_fsm.md R185); the
steps are the transitions that follow. None looks at `construct` (R310, log 15): `step` asks for INIT first. -/

namespace Sys2Proof.Machine

/-- INIT (R207), at any configuration. -/
def execInitAt (c : Cfg) (s : State) : Host.Outcome State Fault Refusal :=
  .next (offerRequest c { op := 0x0 } .init s)

/-- INIT (R207): this hardware. -/
def execInit (s : State) : Host.Outcome State Fault Refusal := execInitAt Config.hw s

/-- UPLOAD_FRAME (R208), at any configuration. -/
def execUploadFrameAt (c : Cfg) (bw : List Byte) (s : State) : Host.Outcome State Fault Refusal :=
  .next (offerRequest c { op := 0x1, bw := bw } (.uploadFrame bw) s)

/-- UPLOAD_FRAME (R208): this hardware. -/
def execUploadFrame (bw : List Byte) (s : State) : Host.Outcome State Fault Refusal := execUploadFrameAt Config.hw bw s

/-- UPLOAD_COLOR_FRAME (R209), at any configuration. -/
def execUploadColorFrameAt (c : Cfg) (bw red : List Byte) (s : State) : Host.Outcome State Fault Refusal :=
  .next (offerRequest c { op := 0x2, bw := bw, red := red } (.uploadColorFrame bw red) s)

/-- UPLOAD_COLOR_FRAME (R209): this hardware. -/
def execUploadColorFrame (bw red : List Byte) (s : State) : Host.Outcome State Fault Refusal := execUploadColorFrameAt Config.hw bw red s

/-- UPLOAD_PARTIAL (R210), at any configuration. -/
def execUploadPartialAt (c : Cfg) (bw : List Byte) (x y w h : U32) (s : State) : Host.Outcome State Fault Refusal :=
  .next (offerRequest c { op := 0x3, bw := bw, x := x, y := y, w := w, h := h } (.uploadPartial bw x y w h) s)

/-- UPLOAD_PARTIAL (R210): this hardware. -/
def execUploadPartial (bw : List Byte) (x y w h : U32) (s : State) : Host.Outcome State Fault Refusal := execUploadPartialAt Config.hw bw x y w h s

/-- REFRESH (R211), at any configuration. -/
def execRefreshAt (c : Cfg) (s : State) : Host.Outcome State Fault Refusal :=
  .next (offerRequest c { op := 0x4 } .refresh s)

/-- REFRESH (R211): this hardware. -/
def execRefresh (s : State) : Host.Outcome State Fault Refusal := execRefreshAt Config.hw s

/-- UPLOAD_AND_REFRESH (R212), at any configuration. -/
def execUploadAndRefreshAt (c : Cfg) (bw : List Byte) (s : State) : Host.Outcome State Fault Refusal :=
  .next (offerRequest c { op := 0x5, bw := bw } (.uploadAndRefresh bw) s)

/-- UPLOAD_AND_REFRESH (R212): this hardware. -/
def execUploadAndRefresh (bw : List Byte) (s : State) : Host.Outcome State Fault Refusal := execUploadAndRefreshAt Config.hw bw s

/-- CLEAR (R216), at any configuration. -/
def execClearAt (c : Cfg) (s : State) : Host.Outcome State Fault Refusal :=
  .next (offerRequest c { op := 0x6 } .clear s)

/-- CLEAR (R216): this hardware. -/
def execClear (s : State) : Host.Outcome State Fault Refusal := execClearAt Config.hw s

/-- SLEEP (R217), at any configuration. -/
def execSleepAt (c : Cfg) (s : State) : Host.Outcome State Fault Refusal :=
  .next (offerRequest c { op := 0x7 } .sleep s)

/-- SLEEP (R217): this hardware. -/
def execSleep (s : State) : Host.Outcome State Fault Refusal := execSleepAt Config.hw s

/-- WAKE (R218), at any configuration. -/
def execWakeAt (c : Cfg) (s : State) : Host.Outcome State Fault Refusal :=
  .next (offerRequest c { op := 0x8 } .wake s)

/-- WAKE (R218): this hardware. -/
def execWake (s : State) : Host.Outcome State Fault Refusal := execWakeAt Config.hw s

/-- SET_BG (R219); code 3 is refused (R88), at any configuration. -/
def execSetBgAt (c : Cfg) (col : BitVec 2) (s : State) : Host.Outcome State Fault Refusal :=
  match colorOfCode col with
  | some color => .next (offerRequest c { op := 0x9, col := col } (.setBg color) s)
  | none => .next (offerRefused { op := 0x9, col := col } s)

/-- SET_BG (R219); code 3 is refused (R88); on this hardware. -/
def execSetBg (col : BitVec 2) (s : State) : Host.Outcome State Fault Refusal := execSetBgAt Config.hw col s

/-- GET_BG (R220), at any configuration. -/
def execGetBgAt (c : Cfg) (s : State) : Host.Outcome State Fault Refusal :=
  .next (offerRequest c { op := 0xA } .getBg s)

/-- GET_BG (R220): this hardware. -/
def execGetBg (s : State) : Host.Outcome State Fault Refusal := execGetBgAt Config.hw s

/-- GET_WIDTH (R221), at any configuration. -/
def execGetWidthAt (c : Cfg) (s : State) : Host.Outcome State Fault Refusal :=
  .next (offerRequest c { op := 0xB } .getWidth s)

/-- GET_WIDTH (R221): this hardware. -/
def execGetWidth (s : State) : Host.Outcome State Fault Refusal := execGetWidthAt Config.hw s

/-- GET_HEIGHT (R222), at any configuration. -/
def execGetHeightAt (c : Cfg) (s : State) : Host.Outcome State Fault Refusal :=
  .next (offerRequest c { op := 0xC } .getHeight s)

/-- GET_HEIGHT (R222): this hardware. -/
def execGetHeight (s : State) : Host.Outcome State Fault Refusal := execGetHeightAt Config.hw s

/-- Reserved request code 0xD (R88, R291): refused, at any configuration. -/
def execReservedDAt (_c : Cfg) (s : State) : Host.Outcome State Fault Refusal := .next (offerRefused { op := 0xD } s)

/-- Reserved request code 0xD (R88, R291): refused, on this hardware. -/
def execReservedD (s : State) : Host.Outcome State Fault Refusal := execReservedDAt Config.hw s

/-- Reserved request code 0xE (R88, R291): refused, at any configuration. -/
def execReservedEAt (_c : Cfg) (s : State) : Host.Outcome State Fault Refusal := .next (offerRefused { op := 0xE } s)

/-- Reserved request code 0xE (R88, R291): refused, on this hardware. -/
def execReservedE (s : State) : Host.Outcome State Fault Refusal := execReservedEAt Config.hw s

/-- Reserved request code 0xF (R88, R291): refused, at any configuration. -/
def execReservedFAt (_c : Cfg) (s : State) : Host.Outcome State Fault Refusal := .next (offerRefused { op := 0xF } s)

/-- Reserved request code 0xF (R88, R291): refused, on this hardware. -/
def execReservedF (s : State) : Host.Outcome State Fault Refusal := execReservedFAt Config.hw s

end Sys2Proof.Machine
end

