-- ==== Sys2Proof/Machine/PanelCommands.lean ====
section
/-! DEFINITION. The meanings of the 13 panel commands (41_panel_commands.md R130 to R143), each at any configuration `c`
(00_scope.md R6) and on this hardware. A meaning is one block transition of the command's frame: its code byte with DC
low, or its payload with DC high, with the transport faults of R130(b); the panel receives the event and, when the frame
is complete, the command takes effect there (45_panel_reference_model.md R252 to R266, `Panel.react`). -/

namespace Sys2Proof.Machine

/-- SW_RESET (R131; panel effect R256), at any configuration. -/
def execSwResetAt (c : Cfg) (s : State) : Host.Outcome State Fault Refusal :=
  .next (sendFrame c c.cmdSwReset none s)

/-- SW_RESET (R131; panel effect R256): this hardware. -/
def execSwReset (s : State) : Host.Outcome State Fault Refusal := execSwResetAt Config.hw s

/-- DATA_ENTRY_MODE (R132; panel effect R257), at any configuration. -/
def execDataEntryModeAt (c : Cfg) (p0 : Byte) (s : State) : Host.Outcome State Fault Refusal :=
  .next (sendFrame c c.cmdDataEntryMode (some [p0]) s)

/-- DATA_ENTRY_MODE (R132; panel effect R257): this hardware. -/
def execDataEntryMode (p0 : Byte) (s : State) : Host.Outcome State Fault Refusal := execDataEntryModeAt Config.hw p0 s

/-- SET_X_RANGE (R133; panel effect R258), at any configuration. -/
def execSetXRangeAt (c : Cfg) (xs xe : BitVec 5) (s : State) : Host.Outcome State Fault Refusal :=
  .next (sendFrame c c.cmdSetXRange (some [xByte xs, xByte xe]) s)

/-- SET_X_RANGE (R133; panel effect R258): this hardware. -/
def execSetXRange (xs xe : BitVec 5) (s : State) : Host.Outcome State Fault Refusal := execSetXRangeAt Config.hw xs xe s

/-- SET_Y_RANGE (R134; panel effect R258), at any configuration. -/
def execSetYRangeAt (c : Cfg) (ys ye : BitVec 9) (s : State) : Host.Outcome State Fault Refusal :=
  .next (sendFrame c c.cmdSetYRange (some [rowLo ys, rowHi ys, rowLo ye, rowHi ye]) s)

/-- SET_Y_RANGE (R134; panel effect R258): this hardware. -/
def execSetYRange (ys ye : BitVec 9) (s : State) : Host.Outcome State Fault Refusal := execSetYRangeAt Config.hw ys ye s

/-- SET_X_COUNTER (R135; panel effect R259), at any configuration. -/
def execSetXCounterAt (c : Cfg) (x : BitVec 5) (s : State) : Host.Outcome State Fault Refusal :=
  .next (sendFrame c c.cmdSetXCounter (some [xByte x]) s)

/-- SET_X_COUNTER (R135; panel effect R259): this hardware. -/
def execSetXCounter (x : BitVec 5) (s : State) : Host.Outcome State Fault Refusal := execSetXCounterAt Config.hw x s

/-- SET_Y_COUNTER (R136; panel effect R259), at any configuration. -/
def execSetYCounterAt (c : Cfg) (y : BitVec 9) (s : State) : Host.Outcome State Fault Refusal :=
  .next (sendFrame c c.cmdSetYCounter (some [rowLo y, rowHi y]) s)

/-- SET_Y_COUNTER (R136; panel effect R259): this hardware. -/
def execSetYCounter (y : BitVec 9) (s : State) : Host.Outcome State Fault Refusal := execSetYCounterAt Config.hw y s

/-- WRITE_RAM_BW (R137; panel effect R260), at any configuration. -/
def execWriteRamBwAt (c : Cfg) (stream : List Byte) (s : State) : Host.Outcome State Fault Refusal :=
  .next (sendFrame c c.cmdWriteRamBw (some stream) s)

/-- WRITE_RAM_BW (R137; panel effect R260): this hardware. -/
def execWriteRamBw (stream : List Byte) (s : State) : Host.Outcome State Fault Refusal := execWriteRamBwAt Config.hw stream s

/-- WRITE_RAM_RED (R138; panel effect R260), at any configuration. -/
def execWriteRamRedAt (c : Cfg) (stream : List Byte) (s : State) : Host.Outcome State Fault Refusal :=
  .next (sendFrame c c.cmdWriteRamRed (some stream) s)

/-- WRITE_RAM_RED (R138; panel effect R260): this hardware. -/
def execWriteRamRed (stream : List Byte) (s : State) : Host.Outcome State Fault Refusal := execWriteRamRedAt Config.hw stream s

/-- UPDATE_CONTROL_1 (R139; panel effect R262), at any configuration. -/
def execUpdateControl1At (c : Cfg) (p0 p1 : Byte) (s : State) : Host.Outcome State Fault Refusal :=
  .next (sendFrame c c.cmdUpdateControl1 (some [p0, p1]) s)

/-- UPDATE_CONTROL_1 (R139; panel effect R262): this hardware. -/
def execUpdateControl1 (p0 p1 : Byte) (s : State) : Host.Outcome State Fault Refusal := execUpdateControl1At Config.hw p0 p1 s

/-- MASTER_ACTIVATION (R140; panel effect R263), at any configuration. -/
def execMasterActivationAt (c : Cfg) (s : State) : Host.Outcome State Fault Refusal :=
  .next (sendFrame c c.cmdMasterActivation none s)

/-- MASTER_ACTIVATION (R140; panel effect R263): this hardware. -/
def execMasterActivation (s : State) : Host.Outcome State Fault Refusal := execMasterActivationAt Config.hw s

/-- DEEP_SLEEP (R141; panel effect R265), at any configuration. -/
def execDeepSleepAt (c : Cfg) (p0 : Byte) (s : State) : Host.Outcome State Fault Refusal :=
  .next (sendFrame c c.cmdDeepSleep (some [p0]) s)

/-- DEEP_SLEEP (R141; panel effect R265): this hardware. -/
def execDeepSleep (p0 : Byte) (s : State) : Host.Outcome State Fault Refusal := execDeepSleepAt Config.hw p0 s

/-- PATTERN_BW (R142; panel effect R266), at any configuration. -/
def execPatternBwAt (c : Cfg) (p0 : Byte) (s : State) : Host.Outcome State Fault Refusal :=
  .next (sendFrame c c.cmdPatternBw (some [p0]) s)

/-- PATTERN_BW (R142; panel effect R266): this hardware. -/
def execPatternBw (p0 : Byte) (s : State) : Host.Outcome State Fault Refusal := execPatternBwAt Config.hw p0 s

/-- PATTERN_RED (R143; panel effect R266), at any configuration. -/
def execPatternRedAt (c : Cfg) (p0 : Byte) (s : State) : Host.Outcome State Fault Refusal :=
  .next (sendFrame c c.cmdPatternRed (some [p0]) s)

/-- PATTERN_RED (R143; panel effect R266): this hardware. -/
def execPatternRed (p0 : Byte) (s : State) : Host.Outcome State Fault Refusal := execPatternRedAt Config.hw p0 s

end Sys2Proof.Machine
end

