-- ==== Sys2Proof/Machine/Dispatch.lean ====
section
/-! DEFINITION. The dispatch: one arm per constructor of Instr, each one direct call of its meaning. -/

namespace Sys2Proof.Machine

def exec (i : Instr) (s : State) : Host.Outcome State Fault Refusal :=
  match i with
  | .swReset => Sys2Proof.Machine.execSwReset s
  | .dataEntryMode p0 => Sys2Proof.Machine.execDataEntryMode p0 s
  | .setXRange xs xe => Sys2Proof.Machine.execSetXRange xs xe s
  | .setYRange ys ye => Sys2Proof.Machine.execSetYRange ys ye s
  | .setXCounter x => Sys2Proof.Machine.execSetXCounter x s
  | .setYCounter y => Sys2Proof.Machine.execSetYCounter y s
  | .writeRamBw stream => Sys2Proof.Machine.execWriteRamBw stream s
  | .writeRamRed stream => Sys2Proof.Machine.execWriteRamRed stream s
  | .updateControl1 p0 p1 => Sys2Proof.Machine.execUpdateControl1 p0 p1 s
  | .masterActivation => Sys2Proof.Machine.execMasterActivation s
  | .deepSleep p0 => Sys2Proof.Machine.execDeepSleep p0 s
  | .patternBw p0 => Sys2Proof.Machine.execPatternBw p0 s
  | .patternRed p0 => Sys2Proof.Machine.execPatternRed p0 s
  | .init => Sys2Proof.Machine.execInit s
  | .uploadFrame bw => Sys2Proof.Machine.execUploadFrame bw s
  | .uploadColorFrame bw red => Sys2Proof.Machine.execUploadColorFrame bw red s
  | .uploadPartial bw x y w h => Sys2Proof.Machine.execUploadPartial bw x y w h s
  | .refresh => Sys2Proof.Machine.execRefresh s
  | .uploadAndRefresh bw => Sys2Proof.Machine.execUploadAndRefresh bw s
  | .clear => Sys2Proof.Machine.execClear s
  | .sleep => Sys2Proof.Machine.execSleep s
  | .wake => Sys2Proof.Machine.execWake s
  | .setBg col => Sys2Proof.Machine.execSetBg col s
  | .getBg => Sys2Proof.Machine.execGetBg s
  | .getWidth => Sys2Proof.Machine.execGetWidth s
  | .getHeight => Sys2Proof.Machine.execGetHeight s
  | .reservedD => Sys2Proof.Machine.execReservedD s
  | .reservedE => Sys2Proof.Machine.execReservedE s
  | .reservedF => Sys2Proof.Machine.execReservedF s

end Sys2Proof.Machine
end

