-- ==== Sys2Proof/Machine/Sequencer.lean ====
section
/-! DEFINITION. The sequencer's transition relation (42_transport_busy_fsm.md R185), the panel's turn after it (R188, R253),
the fetch of the next instruction from where it stands (the request port or the step list), the step over any meaning of
the instructions, and the placing of an instruction where it is fetched. -/

namespace Sys2Proof.Machine

/-- The head of the request port is taken: the automatic construction request first (R310), then the host's offers in
order (R62). -/
def takeOffer (s : State) : Option (RequestWord × State) :=
  if s.construct then some ({ op := 0x0 }, { s with construct := false })
  else
    match s.env.offers with
    | w :: rest => some (w, { s with env := { s.env with offers := rest } })
    | [] => none

/-- One block transition of the step at the step index (R185, second to fourth case). -/
def stepTurn (c : Cfg) (s : State) : State :=
  match s.steps[s.k]? with
  | some (.cmd b) => settle c (sendCmd c b s)
  | some (.data bs) => settle c (sendData c bs s)
  | some (.hwReset d1 d2) => settle c (hwReset c d1 d2 s)
  | some (.delay us) => settle c (delayFor c us s)
  | some .wait => sampleBusy c s
  | none => complete c s

/-- One block transition (R185): the first case that applies. With SEQ_IDLE and nothing offered there is no transition:
the state stays (log 10). -/
def turn (c : Cfg) (s : State) : State :=
  match s.seq with
  | .idle =>
    match takeOffer s with
    | some (w, s') =>
      match (decodeRequest w).request? with
      | some r => acceptRequest c r s'
      | none => refuseRequest s'
    | none => s
  | .exec => stepTurn c s
  | .wait => sampleBusy c s

/-! ### Fetch -/

/-- The frame the step index stands in (R70): at a `Cmd` step, with the `Data` step that directly follows as its
payload; at a `Data` step that directly follows a `Cmd` step. -/
def frameAt (steps : List Step) (k : Nat) : Option (Byte × Option (List Byte)) :=
  match steps[k]? with
  | some (.cmd b) =>
    match steps[k + 1]? with
    | some (.data bs) => some (b, some bs)
    | _ => some (b, none)
  | some (.data bs) =>
    match k with
    | 0 => none
    | j + 1 =>
      match steps[j]? with
      | some (.cmd b) => some (b, some bs)
      | _ => none
  | _ => none

/-- The instruction the machine runs next, and the state its meaning starts from: in SEQ_IDLE the request at the port,
in EXEC the panel command whose frame the step index stands in. None where the next transition is no instruction of the
opcode table: nothing is offered, or the sequencer resets the chip, samples the busy line or completes. -/
def fetch (c : Cfg) (s : State) : Option (Instr × State) :=
  match s.seq with
  | .idle =>
    match takeOffer s with
    | some (w, s') => some (decodeRequest w, s')
    | none => none
  | .exec =>
    match frameAt s.steps s.k with
    | some (code, payload) =>
      match decodeFrame c code payload with
      | .ok i => some (i, s)
      | .error _ => none
    | none => none
  | .wait => none

/-! ### The step -/

/-- The panel's turn after a transition (R188, log 5). -/
def thenPanel (c : Cfg) (o : Host.Outcome State Fault Refusal) : Host.Outcome State Fault Refusal :=
  match o with
  | .next t => .next (panelTurn c t)
  | .fault f => .fault f
  | .refused r => .refused r

/-- One step, over the meaning `run` of the instructions: one block transition (R185), the meaning of the fetched
instruction where there is one and otherwise the sequencer's own, and then the panel's turn. -/
def stepWith (c : Cfg) (run : Instr → State → Host.Outcome State Fault Refusal) (s : State) :
    Host.Outcome State Fault Refusal :=
  match fetch c s with
  | some (i, t) => thenPanel c (run i t)
  | none => thenPanel c (.next (turn c s))

/-! ### Placing an instruction where it is fetched -/

/-- Put an encoded instruction where the next fetch finds it: a request alone at the port of an idle block whose
construction is over; a frame as the step list of an executing block, at step 0. -/
def State.place (s : State) (e : Encoded) : State :=
  match e with
  | .request r => { s with seq := .idle, construct := false, env := { s.env with offers := [r] } }
  | .frame code payload =>
    { s with
      seq := .exec
      steps := (match payload with
        | some bs => [.cmd code, .data bs]
        | none => [.cmd code])
      k := 0 }

end Sys2Proof.Machine
end

