-- ==== Sys2Proof/Machine/Step.lean ====
section
/-! DEFINITION. The step: one block transition, then the panel's turn (42_transport_busy_fsm.md R185, R188). Where the
transition is an instruction of the opcode table, it is fetched, decoded and run by `exec`; otherwise it is the
sequencer's own. -/

namespace Sys2Proof.Machine

/-- One step of the machine. -/
def step (s : State) : Host.Outcome State Fault Refusal := stepWith Config.hw exec s

/-- The state with an instruction of the opcode table placed where the very next step fetches it (log 13). -/
def State.withFetchWord (s : State) (nbits w : Nat) : State := s.place (tableEncoded nbits w)

end Sys2Proof.Machine
end

