-- ==== Sys2Proof/Machine/Configured.lean ====
section
/-! DEFINITION. The machine at ANY configuration (00_scope.md R6: a model takes `Cfg` as an argument), and the refusal
of every other one: a configuration that breaks R7 has no block (70_reset_and_hazards.md R312). `exec`, `step`,
`State.reset` and `core`, whose types the host fixes, are this machine at `Config.hw`, which is legal. -/

namespace Sys2Proof.Machine

/-- The meaning of every instruction, with the configuration as a parameter. -/
def meaningAt (c : Cfg) (i : Instr) (s : State) : Host.Outcome State Fault Refusal :=
  match i with
  | .swReset => execSwResetAt c s
  | .dataEntryMode p0 => execDataEntryModeAt c p0 s
  | .setXRange xs xe => execSetXRangeAt c xs xe s
  | .setYRange ys ye => execSetYRangeAt c ys ye s
  | .setXCounter x => execSetXCounterAt c x s
  | .setYCounter y => execSetYCounterAt c y s
  | .writeRamBw stream => execWriteRamBwAt c stream s
  | .writeRamRed stream => execWriteRamRedAt c stream s
  | .updateControl1 p0 p1 => execUpdateControl1At c p0 p1 s
  | .masterActivation => execMasterActivationAt c s
  | .deepSleep p0 => execDeepSleepAt c p0 s
  | .patternBw p0 => execPatternBwAt c p0 s
  | .patternRed p0 => execPatternRedAt c p0 s
  | .init => execInitAt c s
  | .uploadFrame bw => execUploadFrameAt c bw s
  | .uploadColorFrame bw red => execUploadColorFrameAt c bw red s
  | .uploadPartial bw x y w h => execUploadPartialAt c bw x y w h s
  | .refresh => execRefreshAt c s
  | .uploadAndRefresh bw => execUploadAndRefreshAt c bw s
  | .clear => execClearAt c s
  | .sleep => execSleepAt c s
  | .wake => execWakeAt c s
  | .setBg col => execSetBgAt c col s
  | .getBg => execGetBgAt c s
  | .getWidth => execGetWidthAt c s
  | .getHeight => execGetHeightAt c s
  | .reservedD => execReservedDAt c s
  | .reservedE => execReservedEAt c s
  | .reservedF => execReservedFAt c s

/-- The meaning of every instruction, at any configuration; an illegal one is refused (R7, R312). -/
def execAt (c : Cfg) (i : Instr) (s : State) : Host.Outcome State Fault Refusal :=
  if c.legal then meaningAt c i s else .refused .illegalConfiguration

/-- One step, at any configuration; an illegal one is refused (R7, R312). -/
def stepAt (c : Cfg) (s : State) : Host.Outcome State Fault Refusal :=
  if c.legal then stepWith c (meaningAt c) s else .refused .illegalConfiguration

/-- The block of a configuration, behind the host's interface. A configuration that breaks R7 has none (R7, R312). -/
def coreAt (c : Cfg) : Option Host.Core :=
  if c.legal then
    some { State := State, Fault := Fault, Refusal := Refusal, step := stepAt c, reset := State.initial c }
  else none

end Sys2Proof.Machine
end

