-- ==== Sys2Proof/Machine/TraceReader.lean ====
section
/-! DEFINITION. Reading a trace: the emitted command stream (42_transport_busy_fsm.md R176), the frames a checker
recovers from it (30_encoding.md R84), and the events of a step list whose primitives all succeed (R171 to R173). -/

namespace Sys2Proof.Machine

/-- The event is a `Cmd` or `Data` event. -/
def Event.isBytes : Event → Bool
  | .cmd _ => true
  | .data _ => true
  | .accept _ => false
  | .rst _ => false
  | .delay _ => false
  | .busySample _ => false
  | .fault _ _ => false
  | .respond _ => false

/-- The emitted command stream: the `Cmd`/`Data` subsequence of a trace (R176). -/
def commandStream (tr : List Event) : List Event := tr.filter Event.isBytes

/-- What a line event is in a comparison of two runs (43_operations.md R213): `Accept` and `Respond` are none, and a
fault counts by its kind alone, since its step index is that of its own request (log 31). -/
def Event.line? : Event → Option Event
  | .cmd b => some (.cmd b)
  | .data bs => some (.data bs)
  | .rst d => some (.rst d)
  | .delay us => some (.delay us)
  | .busySample o => some (.busySample o)
  | .fault kind _ => some (.fault kind 0)
  | .accept _ => none
  | .respond _ => none

/-- The `Cmd`/`Data`/`Rst`/`Delay`/`BusySample`/`Fault` subsequence of a trace (R213). -/
def lineEvents (tr : List Event) : List Event := tr.filterMap Event.line?

/-- The frames of a trace (R84): every byte with DC low begins a frame, and the `Data` that directly follows it is its
payload. -/
def readFrames : List Event → List (Byte × Option (List Byte))
  | [] => []
  | .cmd b :: rest =>
    match rest with
    | .data bs :: _ => (b, some bs) :: readFrames rest
    | _ => (b, none) :: readFrames rest
  | .data _ :: rest => readFrames rest
  | .accept _ :: rest => readFrames rest
  | .rst _ :: rest => readFrames rest
  | .delay _ :: rest => readFrames rest
  | .busySample _ :: rest => readFrames rest
  | .fault _ _ :: rest => readFrames rest
  | .respond _ :: rest => readFrames rest

/-- The events a step appends when every primitive succeeds (R171 to R173); a `Wait` is taken to see one idle sample. -/
def Step.okEvents : Step → List Event
  | .cmd b => [.cmd b]
  | .data bs => [.data bs]
  | .hwReset d1 d2 => [.rst .deasserted, .delay d1, .rst .asserted, .delay d2, .rst .deasserted]
  | .wait => [.busySample .idle]
  | .delay us => [.delay us]

/-- The events of a step list whose primitives all succeed and whose waits see one idle sample each. -/
def okEvents (steps : List Step) : List Event := steps.flatMap Step.okEvents

/-- The panel after a list of events (R252). -/
def Panel.reactAll (c : Cfg) (evs : List Event) (p : Panel) : Panel := evs.foldl (fun q e => q.react c e) p

end Sys2Proof.Machine
end

