-- ==== Sys2Proof/Safety.lean ====
section
/-! DEFINITION. The terms claims use: the invariant of the machine, what the panel's undefined state looks like, what of
a state the block's own behaviour may depend on, and the syntactic properties of step lists. -/

namespace Sys2Proof.Machine

/-! ### The invariant -/

/-- Every panel field that may be unknown is (R269). -/
def Panel.allUnknown (p : Panel) : Prop :=
  p.power = .unknown ∧ p.busy = .unknown ∧ p.dem = .unknown ∧ p.uc1 = .unknown ∧ p.wxs = .unknown ∧ p.wxe = .unknown ∧
    p.wys = .unknown ∧ p.wye = .unknown ∧ p.xc = .unknown ∧ p.yc = .unknown ∧ p.ramBw = [] ∧ p.ramRed = [] ∧
    p.shown = []

/-- The panel's part of the invariant: canonical planes and image; processing pending exactly while busy; an undefined
panel is unknown throughout (R253, R269). -/
structure Panel.Inv (p : Panel) : Prop where
  ramBwWf : p.ramBw.wf = true
  ramRedWf : p.ramRed.wf = true
  shownWf : Image.wf p.shown = true
  busyPending : p.busy = .known true ↔ p.pending.isSome = true
  undefUnknown : p.undef = true → p.allUnknown

/-- The invariant every step keeps: the step index is within the step list (R27); an idle sequencer holds no request;
a waiting one stands at a `Wait` step (R26); a running request's step list is the one its acceptance built (R27). -/
structure State.InvAt (c : Cfg) (s : State) : Prop where
  indexInRange : s.k ≤ s.steps.length
  idleEmpty : s.seq = .idle → s.req = none ∧ s.steps = [] ∧ s.k = 0
  waitAtWait : s.seq = .wait → s.steps[s.k]? = some .wait
  runningSteps : s.seq ≠ .idle → ∃ r, s.req = some r ∧ s.steps = stepList c r s.bg
  panelInv : s.panel.Inv

/-- The invariant of this hardware. -/
abbrev State.Inv (s : State) : Prop := s.InvAt Config.hw

/-! ### The reset pulse (R255) -/

/-- The panel that the deassert which ends a pulse has woken: out of reset, awake, its reset processing pending (R255). -/
def Panel.woken (p : Panel) : Panel :=
  { p with inReset := false, power := .known .awake, busy := .known true, pending := some .resetDone }

/-! ### The correspondence laws (45_panel_reference_model.md R270) -/

/-- The addressing window is the full window (R110, R270). -/
def Panel.windowFull (c : Cfg) (p : Panel) : Prop :=
  p.wxs = .known 0 ∧ p.wxe = .known (BitVec.ofNat 5 ((c.W - 1) / 8)) ∧ p.wys = .known 0 ∧
    p.wye = .known (BitVec.ofNat 9 (c.H - 1))

/-- R270(a): what INIT and WAKE leave. -/
def Panel.initialized (c : Cfg) (p : Panel) : Prop :=
  p.power = .known .awake ∧ p.dem = .known c.demPayload ∧ p.windowFull c ∧
    p.uc1 = .known (c.uc1Payload0, c.uc1Payload1) ∧ p.xc = .known 0 ∧ p.yc = .known 0

/-- R270(b), with R264: both planes hold the buffers of UPLOAD_COLOR_FRAME, byte by byte and pixel by pixel, and the
window is full. -/
def Panel.holdsFrame (c : Cfg) (bw red : List Byte) (p : Panel) : Prop :=
  (∀ g y : Nat, g < stride c → y < c.H →
    (∃ b, bw[y * stride c + g]? = some b ∧ p.ramBw.read (BitVec.ofNat 5 g) (BitVec.ofNat 9 y) = .known b) ∧
      ∃ b, red[y * stride c + g]? = some b ∧ p.ramRed.read (BitVec.ofNat 5 g) (BitVec.ofNat 9 y) = .known b) ∧
    (∀ x y : Nat, x < c.W → y < c.H →
      (∃ b, p.ramBw.read (BitVec.ofNat 5 (x / 8)) (BitVec.ofNat 9 y) = .known b ∧
          pixelBit c bw x y = some (b.getLsbD (7 - x % 8))) ∧
        ∃ b, p.ramRed.read (BitVec.ofNat 5 (x / 8)) (BitVec.ofNat 9 y) = .known b ∧
          pixelBit c red x y = some (b.getLsbD (7 - x % 8))) ∧
    p.windowFull c

/-- R270(c): the achromatic plane holds the buffer of UPLOAD_PARTIAL in its window, every other byte of it and the whole
chromatic plane are those of the panel `before`, and the window is full again. -/
def Panel.holdsRegion (c : Cfg) (bw : List Byte) (x y w h : U32) (p before : Panel) : Prop :=
  (∀ i j : Nat, i < h.toNat → j < w.toNat / 8 → ∃ b, bw[i * (w.toNat / 8) + j]? = some b ∧
    p.ramBw.read (BitVec.ofNat 5 (x.toNat / 8 + j)) (BitVec.ofNat 9 (y.toNat + i)) = .known b) ∧
    (∀ (gx : BitVec 5) (gy : BitVec 9),
      (gx.toNat < x.toNat / 8 ∨ x.toNat / 8 + w.toNat / 8 ≤ gx.toNat ∨ gy.toNat < y.toNat ∨
        y.toNat + h.toNat ≤ gy.toNat) → p.ramBw.read gx gy = before.ramBw.read gx gy) ∧
    p.ramRed = before.ramRed ∧ p.windowFull c

/-- R270(d): every pixel shows the colour. -/
def Panel.showsColor (c : Cfg) (col : Color) (p : Panel) : Prop :=
  ∀ x y : Nat, x < c.W → y < c.H → Sparse.read p.shown (y * c.W + x) = .known col

/-- R270(e): every pixel whose two RAM bytes are known shows the PixelColor of its RAM bits. -/
def Panel.showsRam (c : Cfg) (p : Panel) : Prop :=
  ∀ (x y : Nat) (a r : Byte), x < c.W → y < c.H →
    p.ramBw.read (BitVec.ofNat 5 (x / 8)) (BitVec.ofNat 9 y) = .known a →
    p.ramRed.read (BitVec.ofNat 5 (x / 8)) (BitVec.ofNat 9 y) = .known r →
      Sparse.read p.shown (y * c.W + x) = .known (pixelColor (a.getLsbD (7 - x % 8)) (r.getLsbD (7 - x % 8)))

/-- The panel takes bytes, awaits no payload, and has the configured data-entry mode and update control. -/
def Panel.prepared (c : Cfg) (p : Panel) : Prop :=
  p.takesBytes = true ∧ (∀ m n got, p.frame ≠ .expect m n got) ∧ p.dem = .known c.demPayload ∧
    p.uc1 = .known (c.uc1Payload0, c.uc1Payload1)

/-- What holds between requests: at a Ready block, on a run without a violation and with defined panel behaviour, the
panel is prepared (R215, R270(a)). -/
def State.prepared (s : State) : Prop :=
  s.life = .ready → s.violation = false → s.panel.undef = false → s.panel.prepared Config.hw

/-- From the idle block `s`, the host request `i` is accepted and runs, in any number of transitions and with any draws,
to the idle block `t` without a transport fault: the first idle state of the run, and its response is no Err. The panel
has its turn after the acceptance, as after every transition. -/
def completes (i : Instr) (s t : State) : Prop :=
  s.seq = .idle ∧ i.request? ≠ none ∧ t.seq = .idle ∧ (∀ kind, t.resp ≠ some (.err kind)) ∧
    ∃ (s' : State) (n : Nat), thenPanel Config.hw (exec i s) = .next s' ∧ Sys2Proof.core.run n s' = .next t ∧
      ∀ m u, m < n → Sys2Proof.core.run m s' = .next u → u.seq ≠ .idle

/-! ### What the block's behaviour may depend on (R299) -/

/-- Two states agree on everything the block's own transitions may read: all but the panel, the panel's finish draws,
and the two marks `violation` and `refused`. -/
def sameBlock (s t : State) : Prop :=
  s.seq = t.seq ∧ s.req = t.req ∧ s.steps = t.steps ∧ s.k = t.k ∧ s.bg = t.bg ∧ s.life = t.life ∧ s.dc = t.dc ∧
    s.rst = t.rst ∧ s.trace = t.trace ∧ s.resp = t.resp ∧ s.construct = t.construct ∧ s.env.dc = t.env.dc ∧
    s.env.rst = t.env.rst ∧ s.env.bus = t.env.bus ∧ s.env.busy = t.env.busy ∧ s.env.offers = t.env.offers

/-- Two runs stand at the same point of the line (R213): the same line events, sequencer phase, lifecycle, background,
violation flag, output lines and remaining draws. -/
def sameLine (u t : State) : Prop :=
  lineEvents u.trace = lineEvents t.trace ∧ u.seq = t.seq ∧ u.life = t.life ∧ u.bg = t.bg ∧
    u.violation = t.violation ∧ u.dc = t.dc ∧ u.rst = t.rst ∧ u.env.dc = t.env.dc ∧ u.env.rst = t.env.rst ∧
    u.env.bus = t.env.bus ∧ u.env.busy = t.env.busy

/-! ### Step lists -/

/-- The step at `k` ends a processing command (R144): the reset pulse, the code of SW_RESET or MASTER_ACTIVATION, or
the payload of a pattern fill. -/
def processingAt (c : Cfg) (steps : List Step) (k : Nat) : Bool :=
  match steps[k]? with
  | some (.hwReset _ _) => true
  | some (.cmd b) => b == c.cmdSwReset || b == c.cmdMasterActivation
  | some (.data _) =>
    match k with
    | 0 => false
    | j + 1 =>
      match steps[j]? with
      | some (.cmd b) => b == c.cmdPatternBw || b == c.cmdPatternRed
      | _ => false
  | _ => false

/-- A `Cmd` step. -/
def Step.isCmd : Step → Bool
  | .cmd _ => true
  | .data _ => false
  | .hwReset _ _ => false
  | .wait => false
  | .delay _ => false

/-- A `Data` step. -/
def Step.isData : Step → Bool
  | .cmd _ => false
  | .data _ => true
  | .hwReset _ _ => false
  | .wait => false
  | .delay _ => false

/-- A `Wait` step. -/
def Step.isWait : Step → Bool
  | .cmd _ => false
  | .data _ => false
  | .hwReset _ _ => false
  | .wait => true
  | .delay _ => false

/-- An `HwReset` step. -/
def Step.isHwReset : Step → Bool
  | .cmd _ => false
  | .data _ => false
  | .hwReset _ _ => true
  | .wait => false
  | .delay _ => false

/-- A step that writes DC and transfers bytes: `Cmd` or `Data` (R171, R172). -/
def Step.isSend : Step → Bool
  | .cmd _ => true
  | .data _ => true
  | .hwReset _ _ => false
  | .wait => false
  | .delay _ => false

/-- The number of steps of each kind: Cmd, Data, Wait, HwReset (R223). -/
def stepCounts (steps : List Step) : Nat × Nat × Nat × Nat :=
  (steps.countP Step.isCmd, steps.countP Step.isData, steps.countP Step.isWait, steps.countP Step.isHwReset)

/-- The next block transition samples the busy line (R185, third case). -/
def State.sampling (s : State) : Bool :=
  match s.seq with
  | .idle => false
  | .wait => true
  | .exec => decide (s.steps[s.k]? = some .wait)

/-! ### Draws -/

/-- The next pin write of DC and the next bus transfer succeed. -/
def sendsOk (s : State) : Prop := s.env.drawDc.1 = .ok ∧ s.env.drawBus.1 = .ok

/-- The environment after one successful transfer step: one DC draw and one bus draw are used up. -/
def afterSend (e : Env) : Env := e.drawDc.2.drawBus.2

/-! ### Safe runs -/

/-- The panel's behaviour is defined, no contract was broken and no request refused: what a claim about the chip takes
as its premise (R24, U1, R269, R291; log 32). -/
def State.defined (s : State) : Prop := s.violation = false ∧ s.refused = false ∧ s.panel.undef = false

end Sys2Proof.Machine
end

