-- ==== Sys2Proof/Certificates/Slice0/Obligations.lean ====
section
/-! DEFINITION. The statements for the provers, one `def Obligations.<Name> : Prop` each. `Config.hw` is this hardware's
configuration; a statement for every legal configuration holds of it. Where a statement rests on a choice of the model
or on a decision of the spec (a mark [decision ...] or [derived ...]), its docstring says so. -/

open Sys2Proof Sys2Proof.Machine

/-! ### Encoding -/

/-- Decode and encode agree: for every legal configuration (R7) and every instruction, the decoder reads the encoded
form back, with every operand at every value. -/
def Obligations.EncodeThenDecodeGivesInstruction : Prop :=
  ∀ c : Cfg, c.legal = true → ∀ i : Instr, decode c (encode c i) = .ok i

/-- The other direction: a frame that decodes is the encoded form of what it decodes to, so every frame has one meaning
and no bit of it is dropped (R70 to R85); a request record decodes to the instruction of its op code, which encodes to a
record of that op with the same meaning (R87; that unused fields are ignored is the model's choice, log 12). -/
def Obligations.DecodedFormsReencode : Prop :=
  (∀ (c : Cfg) (code : Byte) (payload : Option (List Byte)) (i : Instr),
      decodeFrame c code payload = .ok i → encode c i = .frame code payload) ∧
    ∀ (c : Cfg) (r : RequestWord), ∃ r', encode c (decodeRequest r) = .request r' ∧ r'.op = r.op ∧
      decodeRequest r' = decodeRequest r

/-- The decoder and a few words: nine numbers written out from R71, R72, R75, R76 and R87 decode to the instructions
they stand for, and two decode to none. The command bytes are the spec's general-knowledge defaults (D2, log 1), the
host op codes 0x0, 0xC and 0xD are the spec's own decision D20 (log 24), the number space is the model's (log 11). -/
def Obligations.TableWordsDecode : Prop :=
  decodeTableWord 8 0x12 = some .swReset ∧ decodeTableWord 16 0x0311 = some (.dataEntryMode 3) ∧
    decodeTableWord 24 0x120044 = some (.setXRange 0 18) ∧
    decodeTableWord 40 0x0127000045 = some (.setYRange 0 295) ∧ decodeTableWord 8 0x24 = some (.writeRamBw []) ∧
    decodeTableWord 24 0x800021 = some (.updateControl1 0x00 0x80) ∧ decodeTableWord 8 0x00 = some .init ∧
    decodeTableWord 8 0x0C = some .getHeight ∧ decodeTableWord 8 0x0D = some .reservedD ∧
    decodeTableWord 8 0x99 = none ∧ decodeTableWord 24 0x122044 = none

/-! ### Addressing arithmetic -/

/-- R103: the column-group byte of an X coordinate, with the rule's corner cases and example. -/
def Obligations.XCoordinateEncodesItsColumnGroup : Prop :=
  (∀ x : U32, (xEnc x).toNat = x.toNat / 8 % 32 ∧ (xEnc x).toNat < 32) ∧
    (∀ x : U32, x.toNat ≤ 7 → xEnc x = 0x00) ∧ (∀ x : U32, 248 ≤ x.toNat → x.toNat ≤ 255 → xEnc x = 0x1F) ∧
    xEnc 256 = 0x00 ∧ xEnc 0xFFFFFFFF = 0x1F ∧ xEnc 151 = 0x12 ∧ xEnc 152 = 0x13

/-- R104: a Y coordinate is a low byte and a 1-bit high byte, low byte first, with the rule's corner cases and
example. -/
def Obligations.YCoordinateEncodesAsNineBits : Prop :=
  (∀ y : U32, yEnc y = [yLo y, yHi y] ∧ (yLo y).toNat = y.toNat % 256 ∧ (yHi y).toNat = y.toNat / 256 % 2) ∧
    yEnc 255 = [0xFF, 0x00] ∧ yEnc 256 = [0x00, 0x01] ∧ yEnc 511 = [0xFF, 0x01] ∧ yEnc 512 = [0x00, 0x00] ∧
    yEnc 0xFFFFFFFF = [0xFF, 0x01] ∧ yEnc 295 = [0x27, 0x01]

/-- The injectivity, rounding and aliasing laws (R105 to R108, which the spec marks as derived). -/
def Obligations.CoordinateEncodingLaws : Prop :=
  (∀ x1 x2 : U32, x1.toNat % 8 = 0 → x2.toNat % 8 = 0 → x1.toNat < 256 → x2.toNat < 256 → xEnc x1 = xEnc x2 → x1 = x2) ∧
    (∀ y1 y2 : U32, y1.toNat < 512 → y2.toNat < 512 → yEnc y1 = yEnc y2 → y1 = y2) ∧
    (∀ x : U32, xEnc x = xEnc (x &&& ~~~7)) ∧ (∀ x : U32, xEnc x = xEnc (BitVec.ofNat 32 (x.toNat % 256))) ∧
    (∀ y : U32, yEnc y = yEnc (BitVec.ofNat 32 (y.toNat % 512)))

/-- The full window covers exactly the panel's buffer: in every legal configuration its capacity is BUF_LEN, its last
column group is STRIDE - 1, and it is the legal partial window of the whole panel (R110, R111, R115, R117). This rests
on the spec's own decisions: inclusive ends (D9, conflict C1, log 22), u32 coordinates (D10) and legality (D31, log 24).
-/
def Obligations.FullWindowCoversThePanel : Prop :=
  ∀ c : Cfg, c.legal = true →
    capacity (fullWindow c) = bufLen c ∧ (xEnc (fullWindow c).xe).toNat + 1 = stride c ∧
      fullWindow c = partialWindow 0 0 (BitVec.ofNat 32 c.W) (BitVec.ofNat 32 c.H) ∧
      windowLegal c 0 0 (BitVec.ofNat 32 c.W) (BitVec.ofNat 32 c.H) = true

/-- A legal partial window whose X origin and extent are multiples of 8 covers `w / 8` column groups and `h` rows
(R115 to R117; capacity and legality are the spec's decisions D17, D31). -/
def Obligations.AlignedWindowCapacity : Prop :=
  ∀ (c : Cfg) (x y w h : U32), c.legal = true → windowLegal c x y w h = true → aligned8 x w = true →
    groups (partialWindow x y w h) = w.toNat / 8 ∧ rows (partialWindow x y w h) = h.toNat ∧
      capacity (partialWindow x y w h) = w.toNat / 8 * h.toNat

/-- The clear table (R119: Black 0,0; White 1,0; Chromatic 0,1), the pixel colour of a plane pair (R118) and their
consistency (R120), which the spec marks as derived, and that a pattern payload carries its phase in PAT_PHASE_BIT and
PAT_FIELDS in every other bit (R82, decision D6). -/
def Obligations.ClearTableAndPatternPayload : Prop :=
  clearPhases .black = (false, false) ∧ clearPhases .white = (true, false) ∧ clearPhases .chromatic = (false, true) ∧
    pixelColor false false = .black ∧ pixelColor true false = .white ∧ pixelColor false true = .chromatic ∧
    pixelColor true true = .chromatic ∧
    (∀ col : Color, pixelColor (clearPhases col).1 (clearPhases col).2 = col) ∧
    ∀ (c : Cfg) (phase : Bool), c.legal = true →
      patPhase c (patPayload c phase) = phase ∧
        patPayload c phase &&& ~~~((1 : Byte) <<< c.patPhaseBit.val) = c.patFields

/-- The pixel-to-buffer map (R102): every pixel of the panel has one bit of one byte of a full-frame buffer, row-major
and with bit 7 leftmost, no two pixels share a bit, and a pixel outside the panel has none. -/
def Obligations.PixelsAreBitsOfTheBuffer : Prop :=
  ∀ c : Cfg, c.legal = true →
    (∀ x y : Nat, x < c.W → y < c.H →
        byteIndex c x y = y * stride c + x / 8 ∧ byteIndex c x y < bufLen c ∧ bitPos x = 7 - x % 8 ∧
          ∀ buf : List Byte, buf.length = bufLen c →
            ∃ b, buf[byteIndex c x y]? = some b ∧ pixelBit c buf x y = some (b.getLsbD (7 - x % 8))) ∧
      (∀ x y x' y' : Nat, x < c.W → x' < c.W → byteIndex c x y = byteIndex c x' y' → bitPos x = bitPos x' →
        x = x' ∧ y = y') ∧
      ∀ (buf : List Byte) (x y : Nat), c.W ≤ x ∨ c.H ≤ y → pixelBit c buf x y = none

/-- R51: a buffer is streamed whole, each byte once, in ascending index order: `MemRead` gives the bytes at `i` to
`i+n-1` where they exist, and the stream of a buffer is the buffer. -/
def Obligations.HostBufferIsReadInOrder : Prop :=
  (∀ (buf : List Byte) (i n j : Nat), i + n ≤ buf.length → j < n →
      (memRead buf i n).length = n ∧ (memRead buf i n)[j]? = buf[i + j]?) ∧
    ∀ buf : List Byte, snapshot buf = buf

/-! ### Step lists -/

/-- The step lists in their literal order, for every configuration. INIT is the list of R204 (the order of the two counter
commands D12, the inclusive end of the full window D9 and the two-byte update control D4 are the spec's own decisions).
WAKE runs the initialization (R218), REFRESH activates and waits (R211), UPLOAD_AND_REFRESH is UPLOAD_FRAME then REFRESH
(R212), SLEEP sends one command with one byte and no wait (R217), UPLOAD_FRAME is UPLOAD_COLOR_FRAME with zeros(BUF_LEN)
as the chromatic plane (R208, R121, decision D13, log 24), CLEAR fills both planes from the clear table with a wait after
each (R216, decision D14), and an upload of a region sends window, cursor and stream (R205; plane order and per-plane
window are decision D12, the restore decision D15). -/
def Obligations.StepListsInLiteralOrder : Prop :=
  ∀ (c : Cfg) (bg : Color) (bw red : List Byte) (x y w h : U32),
    stepList c .init bg =
      [.hwReset c.resetInitialDelayUs c.resetPulseUs, .wait, .cmd c.cmdSwReset, .wait,
        .cmd c.cmdDataEntryMode, .data [c.demPayload],
        .cmd c.cmdSetXRange, .data [xEnc 0, xEnc (BitVec.ofNat 32 (c.W - 1))],
        .cmd c.cmdSetYRange, .data [yLo 0, yHi 0, yLo (BitVec.ofNat 32 (c.H - 1)), yHi (BitVec.ofNat 32 (c.H - 1))],
        .cmd c.cmdUpdateControl1, .data [c.uc1Payload0, c.uc1Payload1],
        .cmd c.cmdSetXCounter, .data [xEnc 0], .cmd c.cmdSetYCounter, .data [yLo 0, yHi 0]] ∧
      stepList c .wake bg = stepList c .init bg ∧
      stepList c .refresh bg = [.cmd c.cmdMasterActivation, .wait] ∧
      stepList c (.uploadAndRefresh bw) bg = stepList c (.uploadFrame bw) bg ++ stepList c .refresh bg ∧
      stepList c .sleep bg = [.cmd c.cmdDeepSleep, .data [c.dsPayload]] ∧
      stepList c .clear bg =
        [.cmd c.cmdPatternBw, .data [patPayload c (clearPhases bg).1], .wait,
          .cmd c.cmdPatternRed, .data [patPayload c (clearPhases bg).2], .wait] ∧
      stepList c (.uploadFrame bw) bg = stepList c (.uploadColorFrame bw (zeros (bufLen c))) bg ∧
      stepList c (.uploadColorFrame bw red) bg =
        setWindow c (fullWindow c) ++ setCursor c 0 0 ++ [Step.cmd c.cmdWriteRamBw, Step.data bw] ++
          (setWindow c (fullWindow c) ++ setCursor c 0 0 ++ [Step.cmd c.cmdWriteRamRed, Step.data red]) ∧
      stepList c (.uploadPartial bw x y w h) bg =
        setWindow c (partialWindow x y w h) ++ setCursor c x y ++ [Step.cmd c.cmdWriteRamBw, Step.data bw] ++
          setWindow c (fullWindow c)

/-- The number of steps, and of Cmd, Data, Wait and HwReset steps, of every request (R223, which the spec marks as
derived). -/
def Obligations.StepCountsPerRequest : Prop :=
  ∀ (c : Cfg) (r : Request) (bg : Color),
    ((stepList c r bg).length, stepCounts (stepList c r bg)) =
      match r with
      | .init => (16, 7, 6, 2, 1)
      | .wake => (16, 7, 6, 2, 1)
      | .uploadFrame _ => (20, 10, 10, 0, 0)
      | .uploadColorFrame _ _ => (20, 10, 10, 0, 0)
      | .uploadPartial _ _ _ _ _ => (14, 7, 7, 0, 0)
      | .refresh => (2, 1, 0, 1, 0)
      | .uploadAndRefresh _ => (22, 11, 10, 1, 0)
      | .clear => (6, 2, 2, 2, 0)
      | .sleep => (2, 1, 1, 0, 0)
      | .setBg _ => (0, 0, 0, 0, 0)
      | .getBg => (0, 0, 0, 0, 0)
      | .getWidth => (0, 0, 0, 0, 0)
      | .getHeight => (0, 0, 0, 0, 0)

/-- The busy obligation table: in every step list, exactly the processing steps are followed directly by a `Wait`
(R144, which the spec marks as derived). -/
def Obligations.ExactlyProcessingStepsAreFollowedByWait : Prop :=
  ∀ (c : Cfg) (r : Request) (bg : Color) (k : Nat), c.legal = true →
    ((stepList c r bg)[k + 1]? = some .wait ↔ processingAt c (stepList c r bg) k = true)

/-- The self-contained addressing invariant: in every step list, each RAM write is preceded directly by the window and
cursor commands of its own window (R206, which the spec marks as derived). -/
def Obligations.RamWritesAreSelfContained : Prop :=
  ∀ (c : Cfg) (r : Request) (bg : Color) (k : Nat) (b : Byte), c.legal = true →
    (stepList c r bg)[k]? = some (.cmd b) → (b = c.cmdWriteRamBw ∨ b = c.cmdWriteRamRed) →
      8 ≤ k ∧ ∃ win : Win,
        ((stepList c r bg).drop (k - 8)).take 8 = setWindow c win ++ setCursor c win.xs win.ys

/-- Every Cmd and Data step of every step list stands in a frame of the closed command set, which decodes to a
well-formed panel command (R71, R85, which the spec marks as derived). -/
def Obligations.EveryFrameOfAStepListDecodes : Prop :=
  ∀ (c : Cfg) (r : Request) (bg : Color) (k : Nat) (st : Step), c.legal = true →
    (stepList c r bg)[k]? = some st → ((∃ b, st = .cmd b) ∨ ∃ bs, st = .data bs) →
      ∃ code payload i, frameAt (stepList c r bg) k = some (code, payload) ∧
        decodeFrame c code payload = .ok i ∧ i.wf c = true ∧ i.request? = none

/-- The contract-violation test, clause by clause (R201; the lengths and the window are decisions D17 and D31). -/
def Obligations.ContractViolationConditions : Prop :=
  ∀ (c : Cfg) (life : Life) (bw red : List Byte) (x y w h : U32) (col : Color),
    (violates c (.uploadFrame bw) life = true ↔ life ≠ .ready ∨ bw.length ≠ bufLen c) ∧
      (violates c (.uploadAndRefresh bw) life = true ↔ life ≠ .ready ∨ bw.length ≠ bufLen c) ∧
      (violates c (.uploadColorFrame bw red) life = true ↔
        life ≠ .ready ∨ bw.length ≠ bufLen c ∨ red.length ≠ bufLen c) ∧
      (violates c (.uploadPartial bw x y w h) life = true ↔
        life ≠ .ready ∨
          ¬(1 ≤ w.toNat ∧ 1 ≤ h.toNat ∧ x.toNat + w.toNat ≤ c.W ∧ y.toNat + h.toNat ≤ c.H) ∨
          bw.length ≠ capacity (partialWindow x y w h)) ∧
      (violates c .refresh life = true ↔ life ≠ .ready) ∧ (violates c .clear life = true ↔ life ≠ .ready) ∧
      (violates c .sleep life = true ↔ life ≠ .ready) ∧
      violates c .init life = false ∧ violates c .wake life = false ∧ violates c (.setBg col) life = false ∧
      violates c .getBg life = false ∧ violates c .getWidth life = false ∧ violates c .getHeight life = false

/-! ### Reset and fetch -/

/-- The state after reset (R37, decisions D25, D16; the panel of R251), and the first step: the automatic construction
request INIT is accepted, whatever the host offers (R310, decision D25). -/
def Obligations.ResetStateAndConstruction : Prop :=
  (State.reset.seq = .idle ∧ State.reset.req = none ∧ State.reset.steps = [] ∧ State.reset.k = 0 ∧
      State.reset.bg = .white ∧ State.reset.life = .uninitialized ∧ State.reset.violation = false ∧
      State.reset.refused = false ∧ State.reset.dc = .undriven ∧ State.reset.rst = .undriven ∧
      State.reset.trace = [] ∧ State.reset.resp = none ∧ State.reset.panel.allUnknown ∧
      State.reset.panel.frame = .noFrame ∧ State.reset.panel.undef = false ∧ State.reset.panel.inReset = false) ∧
    ∀ offers : List RequestWord, ∃ t,
      step { State.reset with env := { State.reset.env with offers := offers } } = .next t ∧
        t.trace = [.accept .init] ∧ t.req = some .init ∧ t.steps = initSteps Config.hw ∧ t.k = 0 ∧ t.seq = .exec ∧
        t.env.offers = offers ∧ t.construct = false

/-- A block reset at any moment leaves the reset record, an unknown panel with no open frame and not in reset, and the
outside world's inputs as they are (R319, R37, R251; that it is an operation beside the step is the model's choice, log
28). That no processing is pending then is DEDUCED, not stated by R251 (log 17). -/
def Obligations.BlockResetFromAnyState : Prop :=
  ∀ s : State, s.blockReset.panel.allUnknown ∧ s.blockReset.panel.undef = false ∧ s.blockReset.env = s.env ∧
    s.blockReset.panel.frame = .noFrame ∧ s.blockReset.panel.inReset = false ∧ s.blockReset.panel.pending = none ∧
    sameBlock s.blockReset { State.reset with env := s.env } ∧ s.blockReset.violation = false ∧
    s.blockReset.refused = false

/-- A step runs the decoded instruction. (a) In EXEC, where the step index stands in a frame that decodes to `i`, the
step is `exec i` and then the panel's turn. (b) In SEQ_IDLE with construction over, the first offer is taken from the
port and the step is `exec` of what it decodes to, then the panel's turn. (c) In SEQ_IDLE before construction it is
`exec` of INIT, then the panel's turn. That the panel takes its turn after each transition is the model's choice (log 5,
for R188 and R253), as are the construction bit (log 13, for R310) and one transition of a frame for one `exec` (log
14). -/
def Obligations.StepRunsTheDecodedInstruction : Prop :=
  (∀ (s : State) (code : Byte) (payload : Option (List Byte)) (i : Instr),
      s.seq = .exec → frameAt s.steps s.k = some (code, payload) → decodeFrame Config.hw code payload = .ok i →
        step s = thenPanel Config.hw (exec i s)) ∧
    (∀ (s : State) (w : RequestWord) (rest : List RequestWord),
      s.seq = .idle → s.construct = false → s.env.offers = w :: rest →
        step s = thenPanel Config.hw (exec (decodeRequest w) { s with env := { s.env with offers := rest } })) ∧
    (∀ s : State, s.seq = .idle → s.construct = true →
      step s = thenPanel Config.hw (exec .init { s with construct := false })) ∧
    ∀ t : State, thenPanel Config.hw (.next t) = .next (panelTurn Config.hw t)

/-- The fetch, decode and run of instructions is the transition relation of R185, at any legal configuration (R6): for
every state, a step is one block transition of `turn`, which performs requests and steps directly, without decoding any
frame, and then the panel's turn; and this hardware's meanings, step, reset state and core are those at its
configuration. A configuration that breaks R7 has no block and is refused (R7, R312): no meaning, no step, no reset
state, no core. (The panel's turn after the transition and the quiescent state are the model's choices, log 5 and log
10.) -/
def Obligations.StepIsOneBlockTransition : Prop :=
  (∀ (c : Cfg) (s : State), c.legal = true → stepAt c s = .next (panelTurn c (turn c s))) ∧
    (∀ s : State, step s = .next (panelTurn Config.hw (turn Config.hw s))) ∧
    (∀ (i : Instr) (s : State), exec i s = execAt Config.hw i s) ∧ (∀ s : State, step s = stepAt Config.hw s) ∧
    State.resetAt Config.hw = some State.reset ∧ coreAt Config.hw = some Sys2Proof.core ∧
    ∀ c : Cfg, c.legal = false →
      (∀ (i : Instr) (s : State), execAt c i s = .refused .illegalConfiguration) ∧
        (∀ s : State, stepAt c s = .refused .illegalConfiguration) ∧ State.resetAt c = none ∧
        (∀ s : State, s.blockResetAt c = none) ∧ (coreAt c).isNone = true

/-- The panel's turn (R188, R253; that it comes after each transition, and inside a reset pulse with each delay, is the
model's choice, log 5): it changes nothing but the panel and its finish draws; with processing pending it finishes or
not, as the draw says, in every phase, WAIT among them; with nothing pending there is no turn. -/
def Obligations.PanelTurnFinishesOrNot : Prop :=
  ∀ (c : Cfg) (s : State),
    (s.panel.pending = none → panelTurn c s = s) ∧
      (∀ e, s.panel.pending = some e →
        (s.env.drawFinish.1 = true →
            panelTurn c s = { s with env := s.env.drawFinish.2, panel := s.panel.finish c }) ∧
          (s.env.drawFinish.1 = false → panelTurn c s = { s with env := s.env.drawFinish.2 }))

/-! ### Host requests -/

/-- Every host request completes its acceptance at an idle block, for every state and every operand: INIT,
UPLOAD_FRAME, UPLOAD_COLOR_FRAME, UPLOAD_PARTIAL, REFRESH, UPLOAD_AND_REFRESH, CLEAR, SLEEP, WAKE, SET_BG with a colour
code 0 to 2, GET_BG, GET_WIDTH, GET_HEIGHT. The request is latched, its step list built from the background register,
the step index cleared, the violation flag updated, the Accept event appended, and NOTHING ELSE changes: bg, life,
refused, dc, rst, resp, every byte of panel RAM, every panel register and the environment (first case of R185). Where the
automatic INIT is still to come, a step asks for INIT only; that a meaning asked there accepts its request at once and
leaves `construct` set is the model's choice (log 15). -/
def Obligations.HostRequestsAreAcceptedWhenIdle : Prop :=
  ∀ (i : Instr) (r : Request) (s : State), i.request? = some r → s.seq = .idle →
    exec i s = .next { s with
      req := some r
      steps := stepList Config.hw r s.bg
      k := 0
      violation := s.violation || violates Config.hw r s.life
      trace := s.trace ++ [.accept r]
      seq := .exec }

/-- Which request each host instruction is: the thirteen of R86, none shut out; SET_BG carries the colour of its code
(R23). The colour codes are the spec's own decision D21 and the refusal of code 3 its decision D20 (log 24). -/
def Obligations.HostInstructionsAreTheThirteenRequests : Prop :=
  ∀ (bw red : List Byte) (x y w h : U32),
    Instr.init.request? = some .init ∧ (Instr.uploadFrame bw).request? = some (.uploadFrame bw) ∧
      (Instr.uploadColorFrame bw red).request? = some (.uploadColorFrame bw red) ∧
      (Instr.uploadPartial bw x y w h).request? = some (.uploadPartial bw x y w h) ∧
      Instr.refresh.request? = some .refresh ∧ (Instr.uploadAndRefresh bw).request? = some (.uploadAndRefresh bw) ∧
      Instr.clear.request? = some .clear ∧ Instr.sleep.request? = some .sleep ∧ Instr.wake.request? = some .wake ∧
      (Instr.setBg 0).request? = some (.setBg .black) ∧ (Instr.setBg 1).request? = some (.setBg .white) ∧
      (Instr.setBg 2).request? = some (.setBg .chromatic) ∧ (Instr.setBg 3).request? = none ∧
      Instr.getBg.request? = some .getBg ∧ Instr.getWidth.request? = some .getWidth ∧
      Instr.getHeight.request? = some .getHeight

/-- The reserved request codes 0xD, 0xE, 0xF and SET_BG with code 3, at an idle block: the request is consumed, the
refusal mark is set, and nothing else changes (R88, R291, decision D20); before the automatic INIT too, where no step asks
it (log 15). -/
def Obligations.ReservedRequestsSetTheRefusalMark : Prop :=
  ∀ s : State, s.seq = .idle →
    exec .reservedD s = .next { s with refused := true } ∧ exec .reservedE s = .next { s with refused := true } ∧
      exec .reservedF s = .next { s with refused := true } ∧ exec (.setBg 3) s = .next { s with refused := true }

/-- A request offered while one is in progress is held (R290, decision D18): no step of a busy block takes an offer from
the port, refuses one or marks one a violation; whatever the step does, the offers stand unchanged. And the meaning of a
request taken at a busy port, which no step asks for, puts it back at the head of the offers and changes nothing else
(the model's choice, log 15). -/
def Obligations.RequestsAreHeldWhileBusy : Prop :=
  (∀ s : State, s.seq ≠ .idle → ∃ t, step s = .next t ∧
      t.env.offers = s.env.offers ∧ t.refused = s.refused ∧ t.violation = s.violation) ∧
    ∀ (i : Instr) (w : RequestWord) (s : State), encode Config.hw i = .request w → s.seq ≠ .idle →
      exec i s = .next { s with env := { s.env with offers := w :: s.env.offers } }

/-- Completion (R187). A step of an executing block whose step index is at the end of its list ends the request:
lifecycle, background for SET_BG, response, Respond event, and the sequencer is idle; then the panel has its turn (log
5). Nothing else changes. And the response is posted only then or by an abort: a step at a step of the list that does
not abort leaves it as it was, and so does a step of an idle block. -/
def Obligations.CompletionEndsTheRequest : Prop :=
  (∀ (s : State) (r : Request), s.seq = .exec → s.k = s.steps.length → s.req = some r →
    step s = .next (panelTurn Config.hw { s with
      life := lifeAfter r s.life
      bg := (match r with | .setBg col => col | _ => s.bg)
      resp := some (result Config.hw r (match r with | .setBg col => col | _ => s.bg))
      trace := s.trace ++ [.respond (result Config.hw r (match r with | .setBg col => col | _ => s.bg))]
      req := none
      steps := []
      k := 0
      seq := .idle })) ∧
    (∀ (s t : State) (st : Step), s.seq = .exec → s.steps[s.k]? = some st → step s = .next t →
      (t.resp = s.resp ∧ t.seq ≠ .idle) ∨ ∃ kind, t.resp = some (.err kind) ∧ t.seq = .idle) ∧
    (∀ s t : State, s.seq = .wait → step s = .next t →
      (t.resp = s.resp ∧ t.seq ≠ .idle) ∨ ∃ kind, t.resp = some (.err kind) ∧ t.seq = .idle) ∧
    ∀ s t : State, s.seq = .idle → step s = .next t → t.resp = s.resp

/-- The results (R220, R221, R222): GET_BG answers the background register, GET_WIDTH and GET_HEIGHT the geometry of
this hardware; and INIT and WAKE leave Ready, SLEEP leaves Asleep, every other request keeps the lifecycle (R215). -/
def Obligations.ResultsAndLifecycleAfterCompletion : Prop :=
  ∀ (life : Life) (bg : Color) (r : Request),
    result Config.hw .getBg bg = .okColor bg ∧ result Config.hw .getWidth bg = .okNat 152 ∧
      result Config.hw .getHeight bg = .okNat 296 ∧
      lifeAfter r life = (if r = .init ∨ r = .wake then .ready else if r = .sleep then .asleep else life) ∧
      (r ≠ .getBg → r ≠ .getWidth → r ≠ .getHeight → result Config.hw r bg = .ok)

/-- A fault-free request runs to its end: from acceptance at an idle block, when every pin write and transfer of its
step list succeeds and every busy sample reads idle, the block needs one transition a step and one more, appends exactly
the events of the step list in order and then the response, and is idle again with the lifecycle, background and
response of R187. Every host request, every operand, every panel state and every way the panel finishes (R185, R187,
R200; the order of the steps is that of R202 to R222, which rests on the spec's decisions D12 to D15). -/
def Obligations.FaultFreeRequestRunsToCompletion : Prop :=
  ∀ (i : Instr) (r : Request) (steps : List Step) (s s' : State) (dcs rsts : List PinDraw) (buses : List BusDraw)
    (busies : List BusyDraw),
    i.request? = some r → s.seq = .idle → steps = stepList Config.hw r s.bg → exec i s = .next s' →
    s.env.dc.script = List.replicate (steps.countP Step.isSend) PinDraw.ok ++ dcs →
    s.env.bus.script = List.replicate (steps.countP Step.isSend) BusDraw.ok ++ buses →
    s.env.busy.script = List.replicate (steps.countP Step.isWait) (BusyDraw.level Config.hw.busyIdleLevel) ++ busies →
    s.env.rst.script = List.replicate (3 * steps.countP Step.isHwReset) PinDraw.ok ++ rsts →
      ∃ t, Sys2Proof.core.run (steps.length + 1) s' = .next t ∧ t.seq = .idle ∧ t.req = none ∧
        t.life = lifeAfter r s.life ∧ t.bg = bgAfter r s.bg ∧ t.resp = some (result Config.hw r t.bg) ∧
        t.violation = (s.violation || violates Config.hw r s.life) ∧
        t.trace = s.trace ++ ([.accept r] : List Event) ++ okEvents steps ++
          ([.respond (result Config.hw r t.bg)] : List Event)

/-- The composition law R213 (which the spec marks as derived). UPLOAD_AND_REFRESH(bw) and UPLOAD_FRAME(bw) followed, if
it completed, by REFRESH, both from the same idle state with the same draws: as long as the single request runs, and
when it ends, the second run reaches a point with the same line events, phase, lifecycle, background, violation flag,
output lines and remaining draws; a hang is reached by both. A fault counts by its kind alone: its recorded step index
is that of its own request (log 31). -/
def Obligations.UploadAndRefreshIsUploadThenRefresh : Prop :=
  ∀ (bw : List Byte) (s s1 s2 t : State) (n : Nat), s.seq = .idle → exec (.uploadAndRefresh bw) s = .next s1 →
    exec (.uploadFrame bw) s = .next s2 → Sys2Proof.core.run n s1 = .next t →
    (∀ m u, m < n → Sys2Proof.core.run m s1 = .next u → u.seq ≠ .idle) →
      (∃ (m : Nat) (u : State), Sys2Proof.core.run m s2 = .next u ∧ sameLine u t) ∨
        ∃ (m m' : Nat) (u u' v : State), Sys2Proof.core.run m s2 = .next u ∧ u.seq = .idle ∧ u.resp = some .ok ∧
          exec .refresh u = .next u' ∧ Sys2Proof.core.run m' u' = .next v ∧ sameLine v t ∧
          (t.seq = .idle → v.resp = t.resp)

/-! ### Panel command frames -/

/-- The code byte of every one of the 13 panel commands (SW_RESET, DATA_ENTRY_MODE, SET_X_RANGE, SET_Y_RANGE,
SET_X_COUNTER, SET_Y_COUNTER, WRITE_RAM_BW, WRITE_RAM_RED, UPDATE_CONTROL_1, MASTER_ACTIVATION, DEEP_SLEEP, PATTERN_BW,
PATTERN_RED; R171, R185; that one `exec` is one block transition of the frame is the model's choice, log 14): where the
step index does not stand at a Data step (or the command has no payload), and the primitives succeed, `exec` sends the
code with DC low, for every state and operand. Only dc, the trace, the panel (which reacts to that one event), the step
index and the two draws used change. -/
def Obligations.PanelCommandSendsItsCode : Prop :=
  ∀ (i : Instr) (code : Byte) (payload : Option (List Byte)) (s : State),
    encode Config.hw i = .frame code payload → (s.payloadDue = false ∨ payload = none) → sendsOk s →
      exec i s = .next { s with
        env := afterSend s.env
        dc := .low
        trace := s.trace ++ [.cmd code]
        panel := s.panel.react Config.hw (.cmd code)
        k := s.k + 1 }

/-- The payload of every panel command that has one, all but SW_RESET and MASTER_ACTIVATION (R172, R185; log 14): where
the step index stands at a Data step and the primitives succeed, `exec` sends the payload with DC high, as one event.
Only dc, the trace, the panel, the step index and the two draws used change. -/
def Obligations.PanelCommandSendsItsPayload : Prop :=
  ∀ (i : Instr) (code : Byte) (bs : List Byte) (s : State),
    encode Config.hw i = .frame code (some bs) → s.payloadDue = true → sendsOk s →
      exec i s = .next { s with
        env := afterSend s.env
        dc := .high
        trace := s.trace ++ [.data bs]
        panel := s.panel.react Config.hw (.data bs)
        k := s.k + 1 }

/-- The faults of a panel command (R130(b), R171, R172): a failed DC write aborts with DcOutput and sends nothing; a
failed transfer aborts with Bus after the event of the delivered prefix, if any (R180 is decision D29; what an abort
does is R284). -/
def Obligations.PanelCommandFaultsAbort : Prop :=
  ∀ (i : Instr) (code : Byte) (payload : Option (List Byte)) (s : State),
    encode Config.hw i = .frame code payload →
      (s.env.drawDc.1 = .fail → exec i s = .next (abort Config.hw .dcOutput { s with env := s.env.drawDc.2 })) ∧
        (∀ n, s.env.drawDc.1 = .ok → s.env.drawBus.1 = .fault n → (s.payloadDue = false ∨ payload = none) →
          exec i s = .next (abort Config.hw .bus
            (if n = 0 then { s with env := afterSend s.env, dc := .low }
             else State.emit Config.hw (.cmd code) { s with env := afterSend s.env, dc := .low }))) ∧
        ∀ n bs, s.env.drawDc.1 = .ok → s.env.drawBus.1 = .fault n → s.payloadDue = true → payload = some bs →
          exec i s = .next (abort Config.hw .bus
            (if bs.take n = [] then { s with env := afterSend s.env, dc := .high }
             else State.emit Config.hw (.data (bs.take n)) { s with env := afterSend s.env, dc := .high }))

/-- The code byte at a panel that takes bytes and awaits no payload: SW_RESET and MASTER_ACTIVATION raise busy with
their effect pending (R253, R256, R263), a write command opens a stream on its plane, every other command awaits its
fixed payload (R252, decision D23). Every other panel field, every RAM byte among them, is unchanged. A statement of the
reference model: it holds with `violation` set too, the model's choice (log 32); a claim about the chip takes
violation = false (R24, U1). -/
def Obligations.CodeByteAtThePanel : Prop :=
  ∀ s : State, s.payloadDue = false → sendsOk s → s.panel.takesBytes = true →
    (∀ m n got, s.panel.frame ≠ .expect m n got) →
      (∃ t, exec .swReset s = .next t ∧
          t.panel = { s.panel with frame := .noFrame, busy := .known true, pending := some .swResetDone }) ∧
        (∃ t, exec .masterActivation s = .next t ∧
          t.panel = { s.panel with frame := .noFrame, busy := .known true, pending := some .display }) ∧
        (∀ bs, ∃ t, exec (.writeRamBw bs) s = .next t ∧ t.panel = { s.panel with frame := .stream .bw }) ∧
        (∀ bs, ∃ t, exec (.writeRamRed bs) s = .next t ∧ t.panel = { s.panel with frame := .stream .red }) ∧
        (∀ xs xe, ∃ t, exec (.setXRange xs xe) s = .next t ∧
          t.panel = { s.panel with frame := .expect .setXRange 2 [] }) ∧
        (∀ ys ye, ∃ t, exec (.setYRange ys ye) s = .next t ∧
          t.panel = { s.panel with frame := .expect .setYRange 4 [] }) ∧
        (∀ x, ∃ t, exec (.setXCounter x) s = .next t ∧ t.panel = { s.panel with frame := .expect .setXCounter 1 [] }) ∧
        (∀ y, ∃ t, exec (.setYCounter y) s = .next t ∧ t.panel = { s.panel with frame := .expect .setYCounter 2 [] }) ∧
        (∀ p0, ∃ t, exec (.dataEntryMode p0) s = .next t ∧
          t.panel = { s.panel with frame := .expect .dataEntryMode 1 [] }) ∧
        (∀ p0 p1, ∃ t, exec (.updateControl1 p0 p1) s = .next t ∧
          t.panel = { s.panel with frame := .expect .updateControl1 2 [] }) ∧
        (∀ p0, ∃ t, exec (.deepSleep p0) s = .next t ∧ t.panel = { s.panel with frame := .expect .deepSleep 1 [] }) ∧
        (∀ p0, ∃ t, exec (.patternBw p0) s = .next t ∧ t.panel = { s.panel with frame := .expect .patternBw 1 [] }) ∧
        ∀ p0, ∃ t, exec (.patternRed p0) s = .next t ∧ t.panel = { s.panel with frame := .expect .patternRed 1 [] }

/-- The completed payload of the register commands (R257, R258, R259, R262 of the reference model, decision D23): the
named registers take the operands; every other panel field, every RAM byte among them, is unchanged. A statement of the
reference model: it holds with `violation` set too, the model's choice (log 32); a claim about the chip takes
violation = false (R24, U1). -/
def Obligations.RegisterCommandsWriteTheirRegisters : Prop :=
  ∀ s : State, s.payloadDue = true → sendsOk s → s.panel.takesBytes = true →
    (s.panel.frame = .expect .dataEntryMode 1 [] → ∀ p0, ∃ t, exec (.dataEntryMode p0) s = .next t ∧
        t.panel = { s.panel with dem := .known p0, frame := .noFrame }) ∧
      (s.panel.frame = .expect .setXRange 2 [] → ∀ xs xe, ∃ t, exec (.setXRange xs xe) s = .next t ∧
        t.panel = { s.panel with wxs := .known xs, wxe := .known xe, frame := .noFrame }) ∧
      (s.panel.frame = .expect .setYRange 4 [] → ∀ ys ye, ∃ t, exec (.setYRange ys ye) s = .next t ∧
        t.panel = { s.panel with wys := .known ys, wye := .known ye, frame := .noFrame }) ∧
      (s.panel.frame = .expect .setXCounter 1 [] → ∀ x, ∃ t, exec (.setXCounter x) s = .next t ∧
        t.panel = { s.panel with xc := .known x, frame := .noFrame }) ∧
      (s.panel.frame = .expect .setYCounter 2 [] → ∀ y, ∃ t, exec (.setYCounter y) s = .next t ∧
        t.panel = { s.panel with yc := .known y, frame := .noFrame }) ∧
      (s.panel.frame = .expect .updateControl1 2 [] → ∀ p0 p1, ∃ t, exec (.updateControl1 p0 p1) s = .next t ∧
        t.panel = { s.panel with uc1 := .known (p0, p1), frame := .noFrame })

/-- The completed payload of the other commands (R265, R266, R260 of the reference model, decision D23): DEEP_SLEEP
with its fixed payload forgets registers and RAM, keeps the image and enters deep sleep, and any other payload makes the
panel undefined; a pattern command raises busy with the fill of its plane pending, for any payload byte (that a byte
whose other bits are not PAT_FIELDS fills alike is the model's choice, log 34); a stream is written byte by byte. Every
panel field not named is unchanged. A statement of the reference model: it holds with `violation` set too, the
model's choice (log 32); a claim about the chip takes violation = false (R24, U1). -/
def Obligations.SleepPatternAndStreamPayloads : Prop :=
  ∀ s : State, s.payloadDue = true → sendsOk s → s.panel.takesBytes = true →
    (s.panel.frame = .expect .deepSleep 1 [] → ∃ t, exec (.deepSleep Config.hw.dsPayload) s = .next t ∧
        t.panel = { s.panel with
          power := .known .deepSleep, frame := .noFrame, dem := .unknown, uc1 := .unknown, wxs := .unknown,
          wxe := .unknown, wys := .unknown, wye := .unknown, xc := .unknown, yc := .unknown, ramBw := [], ramRed := [] }) ∧
      (s.panel.frame = .expect .deepSleep 1 [] → ∀ p0, p0 ≠ Config.hw.dsPayload →
        ∃ t, exec (.deepSleep p0) s = .next t ∧ t.panel.undef = true ∧ t.panel.allUnknown) ∧
      (s.panel.frame = .expect .patternBw 1 [] → ∀ p0, ∃ t, exec (.patternBw p0) s = .next t ∧
        t.panel = { s.panel with
          frame := .noFrame, busy := .known true, pending := some (.fill .bw (patPhase Config.hw p0)) }) ∧
      (s.panel.frame = .expect .patternRed 1 [] → ∀ p0, ∃ t, exec (.patternRed p0) s = .next t ∧
        t.panel = { s.panel with
          frame := .noFrame, busy := .known true, pending := some (.fill .red (patPhase Config.hw p0)) }) ∧
      (s.panel.frame = .stream .bw → ∀ bs, ∃ t, exec (.writeRamBw bs) s = .next t ∧
        t.panel = s.panel.writeStream Config.hw .bw bs) ∧
      (s.panel.frame = .stream .red → ∀ bs, ∃ t, exec (.writeRamRed bs) s = .next t ∧
        t.panel = s.panel.writeStream Config.hw .red bs)

/-! ### RAM -/

/-- A stream that fits its window is stored in row-major order from the window's origin, and nothing else changes: byte
`i` is at column group `xs + i mod g` of row `ys + i / g`, known where that cell is on the panel and unknown beyond it
(R52, U16), every other cell of the plane reads as before, the counters stand at the next cell, and every field but the
plane and the counters is unchanged (R260 of the reference model, decision D23). The unknown row counter past row 511
(log 9) and the known padding bits where W is not a multiple of 8 (log 33) are the model's choice. -/
def Obligations.StreamFillsTheWindowRowMajor : Prop :=
  ∀ (c : Cfg) (p : Panel) (pl : Plane) (xs xe : BitVec 5) (ys ye : BitVec 9) (bs : List Byte),
    p.dem = .known c.demPayload → p.wxs = .known xs → p.wxe = .known xe → p.wys = .known ys → p.wye = .known ye →
    p.xc = .known xs → p.yc = .known ys → xs ≤ xe → ys ≤ ye →
    bs.length ≤ (xe.toNat - xs.toNat + 1) * (ye.toNat - ys.toNat + 1) →
      (∀ (i : Nat) (b : Byte), bs[i]? = some b →
          ((p.writeStream c pl bs).ram pl).read
            (xs + BitVec.ofNat 5 (i % (xe.toNat - xs.toNat + 1)))
            (ys + BitVec.ofNat 9 (i / (xe.toNat - xs.toNat + 1))) =
              if xs.toNat + i % (xe.toNat - xs.toNat + 1) < stride c ∧
                  ys.toNat + i / (xe.toNat - xs.toNat + 1) < c.H then .known b else .unknown) ∧
        (∀ (x : BitVec 5) (y : BitVec 9),
          (∀ i, i < bs.length → ¬(x = xs + BitVec.ofNat 5 (i % (xe.toNat - xs.toNat + 1)) ∧
            y = ys + BitVec.ofNat 9 (i / (xe.toNat - xs.toNat + 1)))) →
          ((p.writeStream c pl bs).ram pl).read x y = (p.ram pl).read x y) ∧
        p.writeStream c pl bs =
          { p.setRam pl ((p.writeStream c pl bs).ram pl) with
            xc := .known (xs + BitVec.ofNat 5 (bs.length % (xe.toNat - xs.toNat + 1)))
            yc := (if ys.toNat + bs.length / (xe.toNat - xs.toNat + 1) ≤ 511 then
              .known (ys + BitVec.ofNat 9 (bs.length / (xe.toNat - xs.toNat + 1))) else .unknown) }

/-- Where a RAM write has no meaning, the whole plane becomes unknown and NOTHING ELSE changes, for one byte and for any
stream with a byte: a data-entry mode that is unknown or not DEM_PAYLOAD (R257), an unknown window end or counter (R260),
counters outside the window (R261). And a stream that starts at the window's origin and is longer than the window leaves
the plane unknown, whatever its length (R261; that the row counter does not wrap past row 511 is the model's choice, log
9). Of the reference model, decision D23. -/
def Obligations.StreamOutsideTheWindowForgetsThePlane : Prop :=
  (∀ (c : Cfg) (p : Panel) (pl : Plane) (b : Byte) (bs : List Byte),
    (p.dem ≠ .known c.demPayload ∨ p.wxs = .unknown ∨ p.wxe = .unknown ∨ p.wys = .unknown ∨ p.wye = .unknown ∨
        p.xc = .unknown ∨ p.yc = .unknown ∨
        (∃ xs xe x, p.wxs = .known xs ∧ p.wxe = .known xe ∧ p.xc = .known x ∧
          (x.toNat < xs.toNat ∨ xe.toNat < x.toNat)) ∨
        ∃ ys ye y, p.wys = .known ys ∧ p.wye = .known ye ∧ p.yc = .known y ∧
          (y.toNat < ys.toNat ∨ ye.toNat < y.toNat)) →
      p.writeByte c pl b = p.setRam pl [] ∧ p.writeStream c pl (b :: bs) = p.setRam pl []) ∧
    ∀ (c : Cfg) (p : Panel) (pl : Plane) (xs xe : BitVec 5) (ys ye : BitVec 9) (bs : List Byte),
      p.dem = .known c.demPayload → p.wxs = .known xs → p.wxe = .known xe → p.wys = .known ys → p.wye = .known ye →
      p.xc = .known xs → p.yc = .known ys → xs ≤ xe → ys ≤ ye →
      (xe.toNat - xs.toNat + 1) * (ye.toNat - ys.toNat + 1) < bs.length →
        (p.writeStream c pl bs).ram pl = []

/-- A RAM cell reads back what was last written to it, a byte or unknown, every other cell is unchanged, and the memory
keeps its canonical form. -/
def Obligations.RamReadsBackWhatWasWritten : Prop :=
  ∀ (m : Memory) (x x' : BitVec 5) (y y' : BitVec 9) (v : Val Byte),
    (m.write x y v).read x y = v ∧
      ((x' ≠ x ∨ y' ≠ y) → (m.write x y v).read x' y' = m.read x' y') ∧
      (m.wf = true → (m.write x y v).wf = true)

/-! ### The busy handshake -/

/-- One sample of a `Wait` (R175; a failed sample aborts as R284 says). An idle sample completes the step, a busy sample
waits; the event is delivered to the panel (R188), and then the panel has its turn (the model's choice, log 5). No byte
is sent and no output line changes (R60, R179). What the sample does to a defined panel: a busy sample of a busy panel
changes nothing (R253), an idle sample of one finishes it (R253 with log 5), an idle sample of a panel that is not busy
changes nothing (R253), a busy sample of a panel known not to be busy leaves it undefined (DEDUCED, log 6), and where
busy is unknown either level may be read and changes nothing (R253); all this with `violation` set too (log 32). -/
def Obligations.WaitTakesOneSamplePerStep : Prop :=
  (∀ (c : Cfg) (p : Panel), p.undef = false →
    (p.busy = .known true →
        p.react c (.busySample .busy) = p ∧ p.react c (.busySample .idle) = p.finish c) ∧
      (p.busy = .known false →
        p.react c (.busySample .idle) = p ∧
          (p.react c (.busySample .busy)).undef = true ∧ (p.react c (.busySample .busy)).allUnknown) ∧
      (p.busy = .unknown →
        p.react c (.busySample .busy) = p ∧ p.react c (.busySample .idle) = p)) ∧
  ∀ s : State, (s.seq = .wait ∨ (s.seq = .exec ∧ s.steps[s.k]? = some .wait)) →
    (∀ l, s.env.drawBusy.1 = .level l → l = Config.hw.busyIdleLevel →
        step s = .next (panelTurn Config.hw { s with
          env := s.env.drawBusy.2
          trace := s.trace ++ [.busySample .idle]
          panel := s.panel.react Config.hw (.busySample .idle)
          k := s.k + 1
          seq := .exec })) ∧
      (∀ l, s.env.drawBusy.1 = .level l → l ≠ Config.hw.busyIdleLevel →
        step s = .next (panelTurn Config.hw { s with
          env := s.env.drawBusy.2
          trace := s.trace ++ [.busySample .busy]
          panel := s.panel.react Config.hw (.busySample .busy)
          seq := .wait })) ∧
      (s.env.drawBusy.1 = .fault →
        step s = .next (panelTurn Config.hw (abort Config.hw .busyInput { s with env := s.env.drawBusy.2 }))) ∧
      ∀ t, step s = .next t → commandStream t.trace = commandStream s.trace ∧ t.dc = s.dc ∧ t.rst = s.rst

/-- No timeout: as long as the busy line is sampled busy, the block waits at the same step, for any number of samples,
and posts no response (R183, R298). -/
def Obligations.StuckBusyLineHangs : Prop :=
  ∀ (n : Nat) (l : Level) (rest : List BusyDraw) (s : State), s.seq = .wait → l ≠ Config.hw.busyIdleLevel →
    s.env.busy.script = List.replicate n (BusyDraw.level l) ++ rest →
      ∃ t : State, Sys2Proof.core.run n s = .next t ∧ t.seq = .wait ∧ t.k = s.k ∧ t.steps = s.steps ∧ t.resp = s.resp ∧
        t.trace = s.trace ++ List.replicate n (Event.busySample .busy)

/-! ### The reset pulse and the abort -/

/-- The reset pulse: with three successful pin writes, the five events of R173 in order, the line deasserted, the step
index advanced, and a defined panel awake with its reset processing pending whatever was pending before (R255); a failed
write keeps the events of the earlier writes and aborts with RstOutput. A defined panel has then followed the writes that
succeeded: none of them changes nothing; a first deassert ends the pulse of a panel that was in reset and otherwise only
ends an open stream; and a failed third write leaves the chip in reset, whatever it was doing (R255). Between the first
and the second write, and between the second and the third, the panel has its turn and may finish what is pending (R188,
R253), with the finish draws of `s` (`between1`, `between2`; that its turn comes with the delay is the model's choice,
log 5). A reset event ends a stream (R252) and keeps an awaited payload (`endStream`, the model's reading, log 8).
Nothing follows the final deassert (decision D7). In every case the panel's turn comes again after the step (log 5). What
is said of the panel holds with `violation` set too (log 32). -/
def Obligations.ResetPulseEventsAndFaults : Prop :=
  ∀ (s between1 between2 : State) (d1 d2 : Nat) (rest : List PinDraw),
    s.seq = .exec → s.steps[s.k]? = some (.hwReset d1 d2) →
    between1 = panelTurn Config.hw
      { s with panel := if s.panel.inReset then s.panel.endStream.woken else s.panel.endStream } →
    between2 = panelTurn Config.hw between1 →
    (s.env.rst.script = PinDraw.ok :: .ok :: .ok :: rest →
      ∃ t u, step s = .next t ∧ t = panelTurn Config.hw u ∧
        u.env = { s.env with rst := { s.env.rst with script := rest }, finish := u.env.finish } ∧
        (s.panel.undef = false → u.panel = between2.panel.woken ∧ u.env.finish = between2.env.finish) ∧
        t.rst = .deasserted ∧ t.k = s.k + 1 ∧ t.seq = .exec ∧ t.dc = s.dc ∧
        t.trace = s.trace ++ ([.rst .deasserted, .delay d1, .rst .asserted, .delay d2, .rst .deasserted] : List Event)) ∧
      (s.env.rst.script = PinDraw.ok :: .ok :: .fail :: rest →
        ∃ t u, step s = .next t ∧ t = panelTurn Config.hw u ∧
          u.env = { s.env with rst := { s.env.rst with script := rest }, finish := u.env.finish } ∧
          (s.panel.undef = false →
            u.panel = { between2.panel with inReset := true } ∧ u.env.finish = between2.env.finish) ∧
          t.rst = .asserted ∧ t.seq = .idle ∧ t.life = .uninitialized ∧
          t.trace = s.trace ++ ([.rst .deasserted, .delay d1, .rst .asserted, .delay d2,
            .fault .rstOutput s.k, .respond (.err .rstOutput)] : List Event)) ∧
      (s.env.rst.script = PinDraw.ok :: .fail :: rest →
        ∃ t u, step s = .next t ∧ t = panelTurn Config.hw u ∧
          u.env = { s.env with rst := { s.env.rst with script := rest }, finish := u.env.finish } ∧
          (s.panel.undef = false → u.panel = between1.panel ∧ u.env.finish = between1.env.finish) ∧
          t.rst = .deasserted ∧ t.seq = .idle ∧ t.life = .uninitialized ∧
          t.trace = s.trace ++ ([.rst .deasserted, .delay d1, .fault .rstOutput s.k, .respond (.err .rstOutput)] : List Event)) ∧
      (s.env.rst.script = PinDraw.fail :: rest →
        ∃ t u, step s = .next t ∧ t = panelTurn Config.hw u ∧
          u.env = { s.env with rst := { s.env.rst with script := rest } } ∧ u.panel = s.panel ∧
          t.rst = s.rst ∧ t.seq = .idle ∧ t.life = .uninitialized ∧
          t.trace = s.trace ++ ([.fault .rstOutput s.k, .respond (.err .rstOutput)] : List Event))

/-- Taking the exception: what an abort writes and what it keeps (R284; life Uninitialized is decision D19). -/
def Obligations.AbortWritesAndKeeps : Prop :=
  ∀ (c : Cfg) (kind : FaultKind) (s : State),
    abort c kind s = { s with
      trace := s.trace ++ [.fault kind s.k, .respond (.err kind)]
      resp := some (.err kind)
      life := .uninitialized
      req := none
      steps := []
      k := 0
      seq := .idle }

/-! ### Whole-machine rules -/

/-- Every step of every state gives a next state, and so does the meaning of every instruction: the machine never faults
and never refuses. R299 says that every block transition is defined; that there is a next state also for an idle block
with nothing offered (log 10), for a request asked of a busy block (log 15), for states no run reaches (log 16, log 19),
and that transport faults are next states (log 21) are the model's choices. -/
def Obligations.EveryStepAndMeaningGivesANextState : Prop :=
  (∀ s : State, ∃ t, step s = .next t) ∧ ∀ (i : Instr) (s : State), ∃ t, exec i s = .next t

/-- The block's own next state depends on neither the violation flag nor the panel: two states that agree on everything
but the panel, the panel's finish draws and the marks violation and refused step to states that agree again. R299 names
the two flags. That the whole panel has no say rests on choices of the model: the busy draws do not come from the panel
(log 3, log 5), and there is a next state for an idle block with nothing offered (log 10) and for states no run reaches
(log 16, log 19). -/
def Obligations.BlockIgnoresPanelAndFlags : Prop :=
  ∀ s s' : State, sameBlock s s' →
    ∃ t t', step s = .next t ∧ step s' = .next t' ∧ sameBlock t t'

/-- Reset meets the invariant (R37, R251), and what holds between requests (`State.prepared`: the block is not Ready
yet). That no processing is pending at reset is DEDUCED, not stated by R251 (log 17). -/
def Obligations.ResetMeetsTheInvariant : Prop := State.reset.Inv ∧ State.reset.prepared

/-- Every step keeps the invariant: the step index within the step list, an idle sequencer empty, a waiting one at a
Wait, a running request's steps exactly the step list of its acceptance, the RAM planes and the image in canonical form,
panel processing pending exactly while busy, an undefined panel unknown throughout (R26, R27, R250, R253, R269). On this
hardware and at any legal configuration; an illegal one has no step (R7). -/
def Obligations.StepKeepsTheInvariant : Prop :=
  (∀ s t : State, s.Inv → step s = .next t → t.Inv) ∧
    ∀ (c : Cfg) (s t : State), c.legal = true → s.InvAt c → stepAt c s = .next t → t.InvAt c

/-- The trace is append-only (R32, which the spec marks as derived), and the marks are sticky: no step clears violation,
refused or the panel's undef flag (R24, R291, R269; decisions D18, D20, D23). -/
def Obligations.TraceAndMarksOnlyGrow : Prop :=
  (∀ s t : State, step s = .next t → ∃ evs, t.trace = s.trace ++ evs) ∧
    ∀ s t : State, step s = .next t →
      (s.violation = true → t.violation = true) ∧ (s.refused = true → t.refused = true) ∧
        (s.panel.undef = true → t.panel.undef = true)

/-- The background register is written only by the completion of SET_BG (R23). -/
def Obligations.OnlySetBgWritesTheBackground : Prop :=
  ∀ s t : State, step s = .next t → t.bg ≠ s.bg →
    s.seq = .exec ∧ s.steps[s.k]? = none ∧ s.req = some (.setBg t.bg) ∧ t.seq = .idle

/-- The lifecycle register is written only when a request ends: at a completion as R215 says, at an abort to
Uninitialized with the Err response (R25; the abort's value is decision D19). -/
def Obligations.LifecycleChangesOnlyWhenARequestEnds : Prop :=
  ∀ s t : State, step s = .next t → t.life ≠ s.life →
    t.seq = .idle ∧
      ((∃ r, s.req = some r ∧ s.steps[s.k]? = none ∧ t.life = lifeAfter r s.life) ∨
        (∃ kind, t.life = .uninitialized ∧ t.resp = some (.err kind) ∧
          t.trace.getLast? = some (.respond (.err kind))))

/-- While a request runs, the step index stays, advances by exactly 1, or the request ends; the step list and the
request do not change while it runs (R27, which the spec marks as derived). -/
def Obligations.StepIndexAdvancesByOne : Prop :=
  ∀ s t : State, s.seq ≠ .idle → step s = .next t →
    (t.seq ≠ .idle ∧ (t.k = s.k ∨ t.k = s.k + 1) ∧ t.steps = s.steps ∧ t.req = s.req) ∨
      (t.seq = .idle ∧ t.k = 0 ∧ t.steps = [] ∧ t.req = none)

/-- The output lines are written only by the steps that drive them: dc by Cmd (Low) and Data (High), rst by HwReset
(R29, R30, R173). -/
def Obligations.LinesAreWrittenOnlyByTheirSteps : Prop :=
  ∀ s t : State, step s = .next t →
    (t.dc ≠ s.dc → s.seq = .exec ∧
        ((∃ b, s.steps[s.k]? = some (.cmd b) ∧ t.dc = .low) ∨ ∃ bs, s.steps[s.k]? = some (.data bs) ∧ t.dc = .high)) ∧
      (t.rst ≠ s.rst → s.seq = .exec ∧ ∃ d1 d2, s.steps[s.k]? = some (.hwReset d1 d2))

/-- A request with no Wait step ends: from any executing state whose step list has no Wait, within one transition a
remaining step and one more, whatever the draws, the sequencer is idle and the last event is the response (R298, which
the spec marks as derived). -/
def Obligations.RequestWithoutWaitEnds : Prop :=
  ∀ (s : State) (r : Request), s.seq = .exec → s.req = some r → s.k ≤ s.steps.length → .wait ∉ s.steps →
    ∃ n, n ≤ s.steps.length - s.k + 1 ∧ ∃ (t : State) (resp : Response),
      Sys2Proof.core.run n s = .next t ∧ t.seq = .idle ∧ t.trace.getLast? = some (.respond resp)

/-! ### The panel over whole operations (reference model, decision D23; log 4)

`okEvents` is the event list of a step list whose primitives all succeed and whose waits see one idle sample each
(log 25). They are statements of the reference model, which reads no `violation` flag (log 32). -/

/-- Undefined panel behaviour: a Cmd or Data event at a panel that is busy, in reset, asleep or undefined, a byte that
is no command code, a code while a payload is awaited, data with no open frame, and a payload longer than the fixed
length leave the panel undefined with every unknown-able field unknown; a payload still too short is kept and the rest
awaited (R252, R254, R255, R267, R268, R269). -/
def Obligations.ForbiddenBytesLeaveThePanelUndefined : Prop :=
  ∀ (c : Cfg) (p : Panel) (b : Byte) (bs : List Byte), p.Inv →
    ((p.busy = .known true ∨ p.inReset = true ∨ p.power = .known .deepSleep ∨ p.undef = true) →
        (p.react c (.cmd b)).undef = true ∧ (p.react c (.cmd b)).allUnknown ∧
          (p.react c (.data bs)).undef = true ∧ (p.react c (.data bs)).allUnknown) ∧
      ((c.command? b = none ∨ ∃ m n got, p.frame = .expect m n got) →
        (p.react c (.cmd b)).undef = true ∧ (p.react c (.cmd b)).allUnknown) ∧
      (p.frame = .noFrame → (p.react c (.data bs)).undef = true ∧ (p.react c (.data bs)).allUnknown) ∧
      (∀ m n got, p.frame = .expect m n got → n < bs.length →
        (p.react c (.data bs)).undef = true ∧ (p.react c (.data bs)).allUnknown) ∧
      ∀ m n got, p.frame = .expect m n got → bs.length < n → p.takesBytes = true →
        p.react c (.data bs) = { p with frame := .expect m (n - bs.length) (got ++ bs) }

/-- What processing leaves when the panel finishes it: at its own turn, or, still busy, at an idle sample (that such a
sample is the finish is the model's choice, log 5). A hardware or software reset forgets every chip register and every
RAM byte and nothing else (R255, R256). A fill writes its plane at every cell of the panel if PAT_FIELDS covers it (D6),
forgets every other byte of that plane, all of it where it does not, and forgets window and counters and nothing else
(R266; at a width that is no multiple of 8 the padding bits are known with their bytes, the model's choice, log 33; so
is the same fill for a payload whose other bits are not PAT_FIELDS, log 34). An activation shows the RAM: every pixel
whose two RAM bytes are known shows the PixelColor of its bits (with the configured update control), every other pixel
is unknown, and nothing else changes (R263). Of the reference model, decision D23. -/
def Obligations.FinishedProcessingTakesEffect : Prop :=
  (∀ (c : Cfg) (p : Panel), p.undef = false → p.busy = .known true → p.react c (.busySample .idle) = p.finish c) ∧
    (∀ (c : Cfg) (p : Panel), (p.pending = some .resetDone ∨ p.pending = some .swResetDone) →
      p.finish c = { p with
        dem := .unknown, uc1 := .unknown, wxs := .unknown, wxe := .unknown, wys := .unknown, wye := .unknown,
        xc := .unknown, yc := .unknown, ramBw := [], ramRed := [], busy := .known false, pending := none }) ∧
    (∀ (c : Cfg) (p : Panel) (pl : Plane) (phase : Bool), c.legal = true → p.pending = some (.fill pl phase) →
      p.finish c = { p.setRam pl ((p.finish c).ram pl) with
          wxs := .unknown, wxe := .unknown, wys := .unknown, wye := .unknown, xc := .unknown, yc := .unknown,
          busy := .known false, pending := none } ∧
        ∀ (g : BitVec 5) (y : BitVec 9), ((p.finish c).ram pl).read g y =
          (if c.patFieldsCover = true ∧ g.toNat < stride c ∧ y.toNat < c.H then
            .known (if phase then 0xFF else 0x00) else .unknown)) ∧
    ∀ (c : Cfg) (p : Panel), p.pending = some .display →
      p.finish c = { p with shown := (p.finish c).shown, busy := .known false, pending := none } ∧
        ∀ x y : Nat, x < c.W → y < c.H →
          Sparse.read (p.finish c).shown (y * c.W + x) =
            (match Sparse.read p.ramBw (y * 32 + x / 8), Sparse.read p.ramRed (y * 32 + x / 8) with
            | .known a, .known r =>
              if p.uc1 = .known (c.uc1Payload0, c.uc1Payload1) then
                .known (pixelColor (a.getLsbD (7 - x % 8)) (r.getLsbD (7 - x % 8)))
              else .unknown
            | _, _ => .unknown)

/-- After the events of a fault-free INIT whose waits see idle, a defined panel that awaits no payload takes bytes, is
initialized (R270(a), which the spec marks as derived: awake, configured data-entry mode and update control, full window,
counters at the origin), and its image is as before. -/
def Obligations.InitLeavesThePanelConfigured : Prop :=
  ∀ (c : Cfg) (p : Panel) (bg : Color), c.legal = true → p.undef = false →
    (∀ m n got, p.frame ≠ .expect m n got) →
      (p.reactAll c (okEvents (stepList c .init bg))).takesBytes = true ∧
        (p.reactAll c (okEvents (stepList c .init bg))).initialized c ∧
        (p.reactAll c (okEvents (stepList c .init bg))).shown = p.shown

/-- The full-frame round trip: after the events of a fault-free UPLOAD_COLOR_FRAME with buffers of the right length, at
a configured panel that takes bytes, both planes hold exactly the buffers, byte by byte and pixel by pixel, and the
window is full (R270(b), R264, which the spec marks as derived; at another W than a multiple of 8 the padding bits are
held with their bytes, the model's choice, log 33). -/
def Obligations.ColorFrameUploadRoundTrips : Prop :=
  ∀ (c : Cfg) (p : Panel) (bg : Color) (bw red : List Byte), c.legal = true → p.takesBytes = true →
    p.dem = .known c.demPayload → (∀ m n got, p.frame ≠ .expect m n got) →
    bw.length = bufLen c → red.length = bufLen c →
      (p.reactAll c (okEvents (stepList c (.uploadColorFrame bw red) bg))).holdsFrame c bw red

/-- The partial-window round trip: after the events of a fault-free UPLOAD_PARTIAL with an aligned, legal window and a
buffer of its capacity, the window's cells of the achromatic plane hold the buffer row by row, every other cell of it
and the whole chromatic plane read as before, and the window is full again (R270(c), which the spec marks as derived).
-/
def Obligations.PartialUploadRoundTrips : Prop :=
  ∀ (c : Cfg) (p : Panel) (bg : Color) (bw : List Byte) (x y w h : U32), c.legal = true → p.takesBytes = true →
    p.dem = .known c.demPayload → (∀ m n got, p.frame ≠ .expect m n got) →
    windowLegal c x y w h = true → aligned8 x w = true → bw.length = capacity (partialWindow x y w h) →
      (p.reactAll c (okEvents (stepList c (.uploadPartial bw x y w h) bg))).holdsRegion c bw x y w h p

/-- CLEAR and then REFRESH show the background colour at every pixel, under the assumption of D6 that PAT_FIELDS covers
the panel, at a panel that takes bytes with the configured update control (R270(d), which the spec marks as derived). -/
def Obligations.ClearThenRefreshShowsTheBackground : Prop :=
  ∀ (c : Cfg) (p : Panel) (col : Color), c.legal = true → c.patFieldsCover = true →
    p.takesBytes = true → (∀ m n got, p.frame ≠ .expect m n got) →
    p.uc1 = .known (c.uc1Payload0, c.uc1Payload1) →
      (p.reactAll c (okEvents (stepList c .clear col ++ stepList c .refresh col))).showsColor c col

/-- The correspondence laws on the machine's own runs (R270, which the spec marks as derived; reference model, decision
D23). From an idle block that is prepared (as at reset, and again after every completed request: the first clause), let a
host request run to its completion, with any number of busy samples, any finish draws and any offers waiting, on a run
without a transport fault or a violation and with defined panel behaviour. Then: (a) INIT and WAKE leave the panel
initialized; (b) UPLOAD_COLOR_FRAME and UPLOAD_FRAME (with zeros for the chromatic plane) leave both planes holding their
buffers under the full window, as does UPLOAD_AND_REFRESH, which also shows them; (c) an aligned UPLOAD_PARTIAL leaves its
buffer in its window, everything else of both planes as it was, and the full window; (d) CLEAR and then REFRESH show the
background, if PAT_FIELDS covers the panel (D6); (e) REFRESH shows the known RAM. Panel fairness is not needed: the runs
here are those that complete. That the panel's turns come where they do is the model's choice (log 5), as is that an idle
sample of a busy panel is its finish (log 5). -/
def Obligations.CompletedRequestsObeyTheCorrespondenceLaws : Prop :=
  ∀ (i : Instr) (s t : State), s.Inv → s.prepared → completes i s t → t.violation = false → t.panel.undef = false →
    t.prepared ∧
      (i = .init ∨ i = .wake → t.panel.initialized Config.hw) ∧
      (∀ bw red, i = .uploadColorFrame bw red → t.panel.holdsFrame Config.hw bw red) ∧
      (∀ bw, i = .uploadFrame bw → t.panel.holdsFrame Config.hw bw (zeros (bufLen Config.hw))) ∧
      (∀ bw, i = .uploadAndRefresh bw →
        t.panel.holdsFrame Config.hw bw (zeros (bufLen Config.hw)) ∧ t.panel.showsRam Config.hw) ∧
      (∀ bw x y w h, i = .uploadPartial bw x y w h → aligned8 x w = true →
        t.panel.holdsRegion Config.hw bw x y w h s.panel) ∧
      (i = .clear → Config.hw.patFieldsCover = true → ∀ u, completes .refresh t u → u.violation = false →
        u.panel.undef = false → u.panel.showsColor Config.hw s.bg) ∧
      (i = .refresh → t.panel.showsRam Config.hw)
end

