-- ==== Sys2Proof/Laws/Decode.lean ====
section
/-! SUPPORT. The small laws of the fields of an encoding and of the code lookup. -/

namespace Sys2Proof

@[simp] theorem xField_xByte (g : BitVec 5) : xField (xByte g) = some g := by
  have h := g.isLt
  have h1 : (xByte g).toNat < 32 := by
    simp only [xByte, BitVec.toNat_setWidth]; omega
  simp only [xField, if_pos h1]
  congr 1
  apply BitVec.eq_of_toNat_eq
  simp only [xByte, BitVec.toNat_setWidth]
  omega

theorem xByte_of_xField {b : Byte} {g : BitVec 5} (h : xField b = some g) : xByte g = b := by
  simp only [xField] at h
  split at h
  · rename_i hb
    cases h
    apply BitVec.eq_of_toNat_eq
    simp only [xByte, BitVec.toNat_setWidth]
    omega
  · cases h

/-- The chip reads the column group back from its byte (R258, R259). -/
theorem group_of_xByte (g : BitVec 5) : (xByte g &&& 0x1f).setWidth 5 = g := by revert g; decide

@[simp] theorem rowOfBytes_rowLo_rowHi (y : BitVec 9) : rowOfBytes (rowLo y) (rowHi y) = y := by
  revert y; decide

theorem rowHi_lt (y : BitVec 9) : (rowHi y).toNat < 2 := by
  revert y; decide

@[simp] theorem yField_rowLo_rowHi (y : BitVec 9) : yField (rowLo y) (rowHi y) = some y := by
  rw [yField, if_pos (rowHi_lt y), rowOfBytes_rowLo_rowHi]

theorem toNat_rowOfBytes (lo hi : Byte) : (rowOfBytes lo hi).toNat = lo.toNat + 256 * (hi.toNat % 2) := by
  have hl := lo.isLt
  have h1 : ((hi.setWidth 9 &&& (1 : BitVec 9)).toNat) = hi.toNat % 2 := by
    have : hi.toNat % 2 ^ 9 = hi.toNat := Nat.mod_eq_of_lt (by have := hi.isLt; omega)
    rw [BitVec.toNat_and, BitVec.toNat_setWidth, this]
    exact Nat.and_one_is_mod _
  simp only [rowOfBytes]
  rw [BitVec.toNat_or, BitVec.toNat_shiftLeft, h1, BitVec.toNat_setWidth, Nat.shiftLeft_eq]
  have h2 : hi.toNat % 2 * 2 ^ 8 % 2 ^ 9 = 2 ^ 8 * (hi.toNat % 2) := by
    have : hi.toNat % 2 < 2 := Nat.mod_lt _ (by decide)
    omega
  have h3 : lo.toNat % 2 ^ 9 = lo.toNat := by omega
  rw [h2, h3, Nat.or_comm, ← Nat.two_pow_add_eq_or_of_lt (by omega)]
  omega

theorem rowLo_rowOfBytes (lo hi : Byte) : rowLo (rowOfBytes lo hi) = lo := by
  apply BitVec.eq_of_toNat_eq
  have := lo.isLt
  simp only [rowLo, BitVec.toNat_setWidth, toNat_rowOfBytes]
  omega

theorem rowHi_rowOfBytes {lo hi : Byte} (h : hi.toNat < 2) : rowHi (rowOfBytes lo hi) = hi := by
  apply BitVec.eq_of_toNat_eq
  have := lo.isLt
  simp only [rowHi, BitVec.toNat_setWidth, BitVec.toNat_ushiftRight, toNat_rowOfBytes, Nat.shiftRight_eq_div_pow]
  omega

theorem bytes_of_yField {lo hi : Byte} {y : BitVec 9} (h : yField lo hi = some y) : rowLo y = lo ∧ rowHi y = hi := by
  simp only [yField] at h
  split at h
  · rename_i hb
    cases h
    exact ⟨rowLo_rowOfBytes lo hi, rowHi_rowOfBytes hb⟩
  · cases h

theorem PanelCommand.mem_all (m : PanelCommand) : m ∈ PanelCommand.all := by cases m <;> decide

/-- The command a code byte names has that code. -/
theorem Cfg.code_of_command? {c : Cfg} {b : Byte} {m : PanelCommand} (h : c.command? b = some m) : c.code m = b := by
  have := List.find?_some h
  simpa using this

/-- In a legal configuration no two commands share a code (R7). -/
theorem Cfg.code_injective {c : Cfg} (hc : c.legal = true) {m m' : PanelCommand} (h : c.code m = c.code m') : m = m' := by
  have hn : c.codes.Nodup := by
    simp only [Cfg.legal, Bool.and_eq_true, decide_eq_true_eq] at hc
    exact hc.1.2
  exact List.inj_on_of_nodup_map hn (PanelCommand.mem_all m) (PanelCommand.mem_all m') h

/-- In a legal configuration the code of a command names it (R7, R84). -/
theorem Cfg.command?_code {c : Cfg} (hc : c.legal = true) (m : PanelCommand) : c.command? (c.code m) = some m := by
  cases h : c.command? (c.code m) with
  | none =>
    have := List.find?_eq_none.mp h m (PanelCommand.mem_all m)
    simp at this
  | some m' => rw [Cfg.code_injective hc (Cfg.code_of_command? h)]

/-- This hardware's configuration is legal (R7). -/
theorem Config.hw_legal : Config.hw.legal = true := by
  have h : Config.hw.patFields.getLsbD Config.hw.patPhaseBit.val = false := by
    show (Config.patOtherBits.setWidth 8).getLsbD 7 = false
    simp
  have h2 : Config.hw.codes.Nodup := by decide
  simp only [Cfg.legal, h, h2]
  decide

theorem Config.hw_command?_code (m : PanelCommand) : Config.hw.command? (Config.hw.code m) = some m :=
  Cfg.command?_code Config.hw_legal m

/-- Which frames decode to a request instruction: none. -/
theorem request?_of_decodePayload {m : PanelCommand} {p : Option (List Byte)} {i : Instr}
    (h : decodePayload m p = .ok i) : i.request? = none := by
  cases m <;> rcases p with _ | _ | ⟨a, _ | ⟨b, _ | ⟨d, _ | ⟨e, _ | ⟨f, l⟩⟩⟩⟩⟩ <;>
    simp only [decodePayload, decode0, decode1, decode2, decode4, decodeStream, Option.elim, reduceCtorEq,
      Except.ok.injEq] at h <;>
    first
    | (subst h; rfl)
    | (split at h
       · rename_i heq
         simp only [Option.bind_eq_some_iff, Option.map_eq_some_iff] at heq
         obtain ⟨_, _, _, _, rfl⟩ := heq
         cases h
         rfl
       · cases h)

end Sys2Proof
end

