-- ==== Sys2Proof/Laws/Operands.lean ====
section
/-! SUPPORT. What the addressing arithmetic computes, as numbers: the coordinate bytes, the windows and their sizes
(40_address_arithmetic.md), so that later proofs are linear arithmetic. -/

namespace Sys2Proof.Machine

theorem toNat_xEnc (x : U32) : (xEnc x).toNat = x.toNat / 8 % 32 := by
  simp only [xEnc, BitVec.toNat_setWidth, BitVec.toNat_and, BitVec.toNat_ushiftRight, Nat.shiftRight_eq_div_pow]
  rw [show BitVec.toNat (31 : U32) = 2 ^ 5 - 1 from rfl, Nat.and_two_pow_sub_one_eq_mod]
  omega

theorem toNat_yLo (y : U32) : (yLo y).toNat = y.toNat % 256 := by
  simp only [yLo, BitVec.toNat_setWidth, BitVec.toNat_and]
  rw [show BitVec.toNat (255 : U32) = 2 ^ 8 - 1 from rfl, Nat.and_two_pow_sub_one_eq_mod]
  omega

theorem toNat_yHi (y : U32) : (yHi y).toNat = y.toNat / 256 % 2 := by
  simp only [yHi, BitVec.toNat_setWidth, BitVec.toNat_and, BitVec.toNat_ushiftRight, Nat.shiftRight_eq_div_pow]
  rw [show BitVec.toNat (1 : U32) = 2 ^ 1 - 1 from rfl, Nat.and_two_pow_sub_one_eq_mod]
  omega

theorem toNat_and_511 (y : U32) : (y &&& 0x1ff).toNat = y.toNat % 512 := by
  rw [BitVec.toNat_and, show BitVec.toNat (0x1ff : U32) = 2 ^ 9 - 1 from rfl, Nat.and_two_pow_sub_one_eq_mod]

theorem stride_eq (c : Cfg) : stride c = (c.W + 7) / 8 := by
  simp [stride, Nat.shiftRight_eq_div_pow]

theorem bitPos_eq (x : Nat) : bitPos x = 7 - x % 8 := by
  unfold bitPos
  rw [show x &&& 7 = x % 8 from by rw [show (7 : Nat) = 2 ^ 3 - 1 from rfl, Nat.and_two_pow_sub_one_eq_mod]]

theorem byteIndex_eq (c : Cfg) (x y : Nat) : byteIndex c x y = y * stride c + x / 8 := by
  simp [byteIndex, Nat.shiftRight_eq_div_pow]

/-- A pixel of the panel is a bit of the byte at its index (R102). -/
theorem pixelBit_inside (c : Cfg) (buf : List Byte) {x y : Nat} (hx : x < c.W) (hy : y < c.H) :
    pixelBit c buf x y = (buf[byteIndex c x y]?).map (fun b => b.getLsbD (bitPos x)) := by
  simp [pixelBit, hx, hy]

/-- A pixel outside the panel has no bit (R102). -/
theorem pixelBit_outside (c : Cfg) (buf : List Byte) {x y : Nat} (h : c.W ≤ x ∨ c.H ≤ y) : pixelBit c buf x y = none := by
  unfold pixelBit
  rw [if_neg (by omega)]

/-- The bounds that a legal configuration gives (R7). -/
theorem bounds_of_legal {c : Cfg} (h : c.legal = true) : 1 ≤ c.W ∧ c.W ≤ 256 ∧ 1 ≤ c.H ∧ c.H ≤ 512 := by
  simp only [Cfg.legal, Bool.and_eq_true, decide_eq_true_eq] at h
  omega

theorem windowLegal_iff (c : Cfg) (x y w h : U32) : windowLegal c x y w h = true ↔
    1 ≤ w.toNat ∧ 1 ≤ h.toNat ∧ x.toNat + w.toNat ≤ c.W ∧ y.toNat + h.toNat ≤ c.H := by
  simp only [windowLegal, Bool.and_eq_true, decide_eq_true_eq, and_assoc]

theorem aligned8_iff (x w : U32) : aligned8 x w = true ↔ x.toNat % 8 = 0 ∧ w.toNat % 8 = 0 := by
  simp only [aligned8, Bool.and_eq_true, decide_eq_true_eq]

/-- The last pixel of a span that does not wrap. -/
theorem toNat_spanEnd {x w : U32} (hw : 1 ≤ w.toNat) (h : x.toNat + w.toNat < 2 ^ 32) :
    (x + w - 1).toNat = x.toNat + w.toNat - 1 := by
  have h1 : (x + w).toNat = x.toNat + w.toNat := by rw [BitVec.toNat_add, Nat.mod_eq_of_lt h]
  rw [BitVec.toNat_sub, h1, show BitVec.toNat (1 : U32) = 1 from rfl]
  omega

end Sys2Proof.Machine
end

