-- ==== Sys2Proof/Laws/Memory.lean ====
section
/-! SUPPORT. The laws of sparse data: a read after a write, and that every operation keeps the canonical form. -/

namespace Sys2Proof.Machine

namespace Sparse
variable {α : Type}

theorem rising_mono {b b' : Nat} (m : Sparse α) (hb : b' ≤ b) (h : Sparse.rising b m = true) :
    Sparse.rising b' m = true := by
  cases m with
  | nil => rfl
  | cons e rest =>
    simp only [Sparse.rising, Bool.and_eq_true, decide_eq_true_eq] at h ⊢
    exact ⟨by omega, h.2⟩

theorem wf_of_rising {b : Nat} (m : Sparse α) (h : Sparse.rising b m = true) : Sparse.wf m = true := by
  cases m with
  | nil => rfl
  | cons e rest =>
    simp only [Sparse.rising, Bool.and_eq_true] at h
    exact h.2

theorem read_of_rising {b : Nat} (m : Sparse α) (key : Nat) (h : Sparse.rising b m = true) (hk : key ≤ b) :
    Sparse.read m key = .unknown := by
  induction m generalizing b with
  | nil => rfl
  | cons e rest ih =>
    obtain ⟨a, v⟩ := e
    simp only [Sparse.rising, Bool.and_eq_true, decide_eq_true_eq] at h
    simp only [Sparse.read]
    rw [if_neg (by omega)]
    exact ih h.2 (by omega)

@[simp] theorem read_nil (key : Nat) : Sparse.read ([] : Sparse α) key = .unknown := rfl

@[simp] theorem read_insert_same (m : Sparse α) (key : Nat) (v : α) :
    Sparse.read (Sparse.insert key v m) key = .known v := by
  induction m with
  | nil => simp [Sparse.insert, Sparse.read]
  | cons e rest ih =>
    obtain ⟨a, w⟩ := e
    simp only [Sparse.insert]
    split
    · simp [Sparse.read]
    · split
      · simp [Sparse.read]
      · simp only [Sparse.read]
        rw [if_neg (by omega)]
        exact ih

theorem read_insert_other (m : Sparse α) (key key' : Nat) (v : α) (h : key' ≠ key) :
    Sparse.read (Sparse.insert key v m) key' = Sparse.read m key' := by
  induction m with
  | nil =>
    simp only [Sparse.insert, Sparse.read]
    rw [if_neg (by omega)]
  | cons e rest ih =>
    obtain ⟨a, w⟩ := e
    simp only [Sparse.insert]
    split
    · simp only [Sparse.read]
      rw [if_neg (by omega)]
    · split
      · rename_i h1 h2
        simp only [Sparse.read]
        rw [if_neg (by omega), if_neg (by omega)]
      · simp only [Sparse.read]
        split
        · rfl
        · exact ih

theorem rising_insert {b : Nat} (m : Sparse α) (key : Nat) (v : α) (h : Sparse.rising b m = true) (hk : b < key) :
    Sparse.rising b (Sparse.insert key v m) = true := by
  induction m generalizing b with
  | nil => simp [Sparse.insert, Sparse.rising, hk]
  | cons e rest ih =>
    obtain ⟨a, w⟩ := e
    simp only [Sparse.rising, Bool.and_eq_true, decide_eq_true_eq] at h
    simp only [Sparse.insert]
    split
    · rename_i hka
      simp [Sparse.rising, hk, hka, h.2]
    · split
      · rename_i hka hke
        subst hke
        simp [Sparse.rising, hk, h.2]
      · simp only [Sparse.rising, Bool.and_eq_true, decide_eq_true_eq]
        exact ⟨h.1, ih h.2 (by omega)⟩

theorem wf_insert (m : Sparse α) (key : Nat) (v : α) (h : Sparse.wf m = true) :
    Sparse.wf (Sparse.insert key v m) = true := by
  cases m with
  | nil => simp [Sparse.insert, Sparse.wf, Sparse.rising]
  | cons e rest =>
    obtain ⟨a, w⟩ := e
    simp only [Sparse.wf] at h
    simp only [Sparse.insert]
    split
    · rename_i hka
      simp [Sparse.wf, Sparse.rising, hka, h]
    · split
      · rename_i hka hke
        subst hke
        simpa [Sparse.wf] using h
      · simp only [Sparse.wf]
        exact rising_insert rest key v h (by omega)

theorem rising_erase {b : Nat} (m : Sparse α) (key : Nat) (h : Sparse.rising b m = true) :
    Sparse.rising b (Sparse.erase key m) = true := by
  induction m generalizing b with
  | nil => rfl
  | cons e rest ih =>
    obtain ⟨a, w⟩ := e
    simp only [Sparse.rising, Bool.and_eq_true, decide_eq_true_eq] at h
    simp only [Sparse.erase]
    split
    · exact ih (rising_mono rest (by omega) h.2)
    · simp only [Sparse.rising, Bool.and_eq_true, decide_eq_true_eq]
      exact ⟨h.1, ih h.2⟩

theorem wf_erase (m : Sparse α) (key : Nat) (h : Sparse.wf m = true) : Sparse.wf (Sparse.erase key m) = true := by
  cases m with
  | nil => rfl
  | cons e rest =>
    obtain ⟨a, w⟩ := e
    simp only [Sparse.wf] at h
    simp only [Sparse.erase]
    split
    · exact wf_of_rising _ (rising_erase rest key h)
    · simp only [Sparse.wf]
      exact rising_erase rest key h

theorem read_erase_same (m : Sparse α) (key : Nat) : Sparse.read (Sparse.erase key m) key = .unknown := by
  induction m with
  | nil => rfl
  | cons e rest ih =>
    obtain ⟨a, w⟩ := e
    simp only [Sparse.erase]
    split
    · exact ih
    · rename_i hak
      simp only [Sparse.read]
      rw [if_neg hak]
      exact ih

theorem read_erase_other (m : Sparse α) (key key' : Nat) (h : key' ≠ key) :
    Sparse.read (Sparse.erase key m) key' = Sparse.read m key' := by
  induction m with
  | nil => rfl
  | cons e rest ih =>
    obtain ⟨a, w⟩ := e
    simp only [Sparse.erase]
    split
    · simp only [Sparse.read]
      rw [if_neg (by omega)]
      exact ih
    · simp only [Sparse.read]
      split
      · rfl
      · exact ih

/-- A write, of a known or an unknown value, keeps the canonical form. -/
theorem wf_write (m : Sparse α) (key : Nat) (v : Val α) (h : Sparse.wf m = true) :
    Sparse.wf (Sparse.write m key v) = true := by
  cases v with
  | known a => exact wf_insert m key a h
  | unknown => exact wf_erase m key h

/-- A read after a write of the same key gives what was written. -/
theorem read_write_same (m : Sparse α) (key : Nat) (v : Val α) :
    Sparse.read (Sparse.write m key v) key = v := by
  cases v with
  | known a => exact read_insert_same m key a
  | unknown => exact read_erase_same m key

/-- A write leaves every other key alone. -/
theorem read_write_other (m : Sparse α) (key key' : Nat) (v : Val α) (h : key' ≠ key) :
    Sparse.read (Sparse.write m key v) key' = Sparse.read m key' := by
  cases v with
  | known a => exact read_insert_other m key key' a h
  | unknown => exact read_erase_other m key key' h

end Sparse

/-! ### RAM planes -/

/-- Different cells have different keys. -/
theorem ramKey_inj {x x' : BitVec 5} {y y' : BitVec 9} (h : ramKey x y = ramKey x' y') : x = x' ∧ y = y' := by
  have hx := x.isLt
  have hx' := x'.isLt
  simp only [ramKey] at h
  constructor
  · apply BitVec.eq_of_toNat_eq; omega
  · apply BitVec.eq_of_toNat_eq; omega

@[simp] theorem Memory.wf_nil : Memory.wf [] = true := rfl
@[simp] theorem Image.wf_nil : Image.wf [] = true := rfl

/-- A write of a RAM cell keeps the canonical form. -/
theorem Memory.wf_write (m : Memory) (x : BitVec 5) (y : BitVec 9) (v : Val Byte) (h : m.wf = true) :
    (m.write x y v).wf = true := Sparse.wf_write m _ _ h

@[simp] theorem Memory.read_write_same (m : Memory) (x : BitVec 5) (y : BitVec 9) (v : Val Byte) :
    (m.write x y v).read x y = v := Sparse.read_write_same m _ v

theorem Memory.read_write_other (m : Memory) (x x' : BitVec 5) (y y' : BitVec 9) (v : Val Byte)
    (h : x' ≠ x ∨ y' ≠ y) : (m.write x y v).read x' y' = m.read x' y' := by
  apply Sparse.read_write_other
  intro hk
  obtain ⟨hx, hy⟩ := ramKey_inj hk
  rcases h with h | h <;> contradiction

/-! ### Rows of cells: fills and images -/

/-- Sparse data is canonical exactly when its keys are pairwise rising. -/
theorem Sparse.wf_iff_pairwise {α : Type} (m : Sparse α) :
    Sparse.wf m = true ↔ m.Pairwise (fun e e' => e.1 < e'.1) := by
  have key : ∀ (b : Nat) (m : Sparse α),
      Sparse.rising b m = true ↔ (∀ e ∈ m, b < e.1) ∧ m.Pairwise (fun e e' => e.1 < e'.1) := by
    intro b m
    induction m generalizing b with
    | nil => simp [Sparse.rising]
    | cons e rest ih =>
      obtain ⟨a, v⟩ := e
      simp only [Sparse.rising, Bool.and_eq_true, decide_eq_true_eq, ih, List.mem_cons, forall_eq_or_imp,
        List.pairwise_cons]
      constructor
      · rintro ⟨h1, h2, h3⟩
        exact ⟨⟨h1, fun e he => Nat.lt_trans h1 (h2 e he)⟩, h2, h3⟩
      · rintro ⟨⟨h1, _⟩, h2, h3⟩
        exact ⟨h1, h2, h3⟩
  cases m with
  | nil => simp [Sparse.wf]
  | cons e rest =>
    obtain ⟨a, v⟩ := e
    simp [Sparse.wf, key, List.pairwise_cons]

/-- In canonical data, a listed entry is what its key reads as. -/
theorem Sparse.read_of_mem {α : Type} (m : Sparse α) (h : Sparse.wf m = true) (key : Nat) (v : α) (hm : (key, v) ∈ m) :
    Sparse.read m key = .known v := by
  rw [Sparse.wf_iff_pairwise] at h
  induction m with
  | nil => simp at hm
  | cons e rest ih =>
    obtain ⟨a, w⟩ := e
    rw [List.pairwise_cons] at h
    simp only [Sparse.read]
    rcases List.mem_cons.mp hm with he | he
    · cases he; simp
    · have := h.1 _ he
      simp only at this
      rw [if_neg (by omega)]
      exact ih h.2 he

/-- A key that no entry has reads as unknown. -/
theorem Sparse.read_of_not_mem {α : Type} (m : Sparse α) (key : Nat) (hm : ∀ v, (key, v) ∉ m) :
    Sparse.read m key = .unknown := by
  induction m with
  | nil => rfl
  | cons e rest ih =>
    obtain ⟨a, w⟩ := e
    simp only [Sparse.read]
    have : a ≠ key := by rintro rfl; exact hm w (by simp)
    rw [if_neg this]
    exact ih (fun v hv => hm v (by simp [hv]))

/-- Rows of rising columns, one row after the other, are canonical. -/
theorem Sparse.wf_rows {α : Type} (n width : Nat) (row : Nat → Sparse α)
    (hrow : ∀ y, Sparse.wf (row y) = true)
    (hin : ∀ y, ∀ e ∈ row y, y * width ≤ e.1 ∧ e.1 < (y + 1) * width) :
    Sparse.wf ((List.range n).flatMap row) = true := by
  rw [Sparse.wf_iff_pairwise, List.pairwise_flatMap]
  refine ⟨fun y _ => (Sparse.wf_iff_pairwise _).mp (hrow y), ?_⟩
  apply List.Pairwise.imp _ List.pairwise_lt_range
  intro y y' hy e he e' he'
  have h1 := (hin y e he).2
  have h2 := (hin y' e' he').1
  have h3 : (y + 1) * width ≤ y' * width := Nat.mul_le_mul_right _ hy
  omega

end Sys2Proof.Machine
end

