-- ==== Sys2Proof/Laws/Panel.lean ====
section
/-! SUPPORT. The panel reference model keeps its invariant under every event and at every finish: the canonical form of
its planes and image, processing pending exactly while busy, and an undefined panel unknown throughout. -/

namespace Sys2Proof.Machine
namespace Panel

/-! ### The undefined panel (R269) -/

@[simp] theorem setUndef_undef (p : Panel) : p.setUndef.undef = true := rfl

theorem setUndef_allUnknown (p : Panel) : p.setUndef.allUnknown := by
  simp [allUnknown, setUndef, forgetRam, forgetRegisters, forgetAddressing]

/-- An undefined panel follows only the reset line. -/
theorem react_of_undef (c : Cfg) (e : Event) (p : Panel) (h : p.undef = true) : p.react c e = p.onUndef e := by
  simp [react, h]

/-- What an undefined panel's reaction keeps: everything but `inReset`. -/
theorem onUndef_eq (e : Event) (p : Panel) : ∃ b, p.onUndef e = { p with inReset := b } := by
  cases e with
  | rst d => cases d <;> exact ⟨_, rfl⟩
  | _ => exact ⟨p.inReset, rfl⟩

@[simp] theorem react_accept (c : Cfg) (r : Request) (p : Panel) : p.react c (.accept r) = p := by
  simp [react, onUndef]
@[simp] theorem react_delay (c : Cfg) (us : Nat) (p : Panel) : p.react c (.delay us) = p := by
  simp [react, onUndef]
@[simp] theorem react_fault (c : Cfg) (kind : FaultKind) (k : Nat) (p : Panel) : p.react c (.fault kind k) = p := by
  simp [react, onUndef]
@[simp] theorem react_respond (c : Cfg) (r : Response) (p : Panel) : p.react c (.respond r) = p := by
  simp [react, onUndef]

theorem react_cmd (c : Cfg) (b : Byte) (p : Panel) (h : p.undef = false) : p.react c (.cmd b) = p.onCmd c b := by
  simp [react, h]
theorem react_data (c : Cfg) (bs : List Byte) (p : Panel) (h : p.undef = false) :
    p.react c (.data bs) = p.onData c bs := by
  simp [react, h]

/-- A panel that takes bytes is defined, out of reset, awake and not busy. -/
theorem takesBytes_iff (p : Panel) : p.takesBytes = true ↔
    p.undef = false ∧ p.inReset = false ∧ p.busy = .known false ∧ p.power = .known .awake := by
  simp only [takesBytes, Bool.and_eq_true, Bool.not_eq_true', decide_eq_true_eq, and_assoc]

/-! ### The canonical form of fills and images -/

theorem fillCells_wf (c : Cfg) (phase : Bool) (hW : c.W ≤ 256) : Memory.wf (fillCells c phase) = true := by
  apply Sparse.wf_rows _ 32
  · intro y
    rw [Sparse.wf_iff_pairwise, List.pairwise_map]
    exact List.pairwise_lt_range.imp (fun {a b} (h : a < b) => Nat.add_lt_add_left h _)
  · intro y e he
    simp only [List.mem_map, List.mem_range] at he
    obtain ⟨g, hg, rfl⟩ := he
    have : stride c ≤ 32 := by simp only [stride, Nat.shiftRight_eq_div_pow]; omega
    simp only
    omega

theorem image_wf (c : Cfg) (p : Panel) : Image.wf (p.image c) = true := by
  apply Sparse.wf_rows _ c.W
  · intro y
    rw [Sparse.wf_iff_pairwise, List.pairwise_filterMap]
    apply List.pairwise_lt_range.imp
    intro a b hab e he e' he'
    simp only [Option.map_eq_some_iff] at he he'
    obtain ⟨_, _, rfl⟩ := he
    obtain ⟨_, _, rfl⟩ := he'
    simp only
    omega
  · intro y e he
    simp only [List.mem_filterMap, List.mem_range, Option.map_eq_some_iff] at he
    obtain ⟨x, hx, _, _, rfl⟩ := he
    simp only [Nat.succ_mul]
    omega

/-! ### The invariant -/

/-- Changes of registers, power, reset line and frame alone keep the invariant of a defined panel. -/
theorem Inv.of_eq {p q : Panel} (h : p.Inv) (hu : q.undef = false) (h1 : q.ramBw = p.ramBw) (h2 : q.ramRed = p.ramRed)
    (h3 : q.shown = p.shown) (h4 : q.busy = p.busy) (h5 : q.pending = p.pending) : q.Inv where
  ramBwWf := h1 ▸ h.ramBwWf
  ramRedWf := h2 ▸ h.ramRedWf
  shownWf := h3 ▸ h.shownWf
  busyPending := by rw [h4, h5]; exact h.busyPending
  undefUnknown := by simp [hu]

theorem initial_inv : Panel.initial.Inv where
  ramBwWf := rfl
  ramRedWf := rfl
  shownWf := rfl
  busyPending := by decide
  undefUnknown := by simp [initial]

theorem setUndef_inv (p : Panel) : p.setUndef.Inv where
  ramBwWf := rfl
  ramRedWf := rfl
  shownWf := rfl
  busyPending := by simp [setUndef]
  undefUnknown := fun _ => setUndef_allUnknown p

theorem startProcessing_inv (e : Effect) {p : Panel} (h : p.Inv) (hu : p.undef = false) : (p.startProcessing e).Inv where
  ramBwWf := h.ramBwWf
  ramRedWf := h.ramRedWf
  shownWf := h.shownWf
  busyPending := by simp [startProcessing]
  undefUnknown := by simp [startProcessing, hu]

theorem applyEffect_undef (c : Cfg) (e : Effect) (p : Panel) : (p.applyEffect c e).undef = p.undef := by
  cases e with
  | fill pl phase => cases pl <;> rfl
  | _ => rfl

/-- Finishing keeps the invariant of a defined panel (the configuration's width is legal, R7). -/
theorem finish_inv (c : Cfg) (hW : c.W ≤ 256) {p : Panel} (h : p.Inv) (hu : p.undef = false) : (p.finish c).Inv := by
  have hf := fillCells_wf c
  unfold finish
  split
  · rename_i e he
    have hu' := applyEffect_undef c e p
    refine ⟨?_, ?_, ?_, by simp, by simp [hu', hu]⟩
    · cases e with
      | fill pl phase =>
        cases pl <;> simp only [applyEffect, setRam, forgetAddressing]
        · split
          · exact hf _ hW
          · rfl
        · exact h.ramBwWf
      | display => exact h.ramBwWf
      | _ => rfl
    · cases e with
      | fill pl phase =>
        cases pl <;> simp only [applyEffect, setRam, forgetAddressing]
        · exact h.ramRedWf
        · split
          · exact hf _ hW
          · rfl
      | display => exact h.ramRedWf
      | _ => rfl
    · cases e with
      | fill pl phase => cases pl <;> exact h.shownWf
      | display => exact image_wf c p
      | _ => exact h.shownWf
  · exact ⟨h.ramBwWf, h.ramRedWf, h.shownWf, by simp, by simp [hu]⟩

theorem finish_undef (c : Cfg) (p : Panel) : (p.finish c).undef = p.undef := by
  unfold finish
  split
  · exact applyEffect_undef c _ p
  · rfl

/-- Finishing neither reads nor writes the reset line. -/
theorem finish_inReset (c : Cfg) (p : Panel) (b : Bool) :
    ({ p with inReset := b } : Panel).finish c = { p.finish c with inReset := b } := by
  unfold finish
  cases p.pending with
  | none => rfl
  | some e =>
    cases e with
    | fill pl phase => cases pl <;> rfl
    | _ => rfl

/-- Finishing keeps the decode state. -/
theorem finish_frame (c : Cfg) (p : Panel) : (p.finish c).frame = p.frame := by
  unfold finish
  cases p.pending with
  | none => rfl
  | some e =>
    cases e with
    | fill pl phase => cases pl <;> rfl
    | _ => rfl

/-! ### Streams -/

theorem advanceCursor_ram (x : BitVec 5) (y : BitVec 9) (p : Panel) (pl : Plane) :
    (p.advanceCursor x y).ram pl = p.ram pl := by
  unfold advanceCursor
  cases pl <;> split <;> rfl

/-- A byte written to a cell of the panel is known there (R260). -/
theorem cellValue_onPanel {c : Cfg} {x : BitVec 5} {y : BitVec 9} (d : Byte) (hx : x.toNat < stride c)
    (hy : y.toNat < c.H) : cellValue c x y d = .known d := if_pos ⟨hx, hy⟩

/-- A byte written beyond the panel is unknown there (R52, U16). -/
theorem cellValue_beyond {c : Cfg} {x : BitVec 5} {y : BitVec 9} (d : Byte) (h : stride c ≤ x.toNat ∨ c.H ≤ y.toNat) :
    cellValue c x y d = .unknown := if_neg (by omega)

/-- A byte whose write has no meaning makes the plane unknown and changes nothing else (R257, R260, R261). -/
theorem writeByte_of_none {c : Cfg} {p : Panel} (pl : Plane) (d : Byte) (h : p.writeCursor c = none) :
    p.writeByte c pl d = p.setRam pl [] := by
  unfold writeByte
  rw [h]

theorem writeCursor_setRam (c : Cfg) (p : Panel) (pl : Plane) (m : Memory) :
    (p.setRam pl m).writeCursor c = p.writeCursor c := by cases pl <;> rfl

@[simp] theorem setRam_setRam (p : Panel) (pl : Plane) (m m' : Memory) :
    (p.setRam pl m).setRam pl m' = p.setRam pl m' := by cases pl <;> rfl

/-- A whole stream whose writes have no meaning (R257, R260, R261). -/
theorem writeStream_of_none {c : Cfg} {p : Panel} (pl : Plane) (bs : List Byte) (h : p.writeCursor c = none)
    (hb : bs ≠ []) : p.writeStream c pl bs = p.setRam pl [] := by
  have rest : ∀ ds : List Byte, (p.setRam pl []).writeStream c pl ds = p.setRam pl [] := by
    intro ds
    unfold writeStream
    induction ds with
    | nil => rfl
    | cons d ds ih =>
      rw [List.foldl_cons, writeByte_of_none pl d ((writeCursor_setRam c p pl []).trans h), setRam_setRam]
      exact ih
  cases bs with
  | nil => exact absurd rfl hb
  | cons d ds =>
    have := rest ds
    unfold writeStream at this ⊢
    rw [List.foldl_cons, writeByte_of_none pl d h]
    exact this

/-- What one byte of a stream leaves alone (R260, R261): everything but its plane and the counters. -/
theorem writeByte_frame (c : Cfg) (pl : Plane) (p : Panel) (d : Byte) :
    ∃ xc yc m, p.writeByte c pl d = { p.setRam pl m with xc := xc, yc := yc } := by
  unfold writeByte
  split
  · rename_i x y h
    unfold advanceCursor
    split
    · exact ⟨_, _, _, rfl⟩
    · exact ⟨_, p.yc, (p.ram pl).write x y (cellValue c x y d), by cases pl <;> rfl⟩
  · exact ⟨p.xc, p.yc, [], by cases pl <;> rfl⟩

theorem setRam_inv (pl : Plane) (m : Memory) (hm : m.wf = true) {p : Panel} (h : p.Inv) (hu : p.undef = false) :
    (p.setRam pl m).Inv := by
  cases pl
  · exact ⟨hm, h.ramRedWf, h.shownWf, h.busyPending, by simp [setRam, hu]⟩
  · exact ⟨h.ramBwWf, hm, h.shownWf, h.busyPending, by simp [setRam, hu]⟩

theorem ram_wf {p : Panel} (h : p.Inv) (pl : Plane) : (p.ram pl).wf = true := by
  cases pl
  · exact h.ramBwWf
  · exact h.ramRedWf

theorem setRam_undef (p : Panel) (pl : Plane) (m : Memory) : (p.setRam pl m).undef = p.undef := by cases pl <;> rfl

theorem writeByte_inv (c : Cfg) (pl : Plane) (d : Byte) {p : Panel} (h : p.Inv) (hu : p.undef = false) :
    (p.writeByte c pl d).Inv ∧ (p.writeByte c pl d).undef = false := by
  unfold writeByte
  split
  · rename_i x y hxy
    have hs := setRam_inv pl _ (Memory.wf_write (p.ram pl) x y (cellValue c x y d) (ram_wf h pl)) h hu
    have hsu : (p.setRam pl ((p.ram pl).write x y (cellValue c x y d))).undef = false := by rw [setRam_undef]; exact hu
    unfold advanceCursor
    split
    · exact ⟨Inv.of_eq hs hsu rfl rfl rfl rfl rfl, hsu⟩
    · exact ⟨Inv.of_eq hs hsu rfl rfl rfl rfl rfl, hsu⟩
  · exact ⟨setRam_inv pl [] rfl h hu, by rw [setRam_undef]; exact hu⟩

theorem writeStream_inv (c : Cfg) (pl : Plane) (bs : List Byte) {p : Panel} (h : p.Inv) (hu : p.undef = false) :
    (p.writeStream c pl bs).Inv ∧ (p.writeStream c pl bs).undef = false := by
  unfold writeStream
  induction bs generalizing p with
  | nil => exact ⟨h, hu⟩
  | cons d rest ih =>
    obtain ⟨h', hu'⟩ := writeByte_inv c pl d h hu
    exact ih h' hu'

/-! ### Events -/

theorem runCommand_inv (c : Cfg) (m : PanelCommand) (got : List Byte) {p : Panel} (h : p.Inv) (hu : p.undef = false) :
    (p.runCommand c m got).Inv := by
  cases m <;> simp only [runCommand, with1, with2, with4] <;> first
    | exact setUndef_inv p
    | (split
       · first
         | exact Inv.of_eq h hu rfl rfl rfl rfl rfl
         | exact startProcessing_inv _ h hu
         | (unfold effDeepSleep
            split
            · exact ⟨rfl, rfl, h.shownWf, h.busyPending, by simp [forgetRam, forgetRegisters, forgetAddressing, hu]⟩
            · exact setUndef_inv p)
       · exact setUndef_inv p)

theorem onCmd_inv (c : Cfg) (b : Byte) {p : Panel} (h : p.Inv) (hu : p.undef = false) : (p.onCmd c b).Inv := by
  have hn : Inv { p with frame := .noFrame } := Inv.of_eq h hu rfl rfl rfl rfl rfl
  unfold onCmd
  split
  · exact setUndef_inv p
  · split
    · exact setUndef_inv p
    · split
      · exact setUndef_inv p
      · rename_i m hm
        split
        · unfold runAtCode
          split <;> first | exact startProcessing_inv _ hn hu | exact hn
        · exact Inv.of_eq h hu rfl rfl rfl rfl rfl
        · exact Inv.of_eq h hu rfl rfl rfl rfl rfl

theorem onData_inv (c : Cfg) (bs : List Byte) {p : Panel} (h : p.Inv) (hu : p.undef = false) : (p.onData c bs).Inv := by
  have hn : Inv { p with frame := .noFrame } := Inv.of_eq h hu rfl rfl rfl rfl rfl
  unfold onData
  split
  · exact setUndef_inv p
  · split
    · exact setUndef_inv p
    · exact (writeStream_inv c _ bs h hu).1
    · split
      · exact Inv.of_eq h hu rfl rfl rfl rfl rfl
      · split
        · exact runCommand_inv c _ _ hn hu
        · exact setUndef_inv p

theorem endStream_inv {p : Panel} (h : p.Inv) (hu : p.undef = false) :
    p.endStream.Inv ∧ p.endStream.undef = false := by
  unfold endStream
  split
  · exact ⟨Inv.of_eq h hu rfl rfl rfl rfl rfl, hu⟩
  · exact ⟨h, hu⟩

theorem onRst_inv (d : RstDrive) {p : Panel} (h : p.Inv) (hu : p.undef = false) : (p.onRst d).Inv := by
  obtain ⟨he, heu⟩ := endStream_inv h hu
  cases d with
  | asserted => exact Inv.of_eq he heu rfl rfl rfl rfl rfl
  | deasserted =>
    simp only [onRst]
    split
    · exact Inv.of_eq (startProcessing_inv .resetDone he heu) heu rfl rfl rfl rfl rfl
    · exact he

theorem onSample_inv (c : Cfg) (hW : c.W ≤ 256) (o : BusySample) {p : Panel} (h : p.Inv) (hu : p.undef = false) :
    (p.onSample c o).Inv := by
  cases o with
  | idle =>
    simp only [onSample]
    split
    · exact finish_inv c hW h hu
    · exact h
  | busy =>
    simp only [onSample]
    split
    · exact setUndef_inv p
    · exact h

/-- Every event keeps the panel's invariant. -/
theorem react_inv (c : Cfg) (hW : c.W ≤ 256) (e : Event) {p : Panel} (h : p.Inv) : (p.react c e).Inv := by
  cases hu : p.undef with
  | true =>
    rw [react_of_undef c e p hu]
    obtain ⟨b, hb⟩ := onUndef_eq e p
    rw [hb]
    exact ⟨h.ramBwWf, h.ramRedWf, h.shownWf, h.busyPending, fun _ => h.undefUnknown hu⟩
  | false =>
    unfold react
    rw [hu]
    cases e with
    | cmd b => exact onCmd_inv c b h hu
    | data bs => exact onData_inv c bs h hu
    | rst d => exact onRst_inv d h hu
    | busySample o => exact onSample_inv c hW o h hu
    | _ => exact h

end Panel
end Sys2Proof.Machine
end

