-- ==== Sys2Proof/Laws/State.lean ====
section
/-! SUPPORT. One lemma per field per named update of the state, true by rfl, so that no later proof unfolds a record
update. -/

namespace Sys2Proof.Machine

/-! ### State.emit -/

@[simp] theorem State.emit_seq (c : Cfg) (e : Event) (s : State) : (s.emit c e).seq = s.seq := rfl
@[simp] theorem State.emit_req (c : Cfg) (e : Event) (s : State) : (s.emit c e).req = s.req := rfl
@[simp] theorem State.emit_steps (c : Cfg) (e : Event) (s : State) : (s.emit c e).steps = s.steps := rfl
@[simp] theorem State.emit_k (c : Cfg) (e : Event) (s : State) : (s.emit c e).k = s.k := rfl
@[simp] theorem State.emit_bg (c : Cfg) (e : Event) (s : State) : (s.emit c e).bg = s.bg := rfl
@[simp] theorem State.emit_life (c : Cfg) (e : Event) (s : State) : (s.emit c e).life = s.life := rfl
@[simp] theorem State.emit_violation (c : Cfg) (e : Event) (s : State) : (s.emit c e).violation = s.violation := rfl
@[simp] theorem State.emit_refused (c : Cfg) (e : Event) (s : State) : (s.emit c e).refused = s.refused := rfl
@[simp] theorem State.emit_dc (c : Cfg) (e : Event) (s : State) : (s.emit c e).dc = s.dc := rfl
@[simp] theorem State.emit_rst (c : Cfg) (e : Event) (s : State) : (s.emit c e).rst = s.rst := rfl
@[simp] theorem State.emit_trace (c : Cfg) (e : Event) (s : State) : (s.emit c e).trace = s.trace ++ [e] := rfl
@[simp] theorem State.emit_resp (c : Cfg) (e : Event) (s : State) : (s.emit c e).resp = s.resp := rfl
@[simp] theorem State.emit_construct (c : Cfg) (e : Event) (s : State) : (s.emit c e).construct = s.construct := rfl
@[simp] theorem State.emit_panel (c : Cfg) (e : Event) (s : State) : (s.emit c e).panel = s.panel.react c e := rfl
@[simp] theorem State.emit_env (c : Cfg) (e : Event) (s : State) : (s.emit c e).env = s.env := rfl

/-! ### State.toIdle -/

@[simp] theorem State.toIdle_seq (s : State) : s.toIdle.seq = .idle := rfl
@[simp] theorem State.toIdle_req (s : State) : s.toIdle.req = none := rfl
@[simp] theorem State.toIdle_steps (s : State) : s.toIdle.steps = [] := rfl
@[simp] theorem State.toIdle_k (s : State) : s.toIdle.k = 0 := rfl
@[simp] theorem State.toIdle_bg (s : State) : s.toIdle.bg = s.bg := rfl
@[simp] theorem State.toIdle_life (s : State) : s.toIdle.life = s.life := rfl
@[simp] theorem State.toIdle_violation (s : State) : s.toIdle.violation = s.violation := rfl
@[simp] theorem State.toIdle_refused (s : State) : s.toIdle.refused = s.refused := rfl
@[simp] theorem State.toIdle_dc (s : State) : s.toIdle.dc = s.dc := rfl
@[simp] theorem State.toIdle_rst (s : State) : s.toIdle.rst = s.rst := rfl
@[simp] theorem State.toIdle_trace (s : State) : s.toIdle.trace = s.trace := rfl
@[simp] theorem State.toIdle_resp (s : State) : s.toIdle.resp = s.resp := rfl
@[simp] theorem State.toIdle_construct (s : State) : s.toIdle.construct = s.construct := rfl
@[simp] theorem State.toIdle_panel (s : State) : s.toIdle.panel = s.panel := rfl
@[simp] theorem State.toIdle_env (s : State) : s.toIdle.env = s.env := rfl

/-! ### State.advance -/

@[simp] theorem State.advance_seq (s : State) : s.advance.seq = s.seq := rfl
@[simp] theorem State.advance_req (s : State) : s.advance.req = s.req := rfl
@[simp] theorem State.advance_steps (s : State) : s.advance.steps = s.steps := rfl
@[simp] theorem State.advance_k (s : State) : s.advance.k = s.k + 1 := rfl
@[simp] theorem State.advance_bg (s : State) : s.advance.bg = s.bg := rfl
@[simp] theorem State.advance_life (s : State) : s.advance.life = s.life := rfl
@[simp] theorem State.advance_violation (s : State) : s.advance.violation = s.violation := rfl
@[simp] theorem State.advance_refused (s : State) : s.advance.refused = s.refused := rfl
@[simp] theorem State.advance_dc (s : State) : s.advance.dc = s.dc := rfl
@[simp] theorem State.advance_rst (s : State) : s.advance.rst = s.rst := rfl
@[simp] theorem State.advance_trace (s : State) : s.advance.trace = s.trace := rfl
@[simp] theorem State.advance_resp (s : State) : s.advance.resp = s.resp := rfl
@[simp] theorem State.advance_construct (s : State) : s.advance.construct = s.construct := rfl
@[simp] theorem State.advance_panel (s : State) : s.advance.panel = s.panel := rfl
@[simp] theorem State.advance_env (s : State) : s.advance.env = s.env := rfl

/-! ### abort -/

@[simp] theorem abort_seq (c : Cfg) (kind : FaultKind) (s : State) : (abort c kind s).seq = .idle := rfl
@[simp] theorem abort_req (c : Cfg) (kind : FaultKind) (s : State) : (abort c kind s).req = none := rfl
@[simp] theorem abort_steps (c : Cfg) (kind : FaultKind) (s : State) : (abort c kind s).steps = [] := rfl
@[simp] theorem abort_k (c : Cfg) (kind : FaultKind) (s : State) : (abort c kind s).k = 0 := rfl
@[simp] theorem abort_bg (c : Cfg) (kind : FaultKind) (s : State) : (abort c kind s).bg = s.bg := rfl
@[simp] theorem abort_life (c : Cfg) (kind : FaultKind) (s : State) : (abort c kind s).life = .uninitialized := rfl
@[simp] theorem abort_violation (c : Cfg) (kind : FaultKind) (s : State) : (abort c kind s).violation = s.violation := rfl
@[simp] theorem abort_refused (c : Cfg) (kind : FaultKind) (s : State) : (abort c kind s).refused = s.refused := rfl
@[simp] theorem abort_dc (c : Cfg) (kind : FaultKind) (s : State) : (abort c kind s).dc = s.dc := rfl
@[simp] theorem abort_rst (c : Cfg) (kind : FaultKind) (s : State) : (abort c kind s).rst = s.rst := rfl
@[simp] theorem abort_trace (c : Cfg) (kind : FaultKind) (s : State) : (abort c kind s).trace = s.trace ++ [.fault kind s.k] ++ [.respond (.err kind)] := rfl
@[simp] theorem abort_resp (c : Cfg) (kind : FaultKind) (s : State) : (abort c kind s).resp = some (.err kind) := rfl
@[simp] theorem abort_construct (c : Cfg) (kind : FaultKind) (s : State) : (abort c kind s).construct = s.construct := rfl
@[simp] theorem abort_panel (c : Cfg) (kind : FaultKind) (s : State) : (abort c kind s).panel = (s.panel.react c (.fault kind s.k)).react c (.respond (.err kind)) := rfl
@[simp] theorem abort_env (c : Cfg) (kind : FaultKind) (s : State) : (abort c kind s).env = s.env := rfl

/-! ### acceptRequest -/

@[simp] theorem acceptRequest_seq (c : Cfg) (r : Request) (s : State) : (acceptRequest c r s).seq = .exec := rfl
@[simp] theorem acceptRequest_req (c : Cfg) (r : Request) (s : State) : (acceptRequest c r s).req = some r := rfl
@[simp] theorem acceptRequest_steps (c : Cfg) (r : Request) (s : State) : (acceptRequest c r s).steps = stepList c r s.bg := rfl
@[simp] theorem acceptRequest_k (c : Cfg) (r : Request) (s : State) : (acceptRequest c r s).k = 0 := rfl
@[simp] theorem acceptRequest_bg (c : Cfg) (r : Request) (s : State) : (acceptRequest c r s).bg = s.bg := rfl
@[simp] theorem acceptRequest_life (c : Cfg) (r : Request) (s : State) : (acceptRequest c r s).life = s.life := rfl
@[simp] theorem acceptRequest_violation (c : Cfg) (r : Request) (s : State) : (acceptRequest c r s).violation = (s.violation || violates c r s.life) := rfl
@[simp] theorem acceptRequest_refused (c : Cfg) (r : Request) (s : State) : (acceptRequest c r s).refused = s.refused := rfl
@[simp] theorem acceptRequest_dc (c : Cfg) (r : Request) (s : State) : (acceptRequest c r s).dc = s.dc := rfl
@[simp] theorem acceptRequest_rst (c : Cfg) (r : Request) (s : State) : (acceptRequest c r s).rst = s.rst := rfl
@[simp] theorem acceptRequest_trace (c : Cfg) (r : Request) (s : State) : (acceptRequest c r s).trace = s.trace ++ [.accept r] := rfl
@[simp] theorem acceptRequest_resp (c : Cfg) (r : Request) (s : State) : (acceptRequest c r s).resp = s.resp := rfl
@[simp] theorem acceptRequest_construct (c : Cfg) (r : Request) (s : State) : (acceptRequest c r s).construct = s.construct := rfl
@[simp] theorem acceptRequest_panel (c : Cfg) (r : Request) (s : State) : (acceptRequest c r s).panel = s.panel.react c (.accept r) := rfl
@[simp] theorem acceptRequest_env (c : Cfg) (r : Request) (s : State) : (acceptRequest c r s).env = s.env := rfl

/-! ### refuseRequest -/

@[simp] theorem refuseRequest_seq (s : State) : (refuseRequest s).seq = s.seq := rfl
@[simp] theorem refuseRequest_req (s : State) : (refuseRequest s).req = s.req := rfl
@[simp] theorem refuseRequest_steps (s : State) : (refuseRequest s).steps = s.steps := rfl
@[simp] theorem refuseRequest_k (s : State) : (refuseRequest s).k = s.k := rfl
@[simp] theorem refuseRequest_bg (s : State) : (refuseRequest s).bg = s.bg := rfl
@[simp] theorem refuseRequest_life (s : State) : (refuseRequest s).life = s.life := rfl
@[simp] theorem refuseRequest_violation (s : State) : (refuseRequest s).violation = s.violation := rfl
@[simp] theorem refuseRequest_refused (s : State) : (refuseRequest s).refused = true := rfl
@[simp] theorem refuseRequest_dc (s : State) : (refuseRequest s).dc = s.dc := rfl
@[simp] theorem refuseRequest_rst (s : State) : (refuseRequest s).rst = s.rst := rfl
@[simp] theorem refuseRequest_trace (s : State) : (refuseRequest s).trace = s.trace := rfl
@[simp] theorem refuseRequest_resp (s : State) : (refuseRequest s).resp = s.resp := rfl
@[simp] theorem refuseRequest_construct (s : State) : (refuseRequest s).construct = s.construct := rfl
@[simp] theorem refuseRequest_panel (s : State) : (refuseRequest s).panel = s.panel := rfl
@[simp] theorem refuseRequest_env (s : State) : (refuseRequest s).env = s.env := rfl

/-! ### holdOffer -/

@[simp] theorem holdOffer_seq (w : RequestWord) (s : State) : (holdOffer w s).seq = s.seq := rfl
@[simp] theorem holdOffer_req (w : RequestWord) (s : State) : (holdOffer w s).req = s.req := rfl
@[simp] theorem holdOffer_steps (w : RequestWord) (s : State) : (holdOffer w s).steps = s.steps := rfl
@[simp] theorem holdOffer_k (w : RequestWord) (s : State) : (holdOffer w s).k = s.k := rfl
@[simp] theorem holdOffer_bg (w : RequestWord) (s : State) : (holdOffer w s).bg = s.bg := rfl
@[simp] theorem holdOffer_life (w : RequestWord) (s : State) : (holdOffer w s).life = s.life := rfl
@[simp] theorem holdOffer_violation (w : RequestWord) (s : State) : (holdOffer w s).violation = s.violation := rfl
@[simp] theorem holdOffer_refused (w : RequestWord) (s : State) : (holdOffer w s).refused = s.refused := rfl
@[simp] theorem holdOffer_dc (w : RequestWord) (s : State) : (holdOffer w s).dc = s.dc := rfl
@[simp] theorem holdOffer_rst (w : RequestWord) (s : State) : (holdOffer w s).rst = s.rst := rfl
@[simp] theorem holdOffer_trace (w : RequestWord) (s : State) : (holdOffer w s).trace = s.trace := rfl
@[simp] theorem holdOffer_resp (w : RequestWord) (s : State) : (holdOffer w s).resp = s.resp := rfl
@[simp] theorem holdOffer_construct (w : RequestWord) (s : State) : (holdOffer w s).construct = s.construct := rfl
@[simp] theorem holdOffer_panel (w : RequestWord) (s : State) : (holdOffer w s).panel = s.panel := rfl
@[simp] theorem holdOffer_env (w : RequestWord) (s : State) : (holdOffer w s).env = { s.env with offers := w :: s.env.offers } := rfl

/-! ### Env.drawDc -/

@[simp] theorem Env.drawDc_dc (e : Env) : (e.drawDc.2).dc = (e.dc.next Config.freeDc).2 := rfl
@[simp] theorem Env.drawDc_rst (e : Env) : (e.drawDc.2).rst = e.rst := rfl
@[simp] theorem Env.drawDc_bus (e : Env) : (e.drawDc.2).bus = e.bus := rfl
@[simp] theorem Env.drawDc_busy (e : Env) : (e.drawDc.2).busy = e.busy := rfl
@[simp] theorem Env.drawDc_finish (e : Env) : (e.drawDc.2).finish = e.finish := rfl
@[simp] theorem Env.drawDc_offers (e : Env) : (e.drawDc.2).offers = e.offers := rfl
theorem Env.drawDc_fst (e : Env) : e.drawDc.1 = (e.dc.next Config.freeDc).1 := rfl

/-! ### Env.drawRst -/

@[simp] theorem Env.drawRst_dc (e : Env) : (e.drawRst.2).dc = e.dc := rfl
@[simp] theorem Env.drawRst_rst (e : Env) : (e.drawRst.2).rst = (e.rst.next Config.freeRst).2 := rfl
@[simp] theorem Env.drawRst_bus (e : Env) : (e.drawRst.2).bus = e.bus := rfl
@[simp] theorem Env.drawRst_busy (e : Env) : (e.drawRst.2).busy = e.busy := rfl
@[simp] theorem Env.drawRst_finish (e : Env) : (e.drawRst.2).finish = e.finish := rfl
@[simp] theorem Env.drawRst_offers (e : Env) : (e.drawRst.2).offers = e.offers := rfl
theorem Env.drawRst_fst (e : Env) : e.drawRst.1 = (e.rst.next Config.freeRst).1 := rfl

/-! ### Env.drawBus -/

@[simp] theorem Env.drawBus_dc (e : Env) : (e.drawBus.2).dc = e.dc := rfl
@[simp] theorem Env.drawBus_rst (e : Env) : (e.drawBus.2).rst = e.rst := rfl
@[simp] theorem Env.drawBus_bus (e : Env) : (e.drawBus.2).bus = (e.bus.next Config.freeBus).2 := rfl
@[simp] theorem Env.drawBus_busy (e : Env) : (e.drawBus.2).busy = e.busy := rfl
@[simp] theorem Env.drawBus_finish (e : Env) : (e.drawBus.2).finish = e.finish := rfl
@[simp] theorem Env.drawBus_offers (e : Env) : (e.drawBus.2).offers = e.offers := rfl
theorem Env.drawBus_fst (e : Env) : e.drawBus.1 = (e.bus.next Config.freeBus).1 := rfl

/-! ### Env.drawBusy -/

@[simp] theorem Env.drawBusy_dc (e : Env) : (e.drawBusy.2).dc = e.dc := rfl
@[simp] theorem Env.drawBusy_rst (e : Env) : (e.drawBusy.2).rst = e.rst := rfl
@[simp] theorem Env.drawBusy_bus (e : Env) : (e.drawBusy.2).bus = e.bus := rfl
@[simp] theorem Env.drawBusy_busy (e : Env) : (e.drawBusy.2).busy = (e.busy.next Config.freeBusy).2 := rfl
@[simp] theorem Env.drawBusy_finish (e : Env) : (e.drawBusy.2).finish = e.finish := rfl
@[simp] theorem Env.drawBusy_offers (e : Env) : (e.drawBusy.2).offers = e.offers := rfl
theorem Env.drawBusy_fst (e : Env) : e.drawBusy.1 = (e.busy.next Config.freeBusy).1 := rfl

/-! ### Env.drawFinish -/

@[simp] theorem Env.drawFinish_dc (e : Env) : (e.drawFinish.2).dc = e.dc := rfl
@[simp] theorem Env.drawFinish_rst (e : Env) : (e.drawFinish.2).rst = e.rst := rfl
@[simp] theorem Env.drawFinish_bus (e : Env) : (e.drawFinish.2).bus = e.bus := rfl
@[simp] theorem Env.drawFinish_busy (e : Env) : (e.drawFinish.2).busy = e.busy := rfl
@[simp] theorem Env.drawFinish_finish (e : Env) : (e.drawFinish.2).finish = (e.finish.next Config.freeFinish).2 := rfl
@[simp] theorem Env.drawFinish_offers (e : Env) : (e.drawFinish.2).offers = e.offers := rfl
theorem Env.drawFinish_fst (e : Env) : e.drawFinish.1 = (e.finish.next Config.freeFinish).1 := rfl

/-! ### The ends of an attempt -/

@[simp] theorem Attempt.done_andThen (s : State) (f : State → Attempt) : (Attempt.done s).andThen f = f s := rfl
@[simp] theorem Attempt.fault_andThen (kind : FaultKind) (s : State) (f : State → Attempt) :
    (Attempt.fault kind s).andThen f = .fault kind s := rfl
@[simp] theorem settle_done (c : Cfg) (s : State) : settle c (.done s) = s.advance := rfl
@[simp] theorem settle_fault (c : Cfg) (kind : FaultKind) (s : State) : settle c (.fault kind s) = abort c kind s := rfl

/-! ### Draws -/

@[simp] theorem Draws.next_cons {α : Type} (free : Nat → α) (a : α) (rest : List α) (n : Nat) :
    Draws.next free { script := a :: rest, taken := n } = (a, { script := rest, taken := n }) := rfl
@[simp] theorem Draws.next_nil {α : Type} (free : Nat → α) (n : Nat) :
    Draws.next free { script := [], taken := n } = (free n, { script := [], taken := n + 1 }) := rfl

/-! ### Completion -/

theorem complete_of_req (c : Cfg) (r : Request) (s : State) (h : s.req = some r) :
    complete c s =
      (({ s with
          life := lifeAfter r s.life
          bg := bgAfter r s.bg
          resp := some (result c r (bgAfter r s.bg)) }).emit c (.respond (result c r (bgAfter r s.bg)))).toIdle := by
  simp [complete, h]

theorem complete_of_none (c : Cfg) (s : State) (h : s.req = none) : complete c s = s.toIdle := by simp [complete, h]

end Sys2Proof.Machine
end

