-- ==== Sys2Proof/Laws/Ops.lean ====
section
/-! SUPPORT. What each shared operation of the block can do, said once: the transport primitives and steps, the end of a
step, the panel's turn, one block transition, and the meaning of an encoded instruction. Later proofs cite these and
unfold none of the operations. -/

namespace Sys2Proof.Machine

/-! ### Lists of events at the panel -/

@[simp] theorem Panel.reactAll_nil (c : Cfg) (p : Panel) : p.reactAll c [] = p := rfl
@[simp] theorem Panel.reactAll_cons (c : Cfg) (e : Event) (es : List Event) (p : Panel) :
    p.reactAll c (e :: es) = (p.react c e).reactAll c es := rfl
theorem Panel.reactAll_append (c : Cfg) (es fs : List Event) (p : Panel) :
    p.reactAll c (es ++ fs) = (p.reactAll c es).reactAll c fs := by
  simp [Panel.reactAll, List.foldl_append]

/-- The panel's undefined state is sticky under every event (R269). -/
theorem Panel.react_undef (c : Cfg) (e : Event) (p : Panel) (h : p.undef = true) : (p.react c e).undef = true := by
  rw [Panel.react_of_undef c e p h]
  obtain ⟨b, hb⟩ := Panel.onUndef_eq e p
  rw [hb]
  exact h

theorem Panel.reactAll_undef (c : Cfg) (es : List Event) (p : Panel) (h : p.undef = true) :
    (p.reactAll c es).undef = true := by
  induction es generalizing p with
  | nil => exact h
  | cons e es ih => exact ih _ (Panel.react_undef c e p h)

theorem Panel.reactAll_inv (c : Cfg) (hW : c.W ≤ 256) (es : List Event) (p : Panel) (h : p.Inv) :
    (p.reactAll c es).Inv := by
  induction es generalizing p with
  | nil => exact h
  | cons e es ih => exact ih _ (Panel.react_inv c hW e h)

/-! ### Line events (R213) -/

@[simp] theorem lineEvents_nil : lineEvents [] = [] := rfl
@[simp] theorem lineEvents_append (a b : List Event) : lineEvents (a ++ b) = lineEvents a ++ lineEvents b := by
  simp [lineEvents]
@[simp] theorem lineEvents_accept (r : Request) : lineEvents [.accept r] = [] := rfl
@[simp] theorem lineEvents_respond (r : Response) : lineEvents [.respond r] = [] := rfl
@[simp] theorem lineEvents_fault (kind : FaultKind) (k : Nat) : lineEvents [.fault kind k] = [.fault kind 0] := rfl

/-! ### The panel's turn (R188, R253) -/

/-- The panel's turn changes the panel, by finishing, and uses finish draws; nothing else. -/
theorem panelTurn_cases (c : Cfg) (s : State) :
    ∃ f p, panelTurn c s = { s with env := { s.env with finish := f }, panel := p } ∧
      (p = s.panel ∨ p = s.panel.finish c) := by
  unfold panelTurn
  cases s.panel.pending with
  | none => exact ⟨s.env.finish, s.panel, rfl, .inl rfl⟩
  | some e =>
    simp only
    split
    · exact ⟨_, _, rfl, .inr rfl⟩
    · exact ⟨_, s.panel, rfl, .inl rfl⟩

@[simp] theorem panelTurn_seq (c : Cfg) (s : State) : (panelTurn c s).seq = s.seq := by
  obtain ⟨f, p, h, -⟩ := panelTurn_cases c s
  rw [h]
@[simp] theorem panelTurn_req (c : Cfg) (s : State) : (panelTurn c s).req = s.req := by
  obtain ⟨f, p, h, -⟩ := panelTurn_cases c s
  rw [h]
@[simp] theorem panelTurn_steps (c : Cfg) (s : State) : (panelTurn c s).steps = s.steps := by
  obtain ⟨f, p, h, -⟩ := panelTurn_cases c s
  rw [h]
@[simp] theorem panelTurn_k (c : Cfg) (s : State) : (panelTurn c s).k = s.k := by
  obtain ⟨f, p, h, -⟩ := panelTurn_cases c s
  rw [h]
@[simp] theorem panelTurn_bg (c : Cfg) (s : State) : (panelTurn c s).bg = s.bg := by
  obtain ⟨f, p, h, -⟩ := panelTurn_cases c s
  rw [h]
@[simp] theorem panelTurn_life (c : Cfg) (s : State) : (panelTurn c s).life = s.life := by
  obtain ⟨f, p, h, -⟩ := panelTurn_cases c s
  rw [h]
@[simp] theorem panelTurn_violation (c : Cfg) (s : State) : (panelTurn c s).violation = s.violation := by
  obtain ⟨f, p, h, -⟩ := panelTurn_cases c s
  rw [h]
@[simp] theorem panelTurn_refused (c : Cfg) (s : State) : (panelTurn c s).refused = s.refused := by
  obtain ⟨f, p, h, -⟩ := panelTurn_cases c s
  rw [h]
@[simp] theorem panelTurn_dc (c : Cfg) (s : State) : (panelTurn c s).dc = s.dc := by
  obtain ⟨f, p, h, -⟩ := panelTurn_cases c s
  rw [h]
@[simp] theorem panelTurn_rst (c : Cfg) (s : State) : (panelTurn c s).rst = s.rst := by
  obtain ⟨f, p, h, -⟩ := panelTurn_cases c s
  rw [h]
@[simp] theorem panelTurn_trace (c : Cfg) (s : State) : (panelTurn c s).trace = s.trace := by
  obtain ⟨f, p, h, -⟩ := panelTurn_cases c s
  rw [h]
@[simp] theorem panelTurn_resp (c : Cfg) (s : State) : (panelTurn c s).resp = s.resp := by
  obtain ⟨f, p, h, -⟩ := panelTurn_cases c s
  rw [h]
@[simp] theorem panelTurn_construct (c : Cfg) (s : State) : (panelTurn c s).construct = s.construct := by
  obtain ⟨f, p, h, -⟩ := panelTurn_cases c s
  rw [h]
@[simp] theorem panelTurn_env_dc (c : Cfg) (s : State) : (panelTurn c s).env.dc = s.env.dc := by
  obtain ⟨f, p, h, -⟩ := panelTurn_cases c s
  rw [h]
@[simp] theorem panelTurn_env_rst (c : Cfg) (s : State) : (panelTurn c s).env.rst = s.env.rst := by
  obtain ⟨f, p, h, -⟩ := panelTurn_cases c s
  rw [h]
@[simp] theorem panelTurn_env_bus (c : Cfg) (s : State) : (panelTurn c s).env.bus = s.env.bus := by
  obtain ⟨f, p, h, -⟩ := panelTurn_cases c s
  rw [h]
@[simp] theorem panelTurn_env_busy (c : Cfg) (s : State) : (panelTurn c s).env.busy = s.env.busy := by
  obtain ⟨f, p, h, -⟩ := panelTurn_cases c s
  rw [h]
@[simp] theorem panelTurn_env_offers (c : Cfg) (s : State) : (panelTurn c s).env.offers = s.env.offers := by
  obtain ⟨f, p, h, -⟩ := panelTurn_cases c s
  rw [h]

/-- The panel's turn changes the panel and its finish draws only, and depends on nothing else. -/
theorem panelTurn_eq (c : Cfg) (s : State) : panelTurn c s = { s with
    env := { s.env with finish := (panelTurn c s).env.finish }, panel := (panelTurn c s).panel } := by
  obtain ⟨f, p, h, -⟩ := panelTurn_cases c s
  rw [h]

/-- The panel after its turn. -/
theorem panelTurn_panel (c : Cfg) (s : State) : (panelTurn c s).panel =
    if s.panel.pending.isSome = true ∧ (s.env.finish.next Config.freeFinish).1 = true then s.panel.finish c
    else s.panel := by
  unfold panelTurn Env.drawFinish
  cases s.panel.pending with
  | none => rfl
  | some e => cases h : (s.env.finish.next Config.freeFinish).1 <;> simp

/-- The finish draws after the panel's turn: one is used where processing is pending. -/
theorem panelTurn_finish (c : Cfg) (s : State) : (panelTurn c s).env.finish =
    if s.panel.pending.isSome = true then (s.env.finish.next Config.freeFinish).2 else s.env.finish := by
  unfold panelTurn Env.drawFinish
  cases s.panel.pending with
  | none => rfl
  | some e => cases h : (s.env.finish.next Config.freeFinish).1 <;> simp

theorem panelTurn_congr (c : Cfg) {s t : State} (hp : s.panel = t.panel) (hf : s.env.finish = t.env.finish) :
    (panelTurn c s).panel = (panelTurn c t).panel ∧ (panelTurn c s).env.finish = (panelTurn c t).env.finish := by
  simp only [panelTurn_panel, panelTurn_finish, hp, hf, and_self]

theorem panelTurn_of_none (c : Cfg) (s : State) (h : s.panel.pending = none) : panelTurn c s = s := by
  simp [panelTurn, h]

/-! ### The panel over events, finishing when it will (R188) -/

/-- `q` is what the panel `p` can be after the events, in order, when its processing may finish before, between and
after them. -/
inductive Panel.Follows (c : Cfg) : List Event → Panel → Panel → Prop
  | nil (p : Panel) : Panel.Follows c [] p p
  | event (e : Event) {es : List Event} {p q : Panel} (h : Panel.Follows c es (p.react c e) q) :
      Panel.Follows c (e :: es) p q
  | finish {es : List Event} {p q : Panel} (hp : p.pending.isSome = true) (h : Panel.Follows c es (p.finish c) q) :
      Panel.Follows c es p q

theorem Panel.Follows.trans {c : Cfg} {es fs : List Event} {p q r : Panel} (h : Panel.Follows c es p q)
    (h' : Panel.Follows c fs q r) : Panel.Follows c (es ++ fs) p r := by
  induction h with
  | nil => exact h'
  | event e _ ih => exact .event e (ih h')
  | finish hp _ ih => exact .finish hp (ih h')

theorem Panel.Follows.single (c : Cfg) (e : Event) (p : Panel) : Panel.Follows c [e] p (p.react c e) :=
  .event e (.nil _)

/-- The panel's turn is a finish or nothing. -/
theorem Panel.Follows.turn (c : Cfg) (s : State) : Panel.Follows c [] s.panel (panelTurn c s).panel := by
  unfold panelTurn
  cases h : s.panel.pending with
  | none => exact .nil _
  | some e =>
    simp only
    split
    · exact .finish (by simp [h]) (.nil _)
    · exact .nil _

/-- The first event comes after some finishes, and the rest follows its reaction. -/
theorem Panel.Follows.uncons {c : Cfg} {e : Event} {es : List Event} {p q : Panel} (h : Panel.Follows c (e :: es) p q) :
    ∃ p', Panel.Follows c [] p p' ∧ Panel.Follows c es (p'.react c e) q := by
  generalize hl : e :: es = l at h
  induction h with
  | nil => cases hl
  | event e' h' _ => cases hl; exact ⟨_, .nil _, h'⟩
  | finish hp _ ih =>
    obtain ⟨p', h1, h2⟩ := ih hl
    exact ⟨p', .finish hp h1, h2⟩

/-- A property of the panel that finishing keeps holds after finishes alone. -/
theorem Panel.Follows.keeps {c : Cfg} {P : Panel → Prop} (hP : ∀ p, p.pending.isSome = true → P p → P (p.finish c))
    {p q : Panel} (h : Panel.Follows c [] p q) (hp : P p) : P q := by
  generalize hl : ([] : List Event) = l at h
  induction h with
  | nil => exact hp
  | event => cases hl
  | finish hs _ ih => exact ih (hP _ hs hp) hl

/-- The undefined state is sticky, however the panel finishes (R269). -/
theorem Panel.Follows.undef {c : Cfg} {es : List Event} {p q : Panel} (h : Panel.Follows c es p q)
    (hu : p.undef = true) : q.undef = true := by
  induction h with
  | nil => exact hu
  | event e _ ih => exact ih (Panel.react_undef c e _ hu)
  | finish hp _ ih => exact ih (by rw [Panel.finish_undef]; exact hu)

/-- A panel that keeps its invariant does so however it finishes. -/
theorem Panel.Follows.inv {c : Cfg} (hW : c.W ≤ 256) {es : List Event} {p q : Panel} (h : Panel.Follows c es p q)
    (hi : p.Inv) : q.Inv := by
  induction h with
  | nil => exact hi
  | event e _ ih => exact ih (Panel.react_inv c hW e hi)
  | finish hp _ ih =>
    apply ih
    rename_i p q _
    cases hu : p.undef with
    | true =>
      have hb := hi.busyPending.mpr hp
      rw [(hi.undefUnknown hu).2.1] at hb
      cases hb
    | false => exact Panel.finish_inv c hW hi hu

/-! ### What the primitives of a step may change (R171 to R173) -/

/-- `t` is `s` after some primitives of a step: events appended and delivered to the panel, which may finish between them,
draws used, output lines driven; nothing else. -/
structure Touches (c : Cfg) (s t : State) (evs : List Event) : Prop where
  seq : t.seq = s.seq
  req : t.req = s.req
  steps : t.steps = s.steps
  k : t.k = s.k
  bg : t.bg = s.bg
  life : t.life = s.life
  violation : t.violation = s.violation
  refused : t.refused = s.refused
  resp : t.resp = s.resp
  construct : t.construct = s.construct
  offers : t.env.offers = s.env.offers
  trace : t.trace = s.trace ++ evs
  panel : Panel.Follows c evs s.panel t.panel

theorem Touches.refl (c : Cfg) (s : State) : Touches c s s [] := by
  constructor <;> first | exact .nil _ | simp

theorem Touches.trans {c : Cfg} {s t u : State} {es fs : List Event} (h : Touches c s t es) (h' : Touches c t u fs) :
    Touches c s u (es ++ fs) where
  seq := h'.seq.trans h.seq
  req := h'.req.trans h.req
  steps := h'.steps.trans h.steps
  k := h'.k.trans h.k
  bg := h'.bg.trans h.bg
  life := h'.life.trans h.life
  violation := h'.violation.trans h.violation
  refused := h'.refused.trans h.refused
  resp := h'.resp.trans h.resp
  construct := h'.construct.trans h.construct
  offers := h'.offers.trans h.offers
  trace := by rw [h'.trace, h.trace, List.append_assoc]
  panel := h.panel.trans h'.panel

theorem Touches.emit (c : Cfg) (e : Event) (s : State) : Touches c s (s.emit c e) [e] := by
  constructor <;> first | exact Panel.Follows.single c e s.panel | simp

theorem Touches.turn (c : Cfg) (s : State) : Touches c s (panelTurn c s) [] := by
  constructor <;> first | exact Panel.Follows.turn c s | simp

/-- The state an attempt leaves, whether it is done or has faulted. -/
def Attempt.state : Attempt → State
  | .done s => s
  | .fault _ s => s

@[simp] theorem Attempt.state_done (s : State) : (Attempt.done s).state = s := rfl
@[simp] theorem Attempt.state_fault (kind : FaultKind) (s : State) : (Attempt.fault kind s).state = s := rfl

/-- `setDc` (R171): done with the line driven, or DcOutput with the line as it was. -/
theorem setDc_cases (lvl : DcLevel) (s : State) :
    (s.env.drawDc.1 = .ok ∧ setDc lvl s = .done { s with env := s.env.drawDc.2, dc := lvl }) ∨
      (s.env.drawDc.1 = .fail ∧ setDc lvl s = .fault .dcOutput { s with env := s.env.drawDc.2 }) := by
  unfold setDc
  cases h : s.env.drawDc.1 <;> simp

/-- `setRst` (R173): done with the line driven and its event, or RstOutput with nothing done. -/
theorem setRst_cases (c : Cfg) (d : RstDrive) (s : State) :
    (s.env.drawRst.1 = .ok ∧
        setRst c d s = .done (({ s with env := s.env.drawRst.2, rst := d.toLevel }).emit c (.rst d))) ∨
      (s.env.drawRst.1 = .fail ∧ setRst c d s = .fault .rstOutput { s with env := s.env.drawRst.2 }) := by
  unfold setRst
  cases h : s.env.drawRst.1 <;> simp

/-- `busWrite` (R171, R172, R180): done with the event of all bytes, or Bus with the event of the delivered prefix. -/
theorem busWrite_cases (c : Cfg) (bs : List Byte) (event : List Byte → Event) (s : State) :
    (s.env.drawBus.1 = .ok ∧ busWrite c bs event s = .done (({ s with env := s.env.drawBus.2 }).emit c (event bs))) ∨
      ∃ n, s.env.drawBus.1 = .fault n ∧
        busWrite c bs event s = .fault .bus
          (if bs.take n = [] then { s with env := s.env.drawBus.2 }
           else ({ s with env := s.env.drawBus.2 }).emit c (event (bs.take n))) := by
  unfold busWrite
  cases h : s.env.drawBus.1 <;> simp

/-- What `setDc` then `busWrite` leaves: at most one event, the line at its old level or the new one, and the step index
untouched. -/
theorem send_touches (c : Cfg) (lvl : DcLevel) (bs : List Byte) (event : List Byte → Event) (s : State) :
    ∃ evs, Touches c s ((setDc lvl s).andThen (busWrite c bs event)).state evs ∧
      (evs = [] ∨ ∃ n, evs = [event (bs.take n)]) ∧
      ((setDc lvl s).andThen (busWrite c bs event)).state.rst = s.rst ∧
      (((setDc lvl s).andThen (busWrite c bs event)).state.dc = s.dc ∨
        ((setDc lvl s).andThen (busWrite c bs event)).state.dc = lvl) := by
  rcases setDc_cases lvl s with ⟨_, h⟩ | ⟨_, h⟩
  · rw [h, Attempt.done_andThen]
    rcases busWrite_cases c bs event { s with env := s.env.drawDc.2, dc := lvl } with ⟨_, h'⟩ | ⟨n, _, h'⟩
    · rw [h']
      refine ⟨[event bs], ?_, .inr ⟨bs.length, by simp⟩, rfl, .inr rfl⟩
      constructor <;> first | exact Panel.Follows.single c _ _ | simp
    · rw [h']
      by_cases hn : bs.take n = []
      · refine ⟨[], ?_, .inl rfl, ?_, .inr ?_⟩
        · constructor <;> simp [hn, Panel.Follows.nil]
        · simp [hn]
        · simp [hn]
      · refine ⟨[event (bs.take n)], ?_, .inr ⟨n, rfl⟩, ?_, .inr ?_⟩
        · constructor <;> simp [hn, Panel.Follows.single]
        · simp [hn]
        · simp [hn]
  · rw [h]
    refine ⟨[], ?_, .inl rfl, rfl, .inl rfl⟩
    constructor <;> first | exact .nil _ | simp

/-- An event that is neither an acceptance nor a fault, response or sample: what the primitives of a step append. -/
def Event.isStep : Event → Bool
  | .cmd _ => true
  | .data _ => true
  | .rst _ => true
  | .delay _ => true
  | .accept _ => false
  | .busySample _ => false
  | .fault _ _ => false
  | .respond _ => false

theorem setRst_touches (c : Cfg) (d : RstDrive) (s : State) :
    ∃ evs, Touches c s (setRst c d s).state evs ∧ (∀ e ∈ evs, e.isBytes = false) ∧ (setRst c d s).state.dc = s.dc := by
  rcases setRst_cases c d s with ⟨_, h⟩ | ⟨_, h⟩
  · rw [h]
    refine ⟨[.rst d], ?_, by simp [Event.isBytes], rfl⟩
    constructor <;> first | exact Panel.Follows.single c _ _ | simp
  · rw [h]
    refine ⟨[], ?_, by simp, rfl⟩
    constructor <;> first | exact .nil _ | simp

/-- A delay of the pulse: its event, and then the panel's turn. -/
@[simp] theorem pulseDelay_eq (c : Cfg) (us : Nat) (s : State) :
    pulseDelay c us s = .done (panelTurn c (s.emit c (.delay us))) := rfl

theorem andThen_touches {c : Cfg} {s : State} {a : Attempt} {f : State → Attempt}
    (ha : ∃ evs, Touches c s a.state evs ∧ (∀ e ∈ evs, e.isBytes = false) ∧ a.state.dc = s.dc)
    (hf : ∀ t, ∃ evs, Touches c t (f t).state evs ∧ (∀ e ∈ evs, e.isBytes = false) ∧ (f t).state.dc = t.dc) :
    ∃ evs, Touches c s (a.andThen f).state evs ∧ (∀ e ∈ evs, e.isBytes = false) ∧ (a.andThen f).state.dc = s.dc := by
  cases a with
  | done t =>
    obtain ⟨es, h1, h2, h3⟩ := ha
    obtain ⟨fs, h4, h5, h6⟩ := hf t
    exact ⟨es ++ fs, h1.trans h4, fun e he => (List.mem_append.mp he).elim (h2 e) (h5 e), h6.trans h3⟩
  | fault kind t => exact ha

/-- What a reset pulse leaves (R173): reset and delay events only, dc as it was. -/
theorem hwReset_touches (c : Cfg) (d1 d2 : Nat) (s : State) :
    ∃ evs, Touches c s (hwReset c d1 d2 s).state evs ∧ (∀ e ∈ evs, e.isBytes = false) ∧
      (hwReset c d1 d2 s).state.dc = s.dc := by
  have hd : ∀ us t, ∃ evs, Touches c t (pulseDelay c us t).state evs ∧ (∀ e ∈ evs, e.isBytes = false) ∧
      (pulseDelay c us t).state.dc = t.dc := fun us t =>
    ⟨[.delay us], (Touches.emit c _ t).trans (Touches.turn c _), by simp [Event.isBytes], by simp⟩
  exact andThen_touches (andThen_touches (andThen_touches (andThen_touches (setRst_touches c _ s) (hd d1))
    (setRst_touches c _)) (hd d2)) (setRst_touches c _)

/-- A write of the reset line that succeeds, by the script. -/
theorem setRst_ok (c : Cfg) (d : RstDrive) {s : State} {rest : List PinDraw} (h : s.env.rst.script = .ok :: rest) :
    setRst c d s = .done (({ s with
      env := { s.env with rst := { s.env.rst with script := rest } }, rst := d.toLevel }).emit c (.rst d)) := by
  simp [setRst, Env.drawRst, Draws.next, h]

/-- A write of the reset line that fails, by the script. -/
theorem setRst_fail (c : Cfg) (d : RstDrive) {s : State} {rest : List PinDraw} (h : s.env.rst.script = .fail :: rest) :
    setRst c d s = .fault .rstOutput { s with env := { s.env with rst := { s.env.rst with script := rest } } } := by
  simp [setRst, Env.drawRst, Draws.next, h]

/-- A reset pulse that is done has appended its five events, the panel following them (R173, R188). -/
theorem hwReset_done {c : Cfg} {d1 d2 : Nat} {s t : State} (h : hwReset c d1 d2 s = .done t) :
    Touches c s t [.rst .deasserted, .delay d1, .rst .asserted, .delay d2, .rst .deasserted] := by
  have bind : ∀ {a : Attempt} {f : State → Attempt} {t : State}, a.andThen f = .done t → ∃ u, a = .done u ∧ f u = .done t := by
    intro a f t h
    cases a with
    | done u => exact ⟨u, rfl, h⟩
    | fault kind u => cases h
  have one : ∀ {d : RstDrive} {x y : State}, setRst c d x = .done y → Touches c x y [.rst d] := by
    intro d x y h
    rcases setRst_cases c d x with ⟨_, h'⟩ | ⟨_, h'⟩
    · rw [h'] at h
      cases h
      constructor <;> first | exact Panel.Follows.single c _ _ | simp
    · rw [h'] at h
      cases h
  have wait : ∀ {us : Nat} {x y : State}, pulseDelay c us x = .done y → Touches c x y [.delay us] := by
    intro us x y h
    cases h
    exact (Touches.emit c _ x).trans (Touches.turn c _)
  obtain ⟨x4, h4, e5⟩ := bind h
  obtain ⟨x3, h3, e4⟩ := bind h4
  obtain ⟨x2, h2, e3⟩ := bind h3
  obtain ⟨x1, h1, e2⟩ := bind h2
  exact ((((one h1).trans (wait e2)).trans (one e3)).trans (wait e4)).trans (one e5)

/-- A reset pulse whose three writes succeed, by the script: done, with its five events, and of the environment only
those draws and finish draws used. -/
theorem hwReset_ok (c : Cfg) (d1 d2 : Nat) {s : State} {rest : List PinDraw}
    (h : s.env.rst.script = .ok :: .ok :: .ok :: rest) :
    ∃ t, hwReset c d1 d2 s = .done t ∧
      Touches c s t [.rst .deasserted, .delay d1, .rst .asserted, .delay d2, .rst .deasserted] ∧ t.dc = s.dc ∧
      t.rst = .deasserted ∧
      t.env = { s.env with rst := { s.env.rst with script := rest }, finish := t.env.finish } := by
  have one : ∀ (d : RstDrive) (x : State) (r : List PinDraw), x.env.rst.script = .ok :: r →
      ∃ y, setRst c d x = .done y ∧ Touches c x y [.rst d] ∧ y.dc = x.dc ∧ y.rst = d.toLevel ∧
        y.env = { x.env with rst := { x.env.rst with script := r } } := by
    intro d x r hx
    refine ⟨_, setRst_ok c d hx, ?_, rfl, rfl, rfl⟩
    constructor <;> first | exact Panel.Follows.single c _ _ | simp
  have wait : ∀ (us : Nat) (x : State), ∃ y, pulseDelay c us x = .done y ∧ Touches c x y [.delay us] ∧ y.dc = x.dc ∧
      y.env = { x.env with finish := y.env.finish } := by
    intro us x
    refine ⟨_, rfl, (Touches.emit c _ x).trans (Touches.turn c _), by simp, ?_⟩
    rw [panelTurn_eq]
    simp
  obtain ⟨x1, e1, t1, a1, -, v1⟩ := one .deasserted s _ h
  obtain ⟨x2, e2, t2, a2, v2⟩ := wait d1 x1
  obtain ⟨x3, e3, t3, a3, -, v3⟩ := one .asserted x2 (.ok :: rest) (by rw [v2, v1])
  obtain ⟨x4, e4, t4, a4, v4⟩ := wait d2 x3
  obtain ⟨x5, e5, t5, a5, b5, v5⟩ := one .deasserted x4 rest (by rw [v4, v3])
  refine ⟨x5, ?_, (((t1.trans t2).trans t3).trans t4).trans t5, by rw [a5, a4, a3, a2, a1], b5, ?_⟩
  · simp only [hwReset, e1, e2, e3, e4, e5, Attempt.done_andThen]
  · rw [v5, v4, v3, v2, v1]

/-! ### One step's panel turn -/

@[simp] theorem thenPanel_next (c : Cfg) (s : State) : thenPanel c (.next s) = .next (panelTurn c s) := rfl

/-! ### One block transition (R185) -/

/-- What one block transition can be. -/
inductive TurnCase (c : Cfg) (s : State) : State → Prop
  /-- Nothing is offered: the state stays. -/
  | quiet (hi : s.seq = .idle) (ho : takeOffer s = none) : TurnCase c s s
  /-- A request is accepted. -/
  | accept (w : RequestWord) (s' : State) (r : Request) (hi : s.seq = .idle) (ho : takeOffer s = some (w, s'))
      (hr : (decodeRequest w).request? = some r) : TurnCase c s (acceptRequest c r s')
  /-- A reserved request is refused. -/
  | refuse (w : RequestWord) (s' : State) (hi : s.seq = .idle) (ho : takeOffer s = some (w, s'))
      (hr : (decodeRequest w).request? = none) : TurnCase c s (refuseRequest s')
  /-- A `Cmd`, `Data`, `HwReset` or `Delay` step is done. -/
  | done (st : Step) (t : State) (evs : List Event) (he : s.seq = .exec) (hst : s.steps[s.k]? = some st)
      (hw : st ≠ .wait) (ht : Touches c s t evs)
      (hdc : t.dc ≠ s.dc → (∃ b, st = .cmd b ∧ t.dc = .low) ∨ ∃ bs, st = .data bs ∧ t.dc = .high)
      (hrst : t.rst ≠ s.rst → ∃ d1 d2, st = .hwReset d1 d2) : TurnCase c s t.advance
  /-- A primitive of a `Cmd`, `Data` or `HwReset` step has faulted. -/
  | abort (kind : FaultKind) (st : Step) (t : State) (evs : List Event) (he : s.seq = .exec)
      (hst : s.steps[s.k]? = some st) (hw : st ≠ .wait) (ht : Touches c s t evs)
      (hdc : t.dc ≠ s.dc → (∃ b, st = .cmd b ∧ t.dc = .low) ∨ ∃ bs, st = .data bs ∧ t.dc = .high)
      (hrst : t.rst ≠ s.rst → ∃ d1 d2, st = .hwReset d1 d2) : TurnCase c s (Machine.abort c kind t)
  /-- A sample of the busy line is idle. -/
  | idleSample (hs : s.sampling = true) :
      TurnCase c s { (({ s with env := s.env.drawBusy.2 }).emit c (.busySample .idle)).advance with seq := .exec }
  /-- A sample of the busy line is busy. -/
  | busySample (hs : s.sampling = true) :
      TurnCase c s { (({ s with env := s.env.drawBusy.2 }).emit c (.busySample .busy)) with seq := .wait }
  /-- A sample of the busy line has faulted. -/
  | busyFault (hs : s.sampling = true) :
      TurnCase c s (Machine.abort c .busyInput { s with env := s.env.drawBusy.2 })
  /-- The request completes. -/
  | complete (he : s.seq = .exec) (hk : s.steps[s.k]? = none) : TurnCase c s (Machine.complete c s)

theorem sampleBusy_case (c : Cfg) (s : State) (h : s.sampling = true) : TurnCase c s (sampleBusy c s) := by
  unfold sampleBusy
  split
  · exact .busyFault h
  · split
    · exact .idleSample h
    · exact .busySample h

/-- The end of a step whose attempt touches only what `TurnCase.done` and `TurnCase.abort` allow. -/
theorem settle_case (c : Cfg) (s : State) (st : Step) (a : Attempt) (evs : List Event) (he : s.seq = .exec)
    (hst : s.steps[s.k]? = some st) (hw : st ≠ .wait) (ht : Touches c s a.state evs)
    (hdc : a.state.dc ≠ s.dc → (∃ b, st = .cmd b ∧ a.state.dc = .low) ∨ ∃ bs, st = .data bs ∧ a.state.dc = .high)
    (hrst : a.state.rst ≠ s.rst → ∃ d1 d2, st = .hwReset d1 d2) : TurnCase c s (settle c a) := by
  cases a with
  | done t => exact .done st t evs he hst hw ht hdc hrst
  | fault kind t => exact .abort kind st t evs he hst hw ht hdc hrst

/-- Every block transition is one of the cases. -/
theorem turn_case (c : Cfg) (s : State) : TurnCase c s (turn c s) := by
  unfold turn
  cases hseq : s.seq with
  | idle =>
    simp only
    cases ho : takeOffer s with
    | none => exact .quiet hseq ho
    | some p =>
      obtain ⟨w, s'⟩ := p
      simp only
      cases hr : (decodeRequest w).request? with
      | some r => exact .accept w s' r hseq ho hr
      | none => exact .refuse w s' hseq ho hr
  | wait => exact sampleBusy_case c s (by simp [State.sampling, hseq])
  | exec =>
    unfold stepTurn
    cases hst : s.steps[s.k]? with
    | none => exact .complete hseq hst
    | some st =>
      cases st with
      | cmd b =>
        obtain ⟨evs, h1, -, h3, h4⟩ := send_touches c .low [b] (fun _ => .cmd b) s
        refine settle_case c s (.cmd b) _ evs hseq hst (by simp) h1 (fun h => .inl ⟨b, rfl, ?_⟩) (fun h => absurd h3 h)
        exact h4.resolve_left h
      | data bs =>
        obtain ⟨evs, h1, -, h3, h4⟩ := send_touches c .high bs .data s
        refine settle_case c s (.data bs) _ evs hseq hst (by simp) h1 (fun h => .inr ⟨bs, rfl, ?_⟩)
          (fun h => absurd h3 h)
        exact h4.resolve_left h
      | hwReset d1 d2 =>
        obtain ⟨evs, h1, -, h3⟩ := hwReset_touches c d1 d2 s
        exact settle_case c s (.hwReset d1 d2) _ evs hseq hst (by simp) h1 (fun h => absurd h3 h)
          (fun _ => ⟨d1, d2, rfl⟩)
      | delay us =>
        exact settle_case c s (.delay us) (delayFor c us s) [.delay us] hseq hst (by simp) (Touches.emit c _ s)
          (fun h => absurd rfl h) (fun h => absurd rfl h)
      | wait => exact sampleBusy_case c s (by simp [State.sampling, hseq, hst])

/-- What taking an offer changes: the construction bit and the offers. -/
theorem takeOffer_eq {s s' : State} {w : RequestWord} (h : takeOffer s = some (w, s')) :
    ∃ b os, s' = { s with construct := b, env := { s.env with offers := os } } := by
  unfold takeOffer at h
  split at h
  · cases h
    exact ⟨false, s.env.offers, rfl⟩
  · split at h
    · cases h
      exact ⟨s.construct, _, rfl⟩
    · cases h

/-! ### Runs -/

/-- A run of one step more: the step, then the run from where it leads. -/
theorem run_succ (n : Nat) {s t : State} (h : step s = .next t) :
    Sys2Proof.core.run (n + 1) s = Sys2Proof.core.run n t := by
  simp only [Host.Core.run, show Sys2Proof.core.step s = .next t from h]

theorem run_zero (s : State) : Sys2Proof.core.run 0 s = .next s := rfl

/-! ### The meanings -/

/-- The meanings of this hardware are those at its configuration. -/
theorem exec_eq_meaningAt (i : Instr) (s : State) : exec i s = meaningAt Config.hw i s := by cases i <;> rfl

/-- At a legal configuration nothing is refused. -/
theorem execAt_of_legal {c : Cfg} (hc : c.legal = true) (i : Instr) (s : State) : execAt c i s = meaningAt c i s := by
  rw [execAt, if_pos hc]

theorem stepAt_of_legal {c : Cfg} (hc : c.legal = true) (s : State) : stepAt c s = stepWith c (meaningAt c) s := by
  rw [stepAt, if_pos hc]

/-- The meaning of a panel command is one block transition of its frame. -/
theorem meaningAt_of_frame {c : Cfg} {i : Instr} {code : Byte} {payload : Option (List Byte)}
    (h : encode c i = .frame code payload) (s : State) : meaningAt c i s = .next (sendFrame c code payload s) := by
  cases i <;> simp only [encode, Encoded.frame.injEq, reduceCtorEq] at h <;> obtain ⟨rfl, rfl⟩ := h <;> rfl

/-- The meaning of a host request is an offer at the port. -/
theorem meaningAt_of_request (c : Cfg) {i : Instr} {r : Request} (h : i.request? = some r) (s : State) :
    ∃ w, encode c i = .request w ∧ meaningAt c i s = .next (offerRequest c w r s) := by
  cases i with
  | setBg col =>
    simp only [Instr.request?, Option.map_eq_some_iff] at h
    obtain ⟨color, hc, rfl⟩ := h
    exact ⟨_, rfl, by simp [meaningAt, execSetBgAt, hc]⟩
  | _ => simp only [Instr.request?, Option.some.injEq, reduceCtorEq] at h <;> subst h <;> exact ⟨_, rfl, rfl⟩

/-- The meaning of what R88 refuses is a refused offer at the port. -/
theorem meaningAt_of_refused {c : Cfg} {i : Instr} {w : RequestWord} (he : encode c i = .request w) (h : i.request? = none)
    (s : State) : meaningAt c i s = .next (offerRefused w s) := by
  cases i with
  | setBg col =>
    simp only [Instr.request?, Option.map_eq_none_iff] at h
    simp only [encode, Encoded.request.injEq] at he
    subst he
    simp [meaningAt, execSetBgAt, h]
  | _ =>
    simp only [encode, Encoded.request.injEq, Instr.request?, reduceCtorEq] at he h <;> subst he <;> rfl

theorem exec_of_frame {i : Instr} {code : Byte} {payload : Option (List Byte)}
    (h : encode Config.hw i = .frame code payload) (s : State) :
    exec i s = .next (sendFrame Config.hw code payload s) := (exec_eq_meaningAt i s).trans (meaningAt_of_frame h s)

theorem exec_of_request {i : Instr} {r : Request} (h : i.request? = some r) (s : State) :
    ∃ w, encode Config.hw i = .request w ∧ exec i s = .next (offerRequest Config.hw w r s) :=
  (meaningAt_of_request Config.hw h s).imp fun _ hw => ⟨hw.1, (exec_eq_meaningAt i s).trans hw.2⟩

theorem exec_of_refused {i : Instr} {w : RequestWord} (he : encode Config.hw i = .request w) (h : i.request? = none)
    (s : State) : exec i s = .next (offerRefused w s) := (exec_eq_meaningAt i s).trans (meaningAt_of_refused he h s)

/-- A frame's step where its payload is due. -/
theorem sendFrame_payload (c : Cfg) (code : Byte) (bs : List Byte) (s : State) (h : s.payloadDue = true) :
    sendFrame c code (some bs) s = settle c (sendData c bs s) := by
  simp [sendFrame, h]

/-- A frame's step where its code is due. -/
theorem sendFrame_code (c : Cfg) (code : Byte) (payload : Option (List Byte)) (s : State)
    (h : s.payloadDue = false ∨ payload = none) : sendFrame c code payload s = settle c (sendCmd c code s) := by
  cases payload with
  | none => rfl
  | some bs =>
    have h : s.payloadDue = false := h.resolve_right (by simp)
    simp [sendFrame, h]

/-- A `Cmd` step whose primitives succeed. -/
theorem settle_sendCmd_ok (c : Cfg) (b : Byte) (s : State) (h : sendsOk s) :
    settle c (sendCmd c b s) = { s with
      env := afterSend s.env
      dc := .low
      trace := s.trace ++ [.cmd b]
      panel := s.panel.react c (.cmd b)
      k := s.k + 1 } := by
  obtain ⟨h1, h2⟩ := h
  have h3 : s.env.drawDc.2.drawBus.1 = .ok := h2
  simp [sendCmd, setDc, h1, busWrite, h3, State.emit, State.advance, afterSend]

/-- A `Data` step whose primitives succeed. -/
theorem settle_sendData_ok (c : Cfg) (bs : List Byte) (s : State) (h : sendsOk s) :
    settle c (sendData c bs s) = { s with
      env := afterSend s.env
      dc := .high
      trace := s.trace ++ [.data bs]
      panel := s.panel.react c (.data bs)
      k := s.k + 1 } := by
  obtain ⟨h1, h2⟩ := h
  have h3 : s.env.drawDc.2.drawBus.1 = .ok := h2
  simp [sendData, setDc, h1, busWrite, h3, State.emit, State.advance, afterSend]

end Sys2Proof.Machine
end

