-- ==== Sys2Proof/Laws/Frames.lean ====
section
/-! SUPPORT. What whole frames and step lists do at the panel: the code and payload of one frame, the window and cursor
subroutines, a region, one byte of a stream inside its window, and what a fill and an image hold. -/

namespace Sys2Proof.Machine

namespace Panel

/-- The panel awaits no payload. -/
def Quiet (p : Panel) : Prop := ∀ m n got, p.frame ≠ .expect m n got

/-- A code byte at a panel that takes bytes and awaits no payload (R252). -/
theorem react_code {p : Panel} {c : Cfg} {b : Byte} {m : PanelCommand} (ht : p.takesBytes = true) (hf : p.Quiet)
    (hm : c.command? b = some m) :
    p.react c (.cmd b) =
      match m.shape with
      | .fixed 0 => runAtCode m { p with frame := .noFrame }
      | .fixed (n + 1) => { p with frame := .expect m (n + 1) [] }
      | .stream => { p with frame := .stream (if m = .writeRamBw then .bw else .red) } := by
  rw [react_cmd _ _ _ ((takesBytes_iff p).mp ht).1]
  unfold onCmd
  simp only [ht, hm]
  cases hfr : p.frame with
  | expect m n got => exact absurd hfr (hf m n got)
  | noFrame => rfl
  | stream pl => rfl

/-- A whole fixed payload at a panel that takes bytes (R252). -/
theorem react_payload {p : Panel} {c : Cfg} {m : PanelCommand} {bs : List Byte} (ht : p.takesBytes = true)
    (hf : p.frame = .expect m bs.length []) :
    p.react c (.data bs) = runCommand c m bs { p with frame := .noFrame } := by
  rw [react_data _ _ _ ((takesBytes_iff p).mp ht).1]
  unfold onData
  simp [ht, hf]

/-- A stream at a panel that takes bytes (R252, R260). -/
theorem react_stream {p : Panel} {c : Cfg} {pl : Plane} (bs : List Byte) (ht : p.takesBytes = true)
    (hf : p.frame = .stream pl) : p.react c (.data bs) = p.writeStream c pl bs := by
  rw [react_data _ _ _ ((takesBytes_iff p).mp ht).1]
  unfold onData
  simp [ht, hf]

/-! ### One byte and a whole stream -/

/-- The panel holds the configured data-entry mode and a window. -/
structure HasWindow (c : Cfg) (p : Panel) (xs xe : BitVec 5) (ys ye : BitVec 9) : Prop where
  dem : p.dem = .known c.demPayload
  wxs : p.wxs = .known xs
  wxe : p.wxe = .known xe
  wys : p.wys = .known ys
  wye : p.wye = .known ye

/-- A byte of a stream with the counters inside the window (R260). -/
theorem writeByte_inside {c : Cfg} {p : Panel} {xs xe x : BitVec 5} {ys ye y : BitVec 9} (pl : Plane) (d : Byte)
    (hw : HasWindow c p xs xe ys ye) (hx : p.xc = .known x) (hy : p.yc = .known y) (h1 : xs ≤ x) (h2 : x ≤ xe)
    (h3 : ys ≤ y) (h4 : y ≤ ye) :
    p.writeByte c pl d = { p.setRam pl ((p.ram pl).write x y (cellValue c x y d)) with
      xc := if x = xe then .known xs else .known (x + 1)
      yc := if x = xe then (if y.toNat = 511 then .unknown else .known (y + 1)) else .known y } := by
  have hcur : p.writeCursor c = some (x, y) := by
    unfold writeCursor
    rw [hw.dem, hw.wxs, hw.wxe, hw.wys, hw.wye, hx, hy]
    simp [h1, h2, h3, h4]
  unfold writeByte
  rw [hcur]
  have f : ∀ m, (p.setRam pl m).wxe = p.wxe ∧ (p.setRam pl m).wxs = p.wxs ∧ (p.setRam pl m).yc = p.yc := by
    intro m
    cases pl <;> exact ⟨rfl, rfl, rfl⟩
  obtain ⟨f1, f2, f3⟩ := f ((p.ram pl).write x y (cellValue c x y d))
  simp only [advanceCursor, f1, hw.wxe, Val.known.injEq]
  split
  · simp [f2, hw.wxs]
  · simp [f3, hy]

/-- What a stream leaves alone: everything but its plane and the counters. -/
theorem writeStream_frame (c : Cfg) (pl : Plane) (bs : List Byte) (p : Panel) :
    ∃ xc yc, p.writeStream c pl bs =
      { p.setRam pl ((p.writeStream c pl bs).ram pl) with xc := xc, yc := yc } := by
  unfold writeStream
  induction bs generalizing p with
  | nil => exact ⟨p.xc, p.yc, by cases pl <;> rfl⟩
  | cons d bs ih =>
    obtain ⟨x, y, m, h⟩ := writeByte_frame c pl p d
    obtain ⟨x', y', h'⟩ := ih (p.writeByte c pl d)
    refine ⟨x', y', ?_⟩
    simp only [List.foldl_cons]
    rw [h', h]
    cases pl <;> rfl

end Panel

/-- Counting on in rows of `g`: the column steps on, or wraps and the row steps on. -/
theorem divMod_succ (n g : Nat) (hg : 0 < g) :
    (n % g + 1 = g ∧ (n + 1) % g = 0 ∧ (n + 1) / g = n / g + 1) ∨
      (n % g + 1 < g ∧ (n + 1) % g = n % g + 1 ∧ (n + 1) / g = n / g) := by
  have e := Nat.div_add_mod n g
  have hr := Nat.mod_lt n hg
  rcases Nat.lt_or_ge (n % g + 1) g with h | h
  · have hn : n + 1 = g * (n / g) + (n % g + 1) := by omega
    refine .inr ⟨h, ?_, ?_⟩
    · conv => lhs; rw [hn, Nat.mul_add_mod, Nat.mod_eq_of_lt h]
    · conv => lhs; rw [hn, Nat.mul_add_div hg, Nat.div_eq_of_lt h]
      simp
  · have hn : n + 1 = g * (n / g + 1) := by rw [Nat.mul_add]; omega
    refine .inl ⟨by omega, ?_, ?_⟩
    · rw [hn, Nat.mul_mod_right]
    · conv => lhs; rw [hn, Nat.mul_div_cancel_left _ hg]

/-! ### Fills and images -/

/-- A filled cell of the panel (R266). -/
theorem Panel.read_fillCells (c : Cfg) (hW : c.W ≤ 256) (phase : Bool) {x y : Nat} (hx : x < c.W) (hy : y < c.H) :
    Sparse.read (Panel.fillCells c phase) (y * 32 + x >>> 3) = .known (if phase then 0xFF else 0x00) := by
  apply Sparse.read_of_mem _ (Panel.fillCells_wf c phase hW)
  simp only [Panel.fillCells, List.mem_flatMap, List.mem_range, List.mem_map]
  refine ⟨y, hy, x >>> 3, ?_, rfl⟩
  simp only [stride, Nat.shiftRight_eq_div_pow]
  omega

/-- Every cell of a filled plane: the fill on the panel, unknown beyond it (R266). -/
theorem Panel.read_fillCells_cell (c : Cfg) (hW : c.W ≤ 256) (phase : Bool) (g : BitVec 5) (y : BitVec 9) :
    Memory.read (Panel.fillCells c phase) g y =
      if g.toNat < stride c ∧ y.toNat < c.H then .known (if phase then 0xFF else 0x00) else .unknown := by
  have hs := stride_eq c
  have hg := g.isLt
  split
  · rename_i h
    apply Sparse.read_of_mem _ (Panel.fillCells_wf c phase hW)
    simp only [Panel.fillCells, List.mem_flatMap, List.mem_range, List.mem_map]
    exact ⟨y.toNat, h.2, g.toNat, h.1, rfl⟩
  · rename_i h
    apply Sparse.read_of_not_mem
    intro v hv
    simp only [Panel.fillCells, List.mem_flatMap, List.mem_range, List.mem_map, Prod.mk.injEq, ramKey] at hv
    obtain ⟨y', hy', g', hg', he, -⟩ := hv
    omega

/-- A pixel of the image an activation shows (R263). -/
theorem Panel.read_image (c : Cfg) (p : Panel) {x y : Nat} (hx : x < c.W) (hy : y < c.H) :
    Sparse.read (p.image c) (y * c.W + x) =
      match p.pixelShown c x y with
      | some col => .known col
      | none => .unknown := by
  cases h : p.pixelShown c x y with
  | some col =>
    apply Sparse.read_of_mem _ (Panel.image_wf c p)
    simp only [Panel.image, List.mem_flatMap, List.mem_range, List.mem_filterMap, Option.map_eq_some_iff]
    exact ⟨y, hy, x, hx, col, h, rfl⟩
  | none =>
    apply Sparse.read_of_not_mem
    intro v hv
    simp only [Panel.image, List.mem_flatMap, List.mem_range, List.mem_filterMap, Option.map_eq_some_iff,
      Prod.mk.injEq] at hv
    obtain ⟨y', hy', x', hx', col, h1, h2, rfl⟩ := hv
    have hyy : y' = y := by
      rcases Nat.lt_trichotomy y' y with h | h | h
      · have hle : (y' + 1) * c.W ≤ y * c.W := Nat.mul_le_mul_right _ h
        rw [Nat.succ_mul] at hle
        omega
      · exact h
      · have hle : (y + 1) * c.W ≤ y' * c.W := Nat.mul_le_mul_right _ h
        rw [Nat.succ_mul] at hle
        omega
    subst hyy
    have hxx : x' = x := by omega
    subst hxx
    rw [h] at h1
    cases h1

/-! ### The events of frames and subroutines at the panel -/

theorem okEvents_append (a b : List Step) : okEvents (a ++ b) = okEvents a ++ okEvents b := by simp [okEvents]

/-- A frame with a fixed payload, sent whole. -/
theorem reactAll_frame {p : Panel} {c : Cfg} {m : PanelCommand} {bs : List Byte} {n : Nat} (hc : c.legal = true)
    (ht : p.takesBytes = true) (hf : p.Quiet) (hs : m.shape = .fixed (n + 1)) (hl : bs.length = n + 1) :
    p.reactAll c (okEvents (frame c m bs)) = Panel.runCommand c m bs { p with frame := .noFrame } := by
  have hfr : frame c m bs = [.cmd (c.code m), .data bs] := by simp [frame, hs]
  simp only [hfr, okEvents, List.flatMap_cons, Step.okEvents, List.flatMap_nil, List.append_nil, List.cons_append,
    List.nil_append, Panel.reactAll_cons, Panel.reactAll_nil]
  rw [Panel.react_code ht hf (Cfg.command?_code hc m), hs]
  simp only
  rw [Panel.react_payload (m := m)]
  · exact ht
  · rw [hl]

/-- A write-RAM frame with its stream. -/
theorem reactAll_stream {p : Panel} {c : Cfg} (pl : Plane) (bs : List Byte) (hc : c.legal = true)
    (ht : p.takesBytes = true) (hf : p.Quiet) :
    p.reactAll c (okEvents (frame c (writeCommand pl) bs)) = Panel.writeStream c pl bs { p with frame := .stream pl } := by
  have hfr : frame c (writeCommand pl) bs = [.cmd (c.code (writeCommand pl)), .data bs] := by cases pl <;> rfl
  have hcode : p.react c (.cmd (c.code (writeCommand pl))) = { p with frame := .stream pl } := by
    rw [Panel.react_code ht hf (Cfg.command?_code hc _)]
    cases pl <;> rfl
  simp only [hfr, okEvents, List.flatMap_cons, Step.okEvents, List.flatMap_nil, List.append_nil, List.cons_append,
    List.nil_append, Panel.reactAll_cons, Panel.reactAll_nil, hcode]
  exact Panel.react_stream bs ht rfl

/-- The column group a pixel column is in, as the chip holds it. -/
def groupOf (x : U32) : BitVec 5 := BitVec.ofNat 5 (x.toNat / 8)

/-- The row of a pixel, as the chip holds it. -/
def rowOf (y : U32) : BitVec 9 := BitVec.ofNat 9 y.toNat

theorem groupOf_xEnc (x : U32) : (xEnc x &&& 0x1f).setWidth 5 = groupOf x := by
  apply BitVec.eq_of_toNat_eq
  rw [BitVec.toNat_setWidth, BitVec.toNat_and, toNat_xEnc, groupOf, BitVec.toNat_ofNat,
    show BitVec.toNat (0x1f : Byte) = 2 ^ 5 - 1 from rfl, Nat.and_two_pow_sub_one_eq_mod]
  omega

theorem rowOf_yEnc (y : U32) : rowOfBytes (yLo y) (yHi y) = rowOf y := by
  apply BitVec.eq_of_toNat_eq
  rw [toNat_rowOfBytes, toNat_yLo, toNat_yHi, rowOf, BitVec.toNat_ofNat]
  omega

/-- SetWindow at the panel (R202, R258). -/
theorem reactAll_setWindow {p : Panel} {c : Cfg} (w : Win) (hc : c.legal = true) (ht : p.takesBytes = true)
    (hf : p.Quiet) :
    p.reactAll c (okEvents (setWindow c w)) = { p with
      wxs := .known (groupOf w.xs)
      wxe := .known (groupOf w.xe)
      wys := .known (rowOf w.ys)
      wye := .known (rowOf w.ye)
      frame := .noFrame } := by
  rw [setWindow, okEvents_append, Panel.reactAll_append, reactAll_frame (n := 1) hc ht hf rfl rfl,
    reactAll_frame (n := 3) hc]
  · simp only [Panel.runCommand, xRangePayload, Panel.with2, Panel.effSetXRange, yRangePayload, yEnc, List.cons_append,
      List.nil_append, Panel.with4, Panel.effSetYRange, groupOf_xEnc, rowOf_yEnc]
  · simp only [Panel.runCommand, xRangePayload, Panel.with2, Panel.effSetXRange]
    exact ht
  · intro m n got
    simp [Panel.runCommand, xRangePayload, Panel.with2, Panel.effSetXRange]
  · rfl
  · rfl

/-- SetCursor at the panel (R203, R259). -/
theorem reactAll_setCursor {p : Panel} {c : Cfg} (x y : U32) (hc : c.legal = true) (ht : p.takesBytes = true)
    (hf : p.Quiet) :
    p.reactAll c (okEvents (setCursor c x y)) =
      { p with xc := .known (groupOf x), yc := .known (rowOf y), frame := .noFrame } := by
  rw [setCursor, okEvents_append, Panel.reactAll_append, reactAll_frame (n := 0) hc ht hf rfl rfl,
    reactAll_frame (n := 1) hc]
  · simp only [Panel.runCommand, xCounterPayload, Panel.with1, Panel.effSetXCounter, yCounterPayload, yEnc, Panel.with2,
      Panel.effSetYCounter, groupOf_xEnc, rowOf_yEnc]
  · simp only [Panel.runCommand, xCounterPayload, Panel.with1, Panel.effSetXCounter]
    exact ht
  · intro m n got
    simp [Panel.runCommand, xCounterPayload, Panel.with1, Panel.effSetXCounter]
  · rfl
  · rfl

/-- UploadRegion at the panel (R205): the stream written from the window's origin. -/
theorem reactAll_uploadRegion {p : Panel} {c : Cfg} (pl : Plane) (bs : List Byte) (w : Win) (hc : c.legal = true)
    (ht : p.takesBytes = true) (hf : p.Quiet) :
    p.reactAll c (okEvents (uploadRegion c pl bs w)) = Panel.writeStream c pl bs { p with
      wxs := .known (groupOf w.xs)
      wxe := .known (groupOf w.xe)
      wys := .known (rowOf w.ys)
      wye := .known (rowOf w.ye)
      xc := .known (groupOf w.xs)
      yc := .known (rowOf w.ys)
      frame := .stream pl } := by
  have hsnap : snapshot bs = bs := by simp [snapshot, memRead]
  rw [uploadRegion, okEvents_append, Panel.reactAll_append, okEvents_append, Panel.reactAll_append,
    reactAll_setWindow w hc ht hf, reactAll_setCursor _ _ hc, reactAll_stream pl _ hc, hsnap]
  · exact ht
  · intro m n got
    simp
  · exact ht
  · intro m n got
    simp

/-- A pattern payload's phase and its other bits (R82). -/
theorem patPayload_bits {c : Cfg} (hc : c.legal = true) (phase : Bool) :
    (patPayload c phase).getLsbD c.patPhaseBit.val = phase := by
  have hp : c.patFields.getLsbD c.patPhaseBit.val = false := by
    simp only [Cfg.legal, Bool.and_eq_true, Bool.not_eq_true'] at hc
    exact hc.2
  have hb := c.patPhaseBit.isLt
  unfold patPayload
  rw [BitVec.getLsbD_or, hp]
  cases phase <;> simp [hb]

end Sys2Proof.Machine
end

