-- ==== Sys2Proof/Laws/PerInstr.lean ====
section
/-! SUPPORT. The family `Vocabulary`, one lemma per constructor of Instr: every instruction belongs to exactly one of
the two vocabularies of 00_scope.md R2. A panel command is encoded as a frame whose code byte names it; a host request
is encoded as a request record that decodes to it. -/

namespace Sys2Proof.Laws.Vocabulary

/-- An instruction is a panel command, whose frame's code is one of the 13 (R71), or a host request, whose record
decodes to it (R87, R88). -/
def Statement (i : Instr) : Prop :=
  (∃ code payload m, encode Config.hw i = .frame code payload ∧ Config.hw.command? code = some m ∧ i.request? = none) ∨
    ∃ r, encode Config.hw i = .request r ∧ decodeRequest r = i

theorem swReset : Statement .swReset := .inl ⟨_, _, .swReset, rfl, Config.hw_command?_code .swReset, rfl⟩
theorem dataEntryMode (p0 : Byte) : Statement (.dataEntryMode p0) :=
  .inl ⟨_, _, .dataEntryMode, rfl, Config.hw_command?_code .dataEntryMode, rfl⟩
theorem setXRange (xs : BitVec 5) (xe : BitVec 5) : Statement (.setXRange xs xe) :=
  .inl ⟨_, _, .setXRange, rfl, Config.hw_command?_code .setXRange, rfl⟩
theorem setYRange (ys : BitVec 9) (ye : BitVec 9) : Statement (.setYRange ys ye) :=
  .inl ⟨_, _, .setYRange, rfl, Config.hw_command?_code .setYRange, rfl⟩
theorem setXCounter (x : BitVec 5) : Statement (.setXCounter x) :=
  .inl ⟨_, _, .setXCounter, rfl, Config.hw_command?_code .setXCounter, rfl⟩
theorem setYCounter (y : BitVec 9) : Statement (.setYCounter y) :=
  .inl ⟨_, _, .setYCounter, rfl, Config.hw_command?_code .setYCounter, rfl⟩
theorem writeRamBw (stream : List Byte) : Statement (.writeRamBw stream) :=
  .inl ⟨_, _, .writeRamBw, rfl, Config.hw_command?_code .writeRamBw, rfl⟩
theorem writeRamRed (stream : List Byte) : Statement (.writeRamRed stream) :=
  .inl ⟨_, _, .writeRamRed, rfl, Config.hw_command?_code .writeRamRed, rfl⟩
theorem updateControl1 (p0 : Byte) (p1 : Byte) : Statement (.updateControl1 p0 p1) :=
  .inl ⟨_, _, .updateControl1, rfl, Config.hw_command?_code .updateControl1, rfl⟩
theorem masterActivation : Statement .masterActivation :=
  .inl ⟨_, _, .masterActivation, rfl, Config.hw_command?_code .masterActivation, rfl⟩
theorem deepSleep (p0 : Byte) : Statement (.deepSleep p0) :=
  .inl ⟨_, _, .deepSleep, rfl, Config.hw_command?_code .deepSleep, rfl⟩
theorem patternBw (p0 : Byte) : Statement (.patternBw p0) :=
  .inl ⟨_, _, .patternBw, rfl, Config.hw_command?_code .patternBw, rfl⟩
theorem patternRed (p0 : Byte) : Statement (.patternRed p0) :=
  .inl ⟨_, _, .patternRed, rfl, Config.hw_command?_code .patternRed, rfl⟩
theorem init : Statement .init := .inr ⟨_, rfl, rfl⟩
theorem uploadFrame (bw : List Byte) : Statement (.uploadFrame bw) := .inr ⟨_, rfl, rfl⟩
theorem uploadColorFrame (bw : List Byte) (red : List Byte) : Statement (.uploadColorFrame bw red) := .inr ⟨_, rfl, rfl⟩
theorem uploadPartial (bw : List Byte) (x : U32) (y : U32) (w : U32) (h : U32) : Statement (.uploadPartial bw x y w h) :=
  .inr ⟨_, rfl, rfl⟩
theorem refresh : Statement .refresh := .inr ⟨_, rfl, rfl⟩
theorem uploadAndRefresh (bw : List Byte) : Statement (.uploadAndRefresh bw) := .inr ⟨_, rfl, rfl⟩
theorem clear : Statement .clear := .inr ⟨_, rfl, rfl⟩
theorem sleep : Statement .sleep := .inr ⟨_, rfl, rfl⟩
theorem wake : Statement .wake := .inr ⟨_, rfl, rfl⟩
theorem setBg (col : BitVec 2) : Statement (.setBg col) := .inr ⟨_, rfl, rfl⟩
theorem getBg : Statement .getBg := .inr ⟨_, rfl, rfl⟩
theorem getWidth : Statement .getWidth := .inr ⟨_, rfl, rfl⟩
theorem getHeight : Statement .getHeight := .inr ⟨_, rfl, rfl⟩
theorem reservedD : Statement .reservedD := .inr ⟨_, rfl, rfl⟩
theorem reservedE : Statement .reservedE := .inr ⟨_, rfl, rfl⟩
theorem reservedF : Statement .reservedF := .inr ⟨_, rfl, rfl⟩

end Sys2Proof.Laws.Vocabulary
end

