-- ==== Sys2Proof/Laws/Runs.lean ====
section
/-! SUPPORT. The panel over a whole run of a request: however its samples and finish draws fall, a run that completes
with defined panel behaviour leaves the panel where the events of the step list leave it (R188, R253, R270). -/

namespace Sys2Proof.Machine

/-- The panel is the expected one, or has already finished the processing pending there. -/
def Panel.Near (c : Cfg) (q P : Panel) : Prop := q = P ∨ (P.pending.isSome = true ∧ q = P.finish c)

/-- The panel's turn keeps it near the expected one. -/
theorem Panel.Near.turn {c : Cfg} {s : State} {P : Panel} (h : Panel.Near c s.panel P) :
    Panel.Near c (panelTurn c s).panel P := by
  rw [panelTurn_panel]
  split
  · rename_i hp
    rcases h with h | ⟨h1, h2⟩
    · exact .inr ⟨h ▸ hp.1, by rw [h]⟩
    · rw [h2] at hp
      have : (P.finish c).pending = none := by unfold Panel.finish; split <;> rfl
      simp [this] at hp
  · exact h

theorem Panel.Near.of_none {c : Cfg} {q P : Panel} (h : Panel.Near c q P) (hp : P.pending = none) : q = P := by
  rcases h with h | ⟨h1, -⟩
  · exact h
  · simp [hp] at h1

@[simp] theorem Panel.finish_pending (c : Cfg) (p : Panel) : (p.finish c).pending = none := by
  unfold Panel.finish; split <;> rfl
@[simp] theorem Panel.finish_busy (c : Cfg) (p : Panel) : (p.finish c).busy = .known false := by
  unfold Panel.finish; split <;> rfl

/-- A byte at a panel that is processing leaves it undefined. -/
theorem Panel.undef_of_pending_cmd (c : Cfg) {P : Panel} (hi : P.Inv) (hp : P.pending.isSome = true) (b : Byte) :
    (P.react c (.cmd b)).undef = true := by
  have hb := hi.busyPending.mpr hp
  unfold react
  split
  · simp [onUndef, *]
  · simp [onCmd, takesBytes, hb]
theorem Panel.undef_of_pending_data (c : Cfg) {P : Panel} (hi : P.Inv) (hp : P.pending.isSome = true) (b : List Byte) :
    (P.react c (.data b)).undef = true := by
  have hb := hi.busyPending.mpr hp
  unfold react
  split
  · simp [onUndef, *]
  · simp [onData, takesBytes, hb]

/-- An idle sample at a panel near the expected one. -/
theorem Panel.Near.idle {c : Cfg} {q P : Panel} (h : Panel.Near c q P) (hi : P.Inv) (hu : P.undef = false) :
    q.react c (.busySample .idle) = P.react c (.busySample .idle) := by
  rcases h with rfl | ⟨h1, rfl⟩
  · rfl
  · have hb := hi.busyPending.mpr h1
    simp [react, hu, onSample, hb, finish_undef, finish_busy]

/-- A busy sample at a panel near the expected one. -/
theorem Panel.Near.busy {c : Cfg} {q P : Panel} (h : Panel.Near c q P) (hu : P.undef = false) :
    (q.react c (.busySample .busy)).undef = true ∨ Panel.Near c (q.react c (.busySample .busy)) P := by
  have hq : q.undef = false := by
    rcases h with rfl | ⟨-, rfl⟩
    · exact hu
    · rw [finish_undef]; exact hu
  simp only [react, hq, onSample]
  by_cases hb : q.busy = .known false
  · left; simp [hb]
  · right; simp [hb, h]

/-! ### Runs

These take as a premise that a step is one block transition and the panel's turn. -/

section
variable (hstep : ∀ s : State, step s = .next (panelTurn Config.hw (turn Config.hw s)))
include hstep

/-- An undefined panel stays undefined over a run (R269). -/
theorem run_undef (n : Nat) {s t : State} (h : Sys2Proof.core.run n s = .next t) (hu : s.panel.undef = true) :
    t.panel.undef = true := by
  induction n generalizing s with
  | zero => cases h; exact hu
  | succ n ih =>
    rw [run_succ n (hstep s)] at h
    refine ih h ?_
    obtain ⟨f, q, hp, hq⟩ := panelTurn_cases Config.hw (turn Config.hw s)
    have e : (panelTurn Config.hw (turn Config.hw s)).panel.undef = (turn Config.hw s).panel.undef := by
      rw [hp]
      rcases hq with rfl | rfl
      · rfl
      · exact Panel.finish_undef _ _
    rw [e]
    have hc := turn_case Config.hw s
    generalize turn Config.hw s = u at hc
    cases hc with
    | quiet => exact hu
    | accept w s' r hs ho hr => obtain ⟨b, os, rfl⟩ := takeOffer_eq ho; simpa [acceptRequest] using hu
    | refuse w s' hs ho hr => obtain ⟨b, os, rfl⟩ := takeOffer_eq ho; exact hu
    | done st u evs he hst hw ht => exact ht.panel.undef hu
    | abort kind st u evs he hst hw ht => simp [abort]; exact ht.panel.undef hu
    | idleSample => exact Panel.react_undef _ _ _ hu
    | busySample => exact Panel.react_undef _ _ _ hu
    | busyFault => simpa [abort] using hu
    | complete he hk =>
      cases hr : s.req with
      | none => simpa [complete_of_none _ _ hr] using hu
      | some r => simpa [complete_of_req _ r _ hr] using hu

omit hstep in
/-- A run from an idle state that is idle nowhere before its end is no run. -/
theorem idle_end {n : Nat} {w t : State} (hw : w.seq = .idle) (hn : Sys2Proof.core.run n w = .next t)
    (hf : ∀ m u, m < n → Sys2Proof.core.run m w = .next u → u.seq ≠ .idle) : t = w := by
  cases n with
  | zero => cases hn; rfl
  | succ n => exact absurd hw (hf 0 w (by omega) rfl)

/-- What is left of a run of the steps `L`, with the panel near `P`: where it completes without a fault and the panel's
behaviour stays defined, the panel ends near what the events of `L` make of `P`, whatever the samples and the finish
draws were, and the request's end is R187's. -/
theorem run_steps (r : Request) (n : Nat) : ∀ (s t : State) (L : List Step) (P : Panel),
    Panel.Near Config.hw s.panel P → P.Inv → P.undef = false →
    (s.seq = .exec ∨ (s.seq = .wait ∧ ∃ L', L = .wait :: L')) → s.steps.drop s.k = L → s.req = some r →
    (∀ us, Step.delay us ∉ L) → (∀ d1 d2, Step.hwReset d1 d2 ∉ L) →
    (P.reactAll Config.hw (okEvents L)).undef = false →
    Sys2Proof.core.run n s = .next t → t.seq = .idle →
    (∀ m u, m < n → Sys2Proof.core.run m s = .next u → u.seq ≠ .idle) → (∀ kind, t.resp ≠ some (.err kind)) →
    t.panel.undef = false →
      Panel.Near Config.hw t.panel (P.reactAll Config.hw (okEvents L)) ∧ t.life = lifeAfter r s.life ∧
        t.violation = s.violation ∧ t.bg = bgAfter r s.bg := by
  have hW := (bounds_of_legal Config.hw_legal).2.1
  induction n with
  | zero =>
    intro s t L P _ _ _ hs _ _ _ _ _ hn hi
    cases hn
    rcases hs with hs | ⟨hs, -⟩ <;> simp [hs] at hi
  | succ n ih =>
    intro s t L P hN hPi hPu hs hL hr hd hh hE hn hi hf he hu
    rw [run_succ n (hstep s)] at hn
    have hf' : ∀ m u, m < n → Sys2Proof.core.run m (panelTurn Config.hw (turn Config.hw s)) = .next u →
        u.seq ≠ .idle := by
      intro m u hm h
      exact hf (m + 1) u (by omega) (by rw [run_succ m (hstep s)]; exact h)
    have hab : ∀ (kind : FaultKind) (u : State), turn Config.hw s = abort Config.hw kind u → False := by
      intro kind u h
      have := idle_end (by rw [h]; simp [abort]) hn hf'
      apply he kind
      rw [this, h]; simp [abort]
    have step_done : ∀ (e : Event) (st : Step) (L' : List Step), L = st :: L' → st.okEvents = [e] →
        (∃ b, e = .cmd b) ∨ (∃ b, e = .data b) → ∀ u : State, turn Config.hw s = u →
        u.panel = s.panel.react Config.hw e → u.seq = .exec → u.k = s.k + 1 → u.steps = s.steps → u.req = s.req →
        u.life = s.life → u.violation = s.violation → u.bg = s.bg →
       Panel.Near Config.hw t.panel (P.reactAll Config.hw (okEvents L)) ∧ t.life = lifeAfter r s.life ∧
        t.violation = s.violation ∧ t.bg = bgAfter r s.bg := by
      intro e st L' hLe hst hev u hu' hp h1 h2 h3 h4 h5 h6 h7
      have hok : okEvents L = e :: okEvents L' := by
        simp [hLe, okEvents, hst]
      rw [hok] at hE ⊢
      simp only [Panel.reactAll_cons] at hE ⊢
      have hnone : P.pending = none := by
        cases hpp : P.pending with
        | none => rfl
        | some x =>
          have : (P.react Config.hw e).undef = true := by
            rcases hev with ⟨b, rfl⟩ | ⟨b, rfl⟩
            · exact Panel.undef_of_pending_cmd _ hPi (by simp [hpp]) _
            · exact Panel.undef_of_pending_data _ hPi (by simp [hpp]) _
          rw [Panel.reactAll_undef _ _ _ this] at hE
          cases hE
      have hq := hN.of_none hnone
      have hPu' : (P.react Config.hw e).undef = false := by
        cases h : (P.react Config.hw e).undef with
        | false => rfl
        | true => rw [Panel.reactAll_undef _ _ _ h] at hE; cases hE
      have hL2 : s.steps.drop (s.k + 1) = L' := by
        have := congrArg (List.drop 1) hL
        rw [hLe] at this
        simpa [Nat.add_comm] using this
      have := ih (panelTurn Config.hw (turn Config.hw s)) t L' (P.react Config.hw e)
        (Panel.Near.turn (by rw [hu', hp, hq]; exact .inl rfl)) (Panel.react_inv _ hW _ hPi) hPu'
        (.inl (by rw [hu']; simp [h1])) (by rw [hu']; simp [h2, h3, hL2]) (by rw [hu']; simp [h4, hr])
        (fun us h => hd us (by rw [hLe]; simp [h])) (fun d1 d2 h => hh d1 d2 (by rw [hLe]; simp [h])) hE hn hi hf' he hu
      rw [hu'] at this
      simpa [h5, h6, h7] using this
    have hst : s.steps[s.k]? = L[0]? := by
      have := congrArg (·[0]?) hL; simpa using this
    have hsample : ∀ L', L = .wait :: L' → turn Config.hw s = sampleBusy Config.hw s →
       Panel.Near Config.hw t.panel (P.reactAll Config.hw (okEvents L)) ∧ t.life = lifeAfter r s.life ∧
        t.violation = s.violation ∧ t.bg = bgAfter r s.bg := by
      intro L' hLe hts
      have hok : okEvents L = .busySample .idle :: okEvents L' := by subst hLe; rfl
      have hL2 : s.steps.drop (s.k + 1) = L' := by
        have := congrArg (List.drop 1) hL
        rw [hLe] at this
        simpa [Nat.add_comm] using this
      unfold sampleBusy at hts
      split at hts
      · exact (hab _ _ hts).elim
      · split at hts
        · rw [hok] at hE ⊢
          simp only [Panel.reactAll_cons] at hE ⊢
          have hPu' : (P.react Config.hw (.busySample .idle)).undef = false := by
            cases h : (P.react Config.hw (.busySample .idle)).undef with
            | false => rfl
            | true => rw [Panel.reactAll_undef _ _ _ h] at hE; cases hE
          have := ih (panelTurn Config.hw (turn Config.hw s)) t L' (P.react Config.hw (.busySample .idle))
            (Panel.Near.turn (by rw [hts]; exact .inl (by simpa using hN.idle hPi hPu))) (Panel.react_inv _ hW _ hPi) hPu'
            (.inl (by rw [hts]; simp))
            (by rw [hts]; simp [hL2]) (by rw [hts]; simp [hr])
            (fun us h => hd us (by rw [hLe]; simp [h])) (fun d1 d2 h => hh d1 d2 (by rw [hLe]; simp [h])) hE hn hi hf' he hu
          rw [hts] at this
          simpa using this
        · rcases hN.busy hPu with hb | hb
          · have : t.panel.undef = true := by
              refine run_undef hstep n hn ?_
              obtain ⟨f, q, hp, hq⟩ := panelTurn_cases Config.hw (turn Config.hw s)
              rw [hp]
              have h2 : (turn Config.hw s).panel.undef = true := by rw [hts]; simpa using hb
              rcases hq with rfl | rfl
              · exact h2
              · show (Panel.finish _ _).undef = true
                rw [Panel.finish_undef]; exact h2
            rw [this] at hu; cases hu
          · have := ih (panelTurn Config.hw (turn Config.hw s)) t L P
              (Panel.Near.turn (by rw [hts]; simpa using hb)) hPi hPu
              (.inr ⟨by rw [hts]; simp, L', hLe⟩) (by rw [hts]; simp [hL]) (by rw [hts]; simp [hr]) hd hh hE hn hi hf' he hu
            rw [hts] at this
            simpa using this
    rcases hs with hs | ⟨hs, L', hLe⟩
    · have hturn : turn Config.hw s = stepTurn Config.hw s := by simp [turn, hs]
      cases L with
      | nil =>
        have hc : turn Config.hw s = complete Config.hw s := by
          rw [hturn]; unfold stepTurn; rw [hst]; rfl
        rw [complete_of_req _ r _ hr] at hc
        have := idle_end (by rw [hc]; simp) hn hf'
        rw [this, hc]
        refine ⟨Panel.Near.turn (by simpa [okEvents] using hN), by simp, by simp, by simp⟩
      | cons st L' =>
        have hst' : s.steps[s.k]? = some st := by simpa using hst
        cases st with
        | cmd b =>
          have hc : turn Config.hw s = settle Config.hw (sendCmd Config.hw b s) := by
            rw [hturn]; unfold stepTurn; rw [hst']
          unfold sendCmd at hc
          rcases setDc_cases .low s with ⟨_, h⟩ | ⟨_, h⟩
          · rw [h, Attempt.done_andThen] at hc
            rcases busWrite_cases Config.hw [b] (fun _ => .cmd b) { s with env := s.env.drawDc.2, dc := .low }
              with ⟨_, h'⟩ | ⟨_, _, h'⟩
            · rw [h', settle_done] at hc
              exact step_done (.cmd b) _ L' rfl rfl (.inl ⟨b, rfl⟩) _ hc
                (by simp) (by simp [hs]) (by simp) (by simp) (by simp) (by simp) (by simp) (by simp)
            · rw [h', settle_fault] at hc; exact (hab _ _ hc).elim
          · rw [h, Attempt.fault_andThen, settle_fault] at hc; exact (hab _ _ hc).elim
        | data bs =>
          have hc : turn Config.hw s = settle Config.hw (sendData Config.hw bs s) := by
            rw [hturn]; unfold stepTurn; rw [hst']
          unfold sendData at hc
          rcases setDc_cases .high s with ⟨_, h⟩ | ⟨_, h⟩
          · rw [h, Attempt.done_andThen] at hc
            rcases busWrite_cases Config.hw bs .data { s with env := s.env.drawDc.2, dc := .high } with ⟨_, h'⟩ | ⟨_, _, h'⟩
            · rw [h', settle_done] at hc
              exact step_done (.data bs) _ L' rfl rfl (.inr ⟨bs, rfl⟩) _ hc
                (by simp) (by simp [hs]) (by simp) (by simp) (by simp) (by simp) (by simp) (by simp)
            · rw [h', settle_fault] at hc; exact (hab _ _ hc).elim
          · rw [h, Attempt.fault_andThen, settle_fault] at hc; exact (hab _ _ hc).elim
        | hwReset d1 d2 => exact absurd (by simp) (hh d1 d2)
        | delay us => exact absurd (by simp) (hd us)
        | wait => exact hsample L' rfl (by rw [hturn]; unfold stepTurn; rw [hst'])
    · exact hsample L' hLe (by simp [turn, hs])

end

/-! ### Runs of concrete states, step by step -/

/-- A run through busy states to its first idle state. -/
inductive Chain : State → State → Prop where
  | last {s t : State} (hs : s.seq ≠ .idle) (h : step s = .next t) (ht : t.seq = .idle) : Chain s t
  | cons {s t u : State} (hs : s.seq ≠ .idle) (h : step s = .next t) (rest : Chain t u) : Chain s u

/-- A chain is a run whose first idle state is its end. -/
theorem Chain.run {s t : State} (h : Chain s t) : t.seq = .idle ∧ ∃ n, Sys2Proof.core.run n s = .next t ∧
    ∀ m u, m < n → Sys2Proof.core.run m s = .next u → u.seq ≠ .idle := by
  induction h with
  | last hs h ht =>
    refine ⟨ht, 1, by rw [run_succ 0 h]; rfl, fun m u hm hu => ?_⟩
    obtain rfl : m = 0 := by omega
    cases hu; exact hs
  | cons hs h _ ih =>
    obtain ⟨ht, n, h1, h2⟩ := ih
    refine ⟨ht, n + 1, by rw [run_succ n h]; exact h1, fun m u hm hu => ?_⟩
    cases m with
    | zero => cases hu; exact hs
    | succ m => rw [run_succ m h] at hu; exact h2 m u (by omega) hu

/-- A request whose acceptance starts a chain completes. -/
theorem completes_of_chain {i : Instr} {s s' : State} {P : State → Prop} (hs : s.seq = .idle)
    (hi : i.request? ≠ none)
    (ha : thenPanel Config.hw (exec i s) = .next s')
    (h : ∃ t, Chain s' t ∧ (∀ kind, t.resp ≠ some (.err kind)) ∧ P t) : ∃ t, completes i s t ∧ P t := by
  obtain ⟨t, h, hr, hp⟩ := h
  obtain ⟨ht, n, h1, h2⟩ := h.run
  exact ⟨t, ⟨hs, hi, ht, hr, s', n, ha, h1, h2⟩, hp⟩

/-- A step at a `Wait` whose sample is the idle level. -/
theorem step_idle_sample {s : State} (hs : s.seq = .exec) (hst : s.steps[s.k]? = some .wait) {rest : List BusyDraw}
    (hb : s.env.busy.script = .level Config.hw.busyIdleLevel :: rest) :
    step s = .next (panelTurn Config.hw
      { (({ s with env := { s.env with busy := { s.env.busy with script := rest } } }).emit Config.hw
          (.busySample .idle)).advance with seq := .exec }) := by
  have hf : fetch Config.hw s = none := by simp [fetch, hs, frameAt, hst]
  simp [step, stepWith, hf, thenPanel, turn, hs, stepTurn, hst, sampleBusy, Env.drawBusy, Draws.next, hb, idleLevel]

/-- A stream changes its plane and the counters and nothing else. -/
theorem Panel.writeStream_changes (c : Cfg) (pl : Plane) (bs : List Byte) (p : Panel) :
    p.writeStream c pl bs = { p.setRam pl ((p.writeStream c pl bs).ram pl) with
      xc := (p.writeStream c pl bs).xc
      yc := (p.writeStream c pl bs).yc } := by
  obtain ⟨xc, yc, e⟩ := Panel.writeStream_frame c pl bs p
  have hx : (p.writeStream c pl bs).xc = xc := by rw [e]
  have hy : (p.writeStream c pl bs).yc = yc := by rw [e]
  rw [hx, hy]; exact e

/-- The payload of a RAM write whose primitives succeed, at a panel that takes it. -/
theorem step_stream {s : State} {i : Instr} {code : Byte} {pl : Plane} {bs : List Byte}
    (hf : fetch Config.hw s = some (i, s)) (he : encode Config.hw i = .frame code (some bs)) (hd : s.payloadDue = true)
    (hok : sendsOk s) (hp : s.panel.takesBytes = true) (hfr : s.panel.frame = .stream pl)
    (hn : s.panel.pending = none) : step s = .next { s with
      env := afterSend s.env
      dc := .high
      trace := s.trace ++ [.data bs]
      panel := { s.panel.setRam pl ((s.panel.writeStream Config.hw pl bs).ram pl) with
        xc := (s.panel.writeStream Config.hw pl bs).xc
        yc := (s.panel.writeStream Config.hw pl bs).yc }
      k := s.k + 1 } := by
  have hu := ((Panel.takesBytes_iff _).mp hp).1
  have hr : s.panel.react Config.hw (.data bs) = s.panel.writeStream Config.hw pl bs := by
    simp [Panel.react, hu, Panel.onData, hp, hfr]
  rw [← Panel.writeStream_changes, ← hr]
  simp only [step, stepWith, hf, exec_of_frame he, thenPanel]
  rw [sendFrame_payload _ _ _ _ hd, settle_sendData_ok _ _ _ hok, panelTurn_of_none]
  show (s.panel.react Config.hw (.data bs)).pending = none
  rw [hr, Panel.writeStream_changes]
  cases pl <;> exact hn

/-- A chain with a property at its end, one step longer. -/
theorem chain_cons {s u : State} {P : State → Prop} (hs : s.seq ≠ .idle) (h : step s = .next u)
    (rest : ∃ t, Chain u t ∧ P t) : ∃ t, Chain s t ∧ P t :=
  let ⟨t, h1, h2⟩ := rest
  ⟨t, .cons hs h h1, h2⟩

end Sys2Proof.Machine
end

