-- ==== Sys2Proof/Machine/Text.lean ====
section
/-! DEFINITION. The textual forms of the spec: trace lines (30_encoding.md R90) and host requests (R91). They are
notation only: no transition reads them. -/

namespace Sys2Proof.Machine

/-- One hexadecimal digit. -/
def hexDigit (n : Nat) : String :=
  if n < 10 then String.singleton (Char.ofNat (48 + n)) else String.singleton (Char.ofNat (55 + n))

/-- A byte as `0x..` (R9). -/
def hexByte (b : Byte) : String := "0x" ++ hexDigit (b.toNat / 16) ++ hexDigit (b.toNat % 16)

/-- Bytes separated by commas (R90). -/
def hexBytes : List Byte → String
  | [] => ""
  | [b] => hexByte b
  | b :: rest => hexByte b ++ ", " ++ hexBytes rest

/-- A command's mnemonic (R71). -/
def commandMnemonic : PanelCommand → String
  | .swReset => "SW_RESET"
  | .dataEntryMode => "DATA_ENTRY_MODE"
  | .setXRange => "SET_X_RANGE"
  | .setYRange => "SET_Y_RANGE"
  | .setXCounter => "SET_X_COUNTER"
  | .setYCounter => "SET_Y_COUNTER"
  | .writeRamBw => "WRITE_RAM_BW"
  | .writeRamRed => "WRITE_RAM_RED"
  | .updateControl1 => "UPDATE_CONTROL_1"
  | .masterActivation => "MASTER_ACTIVATION"
  | .deepSleep => "DEEP_SLEEP"
  | .patternBw => "PATTERN_BW"
  | .patternRed => "PATTERN_RED"

/-- A step in trace syntax, a command with its resolved byte in brackets (R90); a reset pulse prints its line events. -/
def renderStep (c : Cfg) : Step → String
  | .cmd b =>
    match c.command? b with
    | some m => "cmd " ++ commandMnemonic m ++ " [" ++ hexByte b ++ "]"
    | none => "cmd [" ++ hexByte b ++ "]"
  | .data bs => "data " ++ hexBytes bs
  | .hwReset d1 d2 =>
    "rst deassert; delay " ++ toString d1 ++ "; rst assert; delay " ++ toString d2 ++ "; rst deassert"
  | .wait => "wait"
  | .delay us => "delay " ++ toString us

/-- A line event in trace syntax (R90); none for an event R90 gives no form. -/
def renderEvent (c : Cfg) : Event → Option String
  | .cmd b => some (renderStep c (.cmd b))
  | .data bs => some (renderStep c (.data bs))
  | .rst .deasserted => some "rst deassert"
  | .rst .asserted => some "rst assert"
  | .delay us => some (renderStep c (.delay us))
  | .busySample .idle => some "idle"
  | .busySample .busy => some "busy?"
  | .accept _ => none
  | .fault _ _ => none
  | .respond _ => none

/-- A colour in request syntax (R91). -/
def colorText : Color → String
  | .black => "Black"
  | .white => "White"
  | .chromatic => "Chromatic"

/-- A request in host syntax (R91); `B` and `R` name its buffers. -/
def renderRequest : Request → String
  | .init => "init"
  | .uploadFrame _ => "upload_frame B"
  | .uploadColorFrame _ _ => "upload_color_frame B, R"
  | .uploadPartial _ x y w h =>
    "upload_partial B, " ++ toString x.toNat ++ ", " ++ toString y.toNat ++ ", " ++ toString w.toNat ++ ", "
      ++ toString h.toNat
  | .refresh => "refresh"
  | .uploadAndRefresh _ => "upload_and_refresh B"
  | .clear => "clear"
  | .sleep => "sleep"
  | .wake => "wake"
  | .setBg col => "set_bg " ++ colorText col
  | .getBg => "get_bg"
  | .getWidth => "get_width"
  | .getHeight => "get_height"

end Sys2Proof.Machine
end

