-- ==== Sys2Proof/Tests/Slice0.lean ====
section
/-! SUPPORT. The model's own tests: the well-formedness smoke test, every constructor's decoding from a word written out
from the spec's tables, one-step tests with the spec's own vectors (95_test_vectors.md), and a witness for the
hypotheses of every statement of Certificates/Slice0/Obligations.lean. -/

namespace Sys2Proof.Machine.Tests

/-! ### Small configurations, panels and states -/

/-- A configuration with every open parameter fixed, for tests only. -/
def cfg : Cfg := { Config.hw with
  patFields := 0x77, patFieldsCover := true, resetInitialDelayUs := 10, resetPulseUs := 2, busyIdleLevel := .low }

/-- The smallest geometry: one pixel, one byte. -/
def tiny : Cfg := { cfg with W := 8, H := 2 }

/-- A panel that takes bytes. -/
def awake : Panel := { Panel.initial with power := .known .awake, busy := .known false }

/-- Scripts in which the first draws succeed. -/
def okEnv : Env := { Env.initial with
  dc := { script := [.ok, .ok], taken := 0 }
  bus := { script := [.ok, .ok], taken := 0 }
  rst := { script := [.ok, .ok, .ok], taken := 0 }
  finish := { script := [false, false], taken := 0 } }

/-- An executing state at step `k` of a step list. -/
def running (steps : List Step) (k : Nat) (p : Panel) (e : Env) : State := { State.reset with
  seq := .exec, req := some .refresh, steps := steps, k := k, panel := p, env := e, construct := false }

/-- An idle state after construction with the host's offers. -/
def idleWith (offers : List RequestWord) : State := { State.reset with
  construct := false, life := .ready, env := { Env.initial with offers := offers } }

/-- The state a step leads to. -/
def after (o : Host.Outcome State Fault Refusal) : State :=
  match o with
  | .next t => t
  | .fault _ => State.reset
  | .refused _ => State.reset

/-- The level that is not the given one. -/
def otherLevel : Level → Level
  | .low => .high
  | .high => .low

theorem otherLevel_ne (l : Level) : otherLevel l ≠ l := by cases l <;> decide

/-! ### Well-formedness: an ill-formed term for each check -/

theorem test_wf_data_entry_mode : Instr.wf cfg (.dataEntryMode 0x00) = false ∧ Instr.wf cfg (.dataEntryMode 0x03) = true := by
  decide
theorem test_wf_update_control : Instr.wf cfg (.updateControl1 0x80 0x00) = false ∧ Instr.wf cfg (.updateControl1 0x00 0x80) = true := by
  decide
theorem test_wf_deep_sleep : Instr.wf cfg (.deepSleep 0x01) = false ∧ Instr.wf cfg (.deepSleep 0x03) = true := by decide
theorem test_wf_pattern_bw : Instr.wf cfg (.patternBw 0x76) = false ∧ Instr.wf cfg (.patternBw 0xF7) = true := by decide
theorem test_wf_pattern_red : Instr.wf cfg (.patternRed 0x00) = false ∧ Instr.wf cfg (.patternRed 0x77) = true := by decide
theorem test_wf_set_bg : Instr.wf cfg (.setBg 3) = false ∧ Instr.wf cfg (.setBg 2) = true := by decide
theorem test_wf_reserved : Instr.wf cfg .reservedD = false ∧ Instr.wf cfg .reservedE = false ∧ Instr.wf cfg .reservedF = false := by
  decide
theorem test_cfg_width : Cfg.legal { cfg with W := 0 } = false ∧ Cfg.legal { cfg with W := 257 } = false ∧ Cfg.legal { cfg with W := 256 } = true := by
  decide
theorem test_cfg_height : Cfg.legal { cfg with H := 0 } = false ∧ Cfg.legal { cfg with H := 513 } = false ∧ Cfg.legal { cfg with H := 512 } = true := by
  decide
theorem test_cfg_codes : Cfg.legal { cfg with cmdPatternRed := 0x47 } = false := by decide
/-- R7, R312: an illegal configuration has no step, no reset state and no core. -/
theorem test_illegal_configuration : stepAt { cfg with W := 0 } State.reset = .refused .illegalConfiguration ∧
    State.resetAt { cfg with W := 0 } = none ∧ (coreAt { cfg with W := 0 }).isNone = true ∧
    State.resetAt tiny = some (State.initial tiny) := ⟨rfl, by decide, rfl, by decide⟩
theorem test_cfg_pattern_fields : Cfg.legal { cfg with patFields := 0x80 } = false := by decide

/-! ### Decoding: words written out from R71, R72, R73 to R83, R87 -/

theorem test_decode_sw_reset : decodeTableWord 8 0x12 = some .swReset := by decide
theorem test_decode_data_entry_mode : decodeTableWord 16 0x0311 = some (.dataEntryMode 0x03) := by decide
theorem test_decode_set_x_range : decode Config.hw (.frame 0x44 (some [0x01, 0x02])) = .ok (.setXRange 1 2) := by decide
theorem test_decode_set_y_range :
    decode Config.hw (.frame 0x45 (some [0x00, 0x00, 0x27, 0x01])) = .ok (.setYRange 0 295) := by decide
theorem test_decode_set_x_counter : decodeTableWord 16 0x134E = some (.setXCounter 19) := by decide
theorem test_decode_set_y_counter : decodeTableWord 24 0x01FF4F = some (.setYCounter 511) := by decide
theorem test_decode_write_ram_bw : decode Config.hw (.frame 0x24 (some [0xAA])) = .ok (.writeRamBw [0xAA]) := by decide
theorem test_decode_write_ram_red : decode Config.hw (.frame 0x26 (some [])) = .ok (.writeRamRed []) := by decide
theorem test_decode_update_control_1 : decodeTableWord 24 0x800021 = some (.updateControl1 0x00 0x80) := by decide
theorem test_decode_master_activation : decodeTableWord 8 0x20 = some .masterActivation := by decide
theorem test_decode_deep_sleep : decodeTableWord 16 0x0310 = some (.deepSleep 0x03) := by decide
theorem test_decode_pattern_bw : decodeTableWord 16 0xF747 = some (.patternBw 0xF7) := by decide
theorem test_decode_pattern_red : decodeTableWord 16 0x7746 = some (.patternRed 0x77) := by decide
theorem test_decode_requests :
    decodeRequest { op := 0x0 } = .init ∧ decodeRequest { op := 0x1, bw := [0xFF] } = .uploadFrame [0xFF] ∧
      decodeRequest { op := 0x2, bw := [1], red := [2] } = .uploadColorFrame [1] [2] ∧
      decodeRequest { op := 0x3, bw := [1], x := 8, y := 0, w := 16, h := 10 } = .uploadPartial [1] 8 0 16 10 ∧
      decodeRequest { op := 0x4 } = .refresh ∧ decodeRequest { op := 0x5, bw := [3] } = .uploadAndRefresh [3] ∧
      decodeRequest { op := 0x6 } = .clear ∧ decodeRequest { op := 0x7 } = .sleep ∧ decodeRequest { op := 0x8 } = .wake ∧
      decodeRequest { op := 0x9, col := 2 } = .setBg 2 ∧ decodeRequest { op := 0xA } = .getBg ∧
      decodeRequest { op := 0xB } = .getWidth ∧ decodeRequest { op := 0xC } = .getHeight ∧
      decodeRequest { op := 0xD } = .reservedD ∧ decodeRequest { op := 0xE } = .reservedE ∧
      decodeRequest { op := 0xF } = .reservedF := by decide
theorem test_decode_rejects_unknown_code : decode Config.hw (.frame 0x99 none) = .error (.unknownCommand 0x99) := by decide
theorem test_decode_rejects_short_payload :
    decode Config.hw (.frame 0x44 (some [0x00])) = .error (.payloadShape .setXRange) := by decide
theorem test_decode_rejects_reserved_bits :
    decode Config.hw (.frame 0x4E (some [0x20])) = .error (.reservedBits .setXCounter) ∧
      decode Config.hw (.frame 0x4F (some [0x00, 0x02])) = .error (.reservedBits .setYCounter) := by decide

/-! ### The spec's vectors, one step each (95_test_vectors.md section 2) -/

/-- V1 and the examples of R100 to R102. -/
theorem test_geometry : stride Config.hw = 19 ∧ bufLen Config.hw = 5624 ∧ byteIndex Config.hw 151 295 = 5623 ∧
    bitPos 151 = 0 ∧ byteIndex Config.hw 0 1 = 19 ∧ bitPos 8 = 7 := by decide
/-- A pixel outside the panel has no byte (R102), although its byte index falls on one. -/
theorem test_pixel_outside : byteIndex tiny 8 0 = 1 ∧ pixelBit tiny [0xFF, 0xFF] 8 0 = none ∧
    pixelBit tiny [0x00, 0x80] 0 1 = some true ∧ pixelBit tiny [0xFF, 0x7F] 0 1 = some false := by decide
/-- The examples of R107, R111, R117. -/
theorem test_windows : xEnc 5 = 0x00 ∧ xEnc 23 = 0x02 ∧ xRangePayload (partialWindow 8 0 16 10) = [0x01, 0x02] ∧
    yRangePayload (partialWindow 8 0 16 10) = [0x00, 0x00, 0x09, 0x00] ∧
    capacity (partialWindow 8 0 16 10) = 20 ∧ capacity (partialWindow 5 0 10 1) = 2 ∧
    xRangePayload (partialWindow 0 0 0 1) = [0x00, 0x1F] := by decide
/-- The examples of R110, R112, R113. -/
theorem test_full_window : xRangePayload (fullWindow Config.hw) = [0x00, 0x12] ∧
    yRangePayload (fullWindow Config.hw) = [0x00, 0x00, 0x27, 0x01] := by decide
/-- V3, first row: `Cmd(0x20)`, all Ok. -/
theorem test_cmd_ok :
    (after (exec .masterActivation (running [.cmd 0x20, .wait] 0 awake okEnv))).trace = [.cmd 0x20] ∧
      (after (exec .masterActivation (running [.cmd 0x20, .wait] 0 awake okEnv))).dc = .low ∧
      (after (exec .masterActivation (running [.cmd 0x20, .wait] 0 awake okEnv))).k = 1 := by decide
/-- V3: the DC write fails; nothing is sent and dc keeps its value. -/
theorem test_cmd_dc_fault :
    (after (step (running [.cmd 0x20] 0 awake { okEnv with dc := { script := [.fail], taken := 0 } }))).trace =
        [.fault .dcOutput 0, .respond (.err .dcOutput)] ∧
      (after (step (running [.cmd 0x20] 0 awake { okEnv with dc := { script := [.fail], taken := 0 } }))).dc =
        .undriven := by decide
/-- V3: the transfer fails after a prefix of the payload. -/
theorem test_data_bus_fault :
    (after (step (running [.cmd 0x44, .data [0x00, 0x12]] 1 awake
        { okEnv with bus := { script := [.fault 1], taken := 0 } }))).trace =
      [.data [0x00], .fault .bus 1, .respond (.err .bus)] := by decide
/-- V3: an empty transfer is one step and one event (D28). -/
theorem test_empty_data :
    (after (step (running [.cmd 0x24, .data []] 1 { awake with frame := .stream .bw } okEnv))).trace = [.data []] := by
  decide
/-- V3: the third reset write fails; the chip stays in reset. -/
theorem test_reset_fault :
    (after (step (running [.hwReset 5 6] 0 awake { okEnv with rst := { script := [.ok, .ok, .fail], taken := 0 } }))).rst =
        .asserted ∧
      (after (step (running [.hwReset 5 6] 0 awake
        { okEnv with rst := { script := [.ok, .ok, .fail], taken := 0 } }))).trace =
        [.rst .deasserted, .delay 5, .rst .asserted, .delay 6, .fault .rstOutput 0, .respond (.err .rstOutput)] := by
  decide
/-- V4: a fault of a busy sample. -/
theorem test_busy_fault :
    (after (step { running [.cmd 0x20, .wait] 1 awake
        { okEnv with busy := { script := [.fault], taken := 0 } } with seq := .wait })).trace =
      [.fault .busyInput 1, .respond (.err .busyInput)] := by decide
/-- V5: `Viol`, the rows with a short buffer, a window past the edge and a misaligned window. -/
theorem test_violations :
    violates Config.hw (.uploadPartial (zeros 20) 8 0 16 10) .ready = false ∧
      violates Config.hw (.uploadPartial (zeros 19) 8 0 16 10) .ready = true ∧
      violates Config.hw (.uploadPartial (zeros 2) 148 0 8 1) .ready = true ∧
      violates Config.hw (.uploadPartial (zeros 2) 5 0 10 1) .ready = false ∧
      violates Config.hw .clear .asleep = true ∧ violates Config.hw (.setBg .black) .asleep = false := by decide
/-- V5: op 0xD is refused with no event, and the block stays idle. -/
theorem test_refusal :
    (after (step (idleWith [{ op := 0xD }]))).refused = true ∧ (after (step (idleWith [{ op := 0xD }]))).trace = [] ∧
      (after (step (idleWith [{ op := 0xD }]))).seq = .idle ∧
      (after (step (idleWith [{ op := 0x9, col := 3 }]))).refused = true := by decide
/-- V6: auto-increment in the window (1, 2, 0, 9). -/
theorem test_auto_increment :
    let q := Panel.writeStream Config.hw .bw [0xD0, 0xD1, 0xD2, 0xD3]
      { awake with dem := .known 0x03, wxs := .known 1, wxe := .known 2, wys := .known 0, wye := .known 9,
                   xc := .known 1, yc := .known 0 }
    q.ramBw.read 1 0 = .known 0xD0 ∧ q.ramBw.read 2 0 = .known 0xD1 ∧ q.ramBw.read 1 1 = .known 0xD2 ∧
      q.ramBw.read 2 1 = .known 0xD3 ∧ q.xc = .known 1 ∧ q.yc = .known 2 := by decide
/-- U16: a byte written beyond the panel (column group 19) is unknown; the one before it, on the panel, is known. -/
theorem test_write_beyond_panel :
    let q := Panel.writeStream Config.hw .red [0xD0, 0xD1]
      { awake with dem := .known 0x03, wxs := .known 18, wxe := .known 19, wys := .known 295, wye := .known 295,
                   xc := .known 18, yc := .known 295, ramRed := [(9459, 0xFF)] }
    q.ramRed.read 18 295 = .known 0xD0 ∧ q.ramRed.read 19 295 = .unknown ∧ q.ramRed.wf = true := by decide
/-- V6: a column group outside the window makes the plane unknown. -/
theorem test_write_outside :
    (Panel.writeByte Config.hw .bw
      { awake with dem := .known 0x03, wxs := .known 0, wxe := .known 18, wys := .known 0, wye := .known 295,
                   xc := .known 19, yc := .known 0, ramBw := [(0, 0xFF)] } 0x01).ramBw = [] := by decide
/-- V6: an activation shows PixelColor of the RAM bits: bit 7 is the leftmost pixel, chromatic overrides. -/
theorem test_activation :
    let q := Panel.react { cfg with W := 4, H := 1 } (.busySample .idle)
      { awake with busy := .known true, pending := some .display, uc1 := .known (0x00, 0x80),
                   ramBw := [(0, 0xA0)], ramRed := [(0, 0x30)] }
    q.shown = [(0, .white), (1, .black), (2, .chromatic), (3, .chromatic)] ∧ q.busy = .known false := by decide
/-- V6: a pattern fill covers the panel. -/
theorem test_pattern_fill :
    (Panel.react tiny (.busySample .idle) (Panel.effPattern tiny .bw 0xF7 awake)).ramBw = [(0, 0xFF), (32, 0xFF)] := by
  decide
/-- R256: a finished software reset forgets registers and RAM. -/
theorem test_software_reset_finishes :
    let q := Panel.react Config.hw (.busySample .idle)
      (Panel.startProcessing .swResetDone { awake with dem := .known 0x03, wxs := .known 1, yc := .known 5, ramBw := [(0, 0xFF)] })
    q.dem = .unknown ∧ q.wxs = .unknown ∧ q.yc = .unknown ∧ q.ramBw = [] ∧ q.busy = .known false ∧ q.pending = none := by
  decide
/-- V6: a command in deep sleep, and a code that is no command, leave the panel undefined. -/
theorem test_undefined_panel :
    (Panel.react Config.hw (.cmd 0x20) { awake with power := .known .deepSleep }).undef = true ∧
      (Panel.react Config.hw (.cmd 0x99) awake).undef = true := by decide
/-- V7: the first transition after reset accepts INIT. -/
theorem test_first_transition : (after (step State.reset)).trace = [.accept .init] := by decide
/-- R220: GET_BG answers the background. -/
theorem test_get_bg :
    (after (step { running [] 0 awake okEnv with req := some .getBg, bg := .chromatic })).resp =
      some (.okColor .chromatic) := by decide
/-- R219: SET_BG writes the background at completion. -/
theorem test_set_bg :
    (after (step { running [] 0 awake okEnv with req := some (.setBg .black) })).bg = .black := by decide

/-! ### Witnesses: the hypotheses of each statement can be met -/

theorem witness_EncodeThenDecodeGivesInstruction : Config.hw.legal = true ∧ cfg.legal = true ∧ tiny.legal = true :=
  ⟨Config.hw_legal, by decide, by decide⟩
theorem witness_DecodedFormsReencode : decodeFrame Config.hw 0x44 (some [0x1F, 0x00]) = .ok (.setXRange 31 0) := by decide
theorem witness_XCoordinateEncodesItsColumnGroup :
    (7 : U32).toNat ≤ 7 ∧ 248 ≤ (248 : U32).toNat ∧ (255 : U32).toNat ≤ 255 := by decide
theorem witness_CoordinateEncodingLaws :
    (248 : U32).toNat % 8 = 0 ∧ (248 : U32).toNat < 256 ∧ xEnc 248 = xEnc 248 ∧ (511 : U32).toNat < 512 := by decide
theorem witness_FullWindowCoversThePanel : Cfg.legal { cfg with W := 256, H := 512 } = true ∧
    Cfg.legal { cfg with W := 1, H := 1 } = true := by decide
theorem witness_AlignedWindowCapacity : cfg.legal = true ∧ windowLegal cfg 144 286 8 10 = true ∧ aligned8 144 8 = true := by
  decide
theorem witness_ClearTableAndPatternPayload : cfg.legal = true := by decide
theorem witness_PixelsAreBitsOfTheBuffer : cfg.legal = true ∧ 151 < cfg.W ∧ 295 < cfg.H ∧
    ([0xAA, 0xBB] : List Byte).length = bufLen tiny ∧ byteIndex cfg 8 1 = byteIndex cfg 8 1 ∧ bitPos 8 = bitPos 8 ∧
    (cfg.W ≤ 152 ∨ cfg.H ≤ 0) ∧ (cfg.W ≤ 0 ∨ cfg.H ≤ 296) := by decide
theorem witness_HostBufferIsReadInOrder : 1 + 2 ≤ ([5, 6, 7] : List Byte).length ∧ 1 < 2 := by decide
theorem witness_ExactlyProcessingStepsAreFollowedByWait : cfg.legal = true := by decide
theorem witness_RamWritesAreSelfContained : cfg.legal = true ∧
    (stepList cfg (.uploadColorFrame [] []) .white)[8]? = some (.cmd 0x24) ∧
    (stepList cfg (.uploadColorFrame [] []) .white)[18]? = some (.cmd 0x26) := by decide
theorem witness_EveryFrameOfAStepListDecodes : cfg.legal = true ∧
    (stepList cfg .clear .white)[0]? = some (.cmd 0x47) ∧ (stepList cfg .clear .white)[1]? = some (.data [0xF7]) := by
  decide
theorem witness_StepRunsTheDecodedInstruction :
    (running [.cmd 0x4E, .data [0x01]] 1 awake okEnv).seq = .exec ∧
      frameAt [.cmd 0x4E, .data [0x01]] 0 = some (0x4E, some [0x01]) ∧
      frameAt [.cmd 0x4E, .data [0x01]] 1 = some (0x4E, some [0x01]) ∧
      decodeFrame Config.hw 0x4E (some [0x01]) = .ok (.setXCounter 1) ∧
      (idleWith [{ op := 0x4 }]).seq = .idle ∧ (idleWith [{ op := 0x4 }]).construct = false ∧
      (idleWith [{ op := 0x4 }]).env.offers = [{ op := 0x4 }] ∧
      State.reset.seq = .idle ∧ State.reset.construct = true := by decide
theorem witness_HostRequestsAreAcceptedWhenIdle : State.reset.seq = .idle ∧
    (Instr.uploadPartial [1] 8 0 8 1).request? = some (.uploadPartial [1] 8 0 8 1) ∧
    (Instr.setBg 2).request? = some (.setBg .chromatic) := by decide
theorem witness_ReservedRequestsSetTheRefusalMark : (idleWith []).seq = .idle := by decide
theorem witness_RequestsAreHeldWhileBusy : encode Config.hw .refresh = .request { op := 0x4 } ∧
    encode Config.hw .reservedE = .request { op := 0xE } ∧ (running [.wait] 0 awake okEnv).seq ≠ .idle ∧
    (running [.cmd 0x20] 0 awake { okEnv with offers := [{ op := 0xD }] }).seq ≠ .idle := by
  exact ⟨rfl, rfl, by decide, by decide⟩
/-- A legal and an illegal configuration. -/
theorem witness_StepIsOneBlockTransition : cfg.legal = true ∧ Cfg.legal { cfg with W := 0 } = false ∧
    Cfg.legal { cfg with cmdPatternRed := 0x47 } = false := by decide
theorem witness_PanelTurnFinishesOrNot :
    let p := Panel.startProcessing .display awake
    awake.pending = none ∧ p.pending = some .display ∧
      (running [] 0 p { okEnv with finish := { script := [true], taken := 0 } }).env.drawFinish.1 = true ∧
      (running [] 0 p okEnv).env.drawFinish.1 = false := by decide
/-- A completion; a step that goes on and one that aborts; a busy and a faulting sample; an idle block. -/
theorem witness_CompletionEndsTheRequest :
    (let s := { running [] 0 awake okEnv with req := some (.setBg .black) }
     s.seq = .exec ∧ s.k = s.steps.length ∧ s.req = some (.setBg .black)) ∧
      (running [.cmd 0x20] 0 awake okEnv).steps[0]? = some (.cmd 0x20) ∧
      (∃ t, step (running [.cmd 0x20] 0 awake okEnv) = .next t ∧ t.seq = .exec) ∧
      (∃ t, step (running [.cmd 0x20] 0 awake { okEnv with dc := { script := [.fail], taken := 0 } }) = .next t ∧
        t.seq = .idle) ∧
      (∃ t, step { running [.wait] 0 awake { okEnv with busy := { script := [.fault], taken := 0 } } with seq := .wait } =
        .next t) ∧
      (idleWith []).seq = .idle ∧ ∃ t, step (idleWith []) = .next t :=
  ⟨⟨rfl, rfl, rfl⟩, rfl, ⟨_, rfl, by decide⟩, ⟨_, rfl, by decide⟩, ⟨_, rfl⟩, rfl, _, rfl⟩
theorem witness_ResultsAndLifecycleAfterCompletion :
    Request.clear ≠ .getBg ∧ Request.clear ≠ .getWidth ∧ Request.clear ≠ .getHeight := by decide
/-- An idle state with the draws of REFRESH: one good transfer and one idle sample. -/
def readyToRefresh : State :=
  { idleWith [] with env := { okEnv with busy := { script := [.level Config.hw.busyIdleLevel], taken := 0 } } }
theorem refresh_counts : (stepList Config.hw .refresh readyToRefresh.bg).countP Step.isSend = 1 ∧
    (stepList Config.hw .refresh readyToRefresh.bg).countP Step.isWait = 1 ∧
    (stepList Config.hw .refresh readyToRefresh.bg).countP Step.isHwReset = 0 := ⟨rfl, rfl, rfl⟩
theorem witness_FaultFreeRequestRunsToCompletion : let s := readyToRefresh
    Instr.refresh.request? = some .refresh ∧ s.seq = .idle ∧ (∃ s', exec .refresh s = .next s') ∧
      s.env.dc.script = List.replicate ((stepList Config.hw .refresh s.bg).countP Step.isSend) PinDraw.ok ++ [PinDraw.ok] ∧
      s.env.bus.script = List.replicate ((stepList Config.hw .refresh s.bg).countP Step.isSend) BusDraw.ok ++ [BusDraw.ok] ∧
      s.env.busy.script = List.replicate ((stepList Config.hw .refresh s.bg).countP Step.isWait)
        (BusyDraw.level Config.hw.busyIdleLevel) ++ [] ∧
      s.env.rst.script = List.replicate (3 * (stepList Config.hw .refresh s.bg).countP Step.isHwReset) PinDraw.ok ++
        [PinDraw.ok, PinDraw.ok, PinDraw.ok] := by
  intro s
  obtain ⟨h1, h2, h3⟩ := refresh_counts
  rw [h1, h2, h3]
  exact ⟨rfl, rfl, ⟨_, rfl⟩, rfl, rfl, rfl, rfl⟩
/-- From an idle block: both requests are accepted; the run of no step is the first of the runs. -/
theorem witness_UploadAndRefreshIsUploadThenRefresh :
    (idleWith []).seq = .idle ∧ (∃ s1, exec (.uploadAndRefresh [0xAA]) (idleWith []) = .next s1 ∧
      Sys2Proof.core.run 0 s1 = .next s1) ∧ ∃ s2, exec (.uploadFrame [0xAA]) (idleWith []) = .next s2 :=
  ⟨rfl, ⟨_, rfl, rfl⟩, _, rfl⟩
theorem witness_PanelCommandSendsItsCode :
    encode Config.hw .swReset = .frame 0x12 none ∧ encode Config.hw (.setXCounter 1) = .frame 0x4E (some [0x01]) ∧
      (running [.cmd 0x4E, .data [0x01]] 0 awake okEnv).payloadDue = false ∧
      sendsOk (running [.cmd 0x4E, .data [0x01]] 0 awake okEnv) :=
  ⟨rfl, rfl, by decide, by decide, by decide⟩
theorem witness_PanelCommandSendsItsPayload :
    encode Config.hw (.setXCounter 1) = .frame 0x4E (some [0x01]) ∧
      (running [.cmd 0x4E, .data [0x01]] 1 awake okEnv).payloadDue = true ∧
      sendsOk (running [.cmd 0x4E, .data [0x01]] 1 awake okEnv) :=
  ⟨rfl, by decide, by decide, by decide⟩
theorem witness_PanelCommandFaultsAbort :
    ({ okEnv with dc := { script := [.fail], taken := 0 } } : Env).drawDc.1 = .fail ∧ okEnv.drawDc.1 = .ok ∧
      ({ okEnv with bus := { script := [.fault 0], taken := 0 } } : Env).drawBus.1 = .fault 0 ∧
      ({ okEnv with bus := { script := [.fault 1], taken := 0 } } : Env).drawBus.1 = .fault 1 ∧
      (running [.cmd 0x44, .data [0x00, 0x12]] 0 awake okEnv).payloadDue = false ∧
      (running [.cmd 0x44, .data [0x00, 0x12]] 1 awake okEnv).payloadDue = true := by decide
theorem witness_CodeByteAtThePanel :
    let s := running [.cmd 0x12, .wait] 0 awake okEnv
    s.payloadDue = false ∧ sendsOk s ∧ s.panel.takesBytes = true ∧ s.panel.Quiet :=
  ⟨by decide, ⟨by decide, by decide⟩, by decide, fun _ _ _ h => by cases h⟩
/-- A state at a payload with the panel awaiting it, in every frame state. -/
theorem witness_payload_due (f : FrameState) :
    let s := running [.cmd 0x10, .data [0x03]] 1 { awake with frame := f } okEnv
    s.payloadDue = true ∧ sendsOk s ∧ s.panel.takesBytes = true ∧ s.panel.frame = f :=
  ⟨rfl, ⟨rfl, rfl⟩, rfl, rfl⟩
theorem witness_RegisterCommandsWriteTheirRegisters :
    let s := running [.cmd 0x45, .data [0, 0, 0, 0]] 1 { awake with frame := .expect .setYRange 4 [] } okEnv
    s.payloadDue = true ∧ sendsOk s ∧ s.panel.takesBytes = true ∧ s.panel.frame = .expect .setYRange 4 [] :=
  ⟨rfl, ⟨rfl, rfl⟩, rfl, rfl⟩
theorem witness_SleepPatternAndStreamPayloads :
    (let s := running [.cmd 0x10, .data [0x03]] 1 { awake with frame := .expect .deepSleep 1 [] } okEnv
     s.payloadDue = true ∧ sendsOk s ∧ s.panel.takesBytes = true ∧ s.panel.frame = .expect .deepSleep 1 []) ∧
      (0x00 : Byte) ≠ Config.hw.dsPayload :=
  ⟨⟨rfl, ⟨rfl, rfl⟩, rfl, rfl⟩, by decide⟩
/-- The window of the stream witnesses: one byte, at the last row and column group. -/
def windowed : Panel := { awake with
  dem := .known 0x03, wxs := .known 31, wxe := .known 31, wys := .known 511, wye := .known 511, xc := .known 31,
  yc := .known 511 }
theorem witness_StreamFillsTheWindowRowMajor : windowed.dem = .known cfg.demPayload ∧ windowed.wxs = .known 31 ∧
    windowed.wxe = .known 31 ∧ windowed.wys = .known 511 ∧ windowed.wye = .known 511 ∧ windowed.xc = .known 31 ∧
    windowed.yc = .known 511 ∧ ([0xAA] : List Byte).length ≤ (31 - 31 + 1) * (511 - 511 + 1) := by decide
/-- A stream past its window; another data-entry mode; an unknown window end or counter; counters just outside. -/
theorem witness_StreamOutsideTheWindowForgetsThePlane : (windowed.dem = .known cfg.demPayload ∧
    windowed.xc = .known 31 ∧ windowed.yc = .known 511 ∧
    (31 - 31 + 1) * (511 - 511 + 1) < ([0xAA, 0xBB] : List Byte).length) ∧
    ({ windowed with dem := .known 0x00 } : Panel).dem ≠ .known cfg.demPayload ∧
    awake.dem ≠ .known cfg.demPayload ∧ awake.wxs = .unknown ∧ awake.wxe = .unknown ∧ awake.wys = .unknown ∧
    awake.wye = .unknown ∧ awake.xc = .unknown ∧ awake.yc = .unknown ∧
    (30 : BitVec 5).toNat < (31 : BitVec 5).toNat ∧ (510 : BitVec 9).toNat < (511 : BitVec 9).toNat := by decide
/-- One byte: with another data-entry mode, and with a counter past the window. -/
theorem test_byte_without_meaning :
    (Panel.writeByte cfg .bw { windowed with dem := .known 0x01, ramBw := [(0, 0xFF)] } 0x01).ramBw = [] ∧
      (Panel.writeByte cfg .bw { windowed with wxe := .known 30, ramBw := [(0, 0xFF)] } 0x01).ramBw = [] ∧
      (Panel.writeByte { cfg with W := 256, H := 512 } .bw windowed 0x01).ramBw = [(16383, 0x01)] := by decide
theorem witness_RamReadsBackWhatWasWritten : ((0 : BitVec 5) ≠ 1 ∨ (0 : BitVec 9) ≠ 0) ∧ Memory.wf [(0, 1), (33, 2)] = true := by
  decide
/-- A waiting state whose next sample is the given draw. -/
def waiting (d : BusyDraw) : State :=
  { running [.cmd 0x20, .wait] 1 awake { okEnv with busy := { script := [d], taken := 0 } } with seq := .wait }
theorem witness_WaitTakesOneSamplePerStep :
    (waiting .fault).seq = .wait ∧ (waiting .fault).env.drawBusy.1 = .fault ∧
      (waiting (.level Config.hw.busyIdleLevel)).env.drawBusy.1 = .level Config.hw.busyIdleLevel ∧
      (waiting (.level (otherLevel Config.hw.busyIdleLevel))).env.drawBusy.1 =
        .level (otherLevel Config.hw.busyIdleLevel) ∧
      otherLevel Config.hw.busyIdleLevel ≠ Config.hw.busyIdleLevel ∧
      (running [.cmd 0x20, .wait] 1 awake okEnv).steps[1]? = some .wait :=
  ⟨rfl, rfl, rfl, rfl, otherLevel_ne _, rfl⟩
/-- A defined panel in each state of its busy line. -/
theorem witness_WaitTakesOneSamplePerStep_panel :
    let p := Panel.startProcessing .display awake
    p.undef = false ∧ p.busy = .known true ∧ awake.undef = false ∧ awake.busy = .known false ∧
      Panel.initial.undef = false ∧ Panel.initial.busy = .unknown := by decide
/-- R253: a busy panel stays as it is under a busy sample. -/
theorem test_busy_sample_of_busy_panel :
    Panel.react cfg (.busySample .busy) (Panel.startProcessing .display awake) =
      Panel.startProcessing .display awake := by decide
theorem witness_WaitTakesOneSamplePerStep_next : ∃ t, step (waiting .fault) = .next t := ⟨_, rfl⟩
theorem witness_StuckBusyLineHangs :
    let l := otherLevel Config.hw.busyIdleLevel
    (waiting (.level l)).seq = .wait ∧ l ≠ Config.hw.busyIdleLevel ∧
      (waiting (.level l)).env.busy.script = List.replicate 1 (.level l) ++ [] :=
  ⟨rfl, otherLevel_ne _, rfl⟩
theorem witness_ResetPulseEventsAndFaults :
    let s := fun d => running [.hwReset 5 6] 0 awake { okEnv with rst := { script := d, taken := 0 } }
    (s [.ok, .ok, .ok]).seq = .exec ∧ (s [.ok, .ok, .ok]).steps[0]? = some (.hwReset 5 6) ∧
      (s [.ok, .ok, .ok]).panel.undef = false ∧ (s [.ok, .ok, .ok]).env.rst.script = .ok :: .ok :: .ok :: [] ∧
      (s [.ok, .ok, .fail]).env.rst.script = .ok :: .ok :: .fail :: [] ∧
      (s [.ok, .fail]).env.rst.script = .ok :: .fail :: [] ∧ (s [.fail]).env.rst.script = .fail :: [] := by decide
/-- The same with the chip in reset before the pulse. -/
theorem witness_ResetPulseEventsAndFaults_inReset :
    let s := running [.hwReset 5 6] 0 { awake with inReset := true, frame := .stream .bw }
      { okEnv with rst := { script := [.ok, .ok, .fail], taken := 0 } }
    s.seq = .exec ∧ s.steps[0]? = some (.hwReset 5 6) ∧ s.panel.undef = false ∧ s.panel.inReset = true ∧
      s.env.rst.script = .ok :: .ok :: .fail :: [] := by decide
/-- R255: after a failed third write a defined panel is in reset. -/
theorem test_reset_fault_leaves_the_panel_in_reset :
    (after (step (running [.hwReset 5 6] 0 { awake with frame := .stream .bw }
      { okEnv with rst := { script := [.ok, .ok, .fail], taken := 0 } }))).panel =
        { awake with inReset := true } := by decide
/-- R188: a panel that was in reset finishes between the first deassert and the assert, before the write that fails. -/
theorem test_panel_finishes_inside_the_pulse :
    (after (step (running [.hwReset 5 6] 0 { awake with inReset := true, dem := .known 0x03 }
      { okEnv with rst := { script := [.ok, .ok, .fail], taken := 0 }, finish := { script := [true], taken := 0 } }))).panel =
        { awake with inReset := true } := by decide
/-- R188: without that finish, the reset processing is still pending when the chip is in reset again. -/
theorem test_panel_stays_busy_inside_the_pulse :
    (after (step (running [.hwReset 5 6] 0 { awake with inReset := true }
      { okEnv with rst := { script := [.ok, .ok, .fail], taken := 0 }
                   finish := { script := [false, false, false], taken := 0 } }))).panel =
        { Panel.startProcessing .resetDone awake with inReset := true } := by decide
/-- Log 15: exec of a request at an idle block that has not accepted its automatic INIT. -/
theorem test_request_before_construction :
    (after (exec .refresh State.reset)).trace = [.accept .refresh] ∧
      (after (exec .refresh State.reset)).construct = true := by decide
/-- Two states the block cannot tell apart: one has an undefined panel and both marks set. -/
theorem witness_BlockIgnoresPanelAndFlags :
    sameBlock State.reset { State.reset with violation := true, refused := true, panel := Panel.initial.setUndef } :=
  ⟨rfl, rfl, rfl, rfl, rfl, rfl, rfl, rfl, rfl, rfl, rfl, rfl, rfl, rfl, rfl, rfl⟩
theorem witness_StepKeepsTheInvariant : State.reset.Inv ∧ ∃ t, step State.reset = .next t :=
  ⟨⟨by decide, fun _ => ⟨rfl, rfl, rfl⟩, fun h => (by cases h), fun h => absurd rfl h, Panel.initial_inv⟩, _, rfl⟩
/-- The same at another legal configuration. -/
theorem witness_StepKeepsTheInvariant_at : tiny.legal = true ∧ (State.initial tiny).InvAt tiny ∧
    ∃ t, stepAt tiny (State.initial tiny) = .next t :=
  ⟨by decide, ⟨by decide, fun _ => ⟨rfl, rfl, rfl⟩, fun h => (by cases h), fun h => absurd rfl h, Panel.initial_inv⟩, _, rfl⟩
theorem witness_TraceAndMarksOnlyGrow :
    let s := { idleWith [{ op := 0x4 }] with violation := true, refused := true, panel := Panel.initial.setUndef }
    s.violation = true ∧ s.refused = true ∧ s.panel.undef = true ∧ ∃ t, step s = .next t := ⟨rfl, rfl, rfl, _, rfl⟩
theorem witness_OnlySetBgWritesTheBackground :
    ∃ t, step { running [] 0 awake okEnv with req := some (.setBg .black) } = .next t ∧ t.bg ≠ .white :=
  ⟨_, rfl, by decide⟩
theorem witness_LifecycleChangesOnlyWhenARequestEnds :
    (∃ t, step { running [] 0 awake okEnv with req := some .init } = .next t ∧ t.life ≠ .uninitialized) ∧
      ∃ t, step { waiting .fault with life := .ready } = .next t ∧ t.life ≠ .ready :=
  ⟨⟨_, rfl, by decide⟩, _, rfl, by decide⟩
theorem witness_StepIndexAdvancesByOne : (waiting .fault).seq ≠ .idle ∧ ∃ t, step (waiting .fault) = .next t :=
  ⟨by decide, _, rfl⟩
theorem witness_LinesAreWrittenOnlyByTheirSteps :
    (∃ t, step (running [.cmd 0x20] 0 awake okEnv) = .next t ∧ t.dc ≠ .undriven) ∧
      ∃ t, step (running [.hwReset 5 6] 0 awake okEnv) = .next t ∧ t.rst ≠ .undriven :=
  ⟨⟨_, rfl, by decide⟩, _, rfl, by decide⟩
theorem witness_RequestWithoutWaitEnds :
    let s := { running (sleepSteps Config.hw) 0 awake okEnv with req := some .sleep }
    s.seq = .exec ∧ s.req = some .sleep ∧ s.k ≤ s.steps.length ∧ .wait ∉ s.steps := by decide
theorem awake_inv : awake.Inv := ⟨rfl, rfl, rfl, by decide, fun h => by cases h⟩
theorem witness_ForbiddenBytesLeaveThePanelUndefined :
    awake.Inv ∧ Panel.Inv { awake with inReset := true } ∧ Panel.Inv { awake with power := .known .deepSleep } ∧
      (Panel.startProcessing .display awake).Inv ∧ (Panel.setUndef awake).Inv ∧
      Config.hw.command? 0x99 = none ∧ Panel.Inv { awake with frame := .expect .deepSleep 1 [] } ∧
      awake.frame = .noFrame ∧ 1 < ([0x03, 0x03] : List Byte).length ∧
      (let p : Panel := { awake with frame := .expect .setXRange 2 [] }
       p.Inv ∧ p.frame = .expect .setXRange 2 [] ∧ ([0x00] : List Byte).length < 2 ∧ p.takesBytes = true) :=
  ⟨awake_inv, .of_eq awake_inv rfl rfl rfl rfl rfl rfl, .of_eq awake_inv rfl rfl rfl rfl rfl rfl,
    Panel.startProcessing_inv _ awake_inv rfl, Panel.setUndef_inv _, by decide,
    .of_eq awake_inv rfl rfl rfl rfl rfl rfl, rfl, by decide, .of_eq awake_inv rfl rfl rfl rfl rfl rfl, rfl, by decide,
    by decide⟩
theorem witness_FinishedProcessingTakesEffect :
    (let p := Panel.startProcessing .display awake
     p.undef = false ∧ p.busy = .known true ∧ p.pending = some .display ∧ 151 < cfg.W ∧ 295 < cfg.H) ∧
      (Panel.startProcessing .resetDone awake).pending = some .resetDone ∧
      (Panel.startProcessing .swResetDone awake).pending = some .swResetDone ∧ cfg.legal = true ∧
      (Panel.startProcessing (.fill .red true) awake).pending = some (.fill .red true) := by decide
theorem witness_InitLeavesThePanelConfigured : cfg.legal = true ∧ Panel.initial.undef = false ∧ Panel.initial.Quiet :=
  ⟨by decide, rfl, fun _ _ _ h => by cases h⟩
theorem witness_ColorFrameUploadRoundTrips :
    tiny.legal = true ∧ windowed.takesBytes = true ∧ windowed.dem = .known tiny.demPayload ∧ windowed.Quiet ∧
      ([0xAA, 0xBB] : List Byte).length = bufLen tiny ∧ 0 < stride tiny ∧ 1 < tiny.H ∧ 7 < tiny.W :=
  ⟨by decide, by decide, by decide, fun _ _ _ h => (by cases h), by decide, by decide, by decide, by decide⟩
theorem witness_PartialUploadRoundTrips :
    cfg.legal = true ∧ windowed.takesBytes = true ∧ windowed.dem = .known cfg.demPayload ∧ windowed.Quiet ∧
      windowLegal cfg 8 0 16 10 = true ∧ aligned8 8 16 = true ∧
      (zeros 20).length = capacity (partialWindow 8 0 16 10) ∧ 9 < (10 : U32).toNat ∧ 1 < (16 : U32).toNat / 8 :=
  ⟨by decide, by decide, by decide, fun _ _ _ h => (by cases h), by decide, by decide, by decide, by decide, by decide⟩
theorem witness_ClearThenRefreshShowsTheBackground :
    let p := { awake with uc1 := .known (0x00, 0x80) }
    cfg.legal = true ∧ cfg.patFieldsCover = true ∧ p.takesBytes = true ∧ p.Quiet ∧
      p.uc1 = .known (cfg.uc1Payload0, cfg.uc1Payload1) ∧ 151 < cfg.W ∧ 295 < cfg.H :=
  ⟨by decide, by decide, by decide, fun _ _ _ h => (by cases h), by decide, by decide, by decide⟩

/-- An idle, prepared block with good draws. -/
def ready : State := { idleWith [] with
  panel := { awake with dem := .known 0x03, uc1 := .known (0x00, 0x80) }
  env := { Env.initial with
    dc := { script := List.replicate 24 .ok, taken := 0 }
    bus := { script := List.replicate 24 .ok, taken := 0 }
    rst := { script := List.replicate 3 .ok, taken := 0 }
    busy := { script := List.replicate 3 (.level Config.hw.busyIdleLevel), taken := 0 }
    finish := { script := List.replicate 8 false, taken := 0 } } }

/-- A full-frame buffer. -/
@[irreducible] def full : List Byte := zeros (bufLen Config.hw)
theorem full_length : full.length = bufLen Config.hw := by rw [full]; simp [zeros]

theorem witness_CompletedRequestsObeyTheCorrespondenceLaws :
    ready.Inv ∧ ready.prepared ∧ ready.panel.prepared Config.hw ∧ aligned8 8 8 = true :=
  ⟨⟨by decide, fun _ => ⟨rfl, rfl, rfl⟩, fun h => (by cases h), fun h => absurd rfl h,
      .of_eq awake_inv rfl rfl rfl rfl rfl rfl⟩,
    fun _ _ _ => ⟨rfl, fun _ _ _ h => (by cases h), rfl, rfl⟩,
    ⟨rfl, fun _ _ _ h => (by cases h), rfl, rfl⟩, by decide⟩
/-- (a): INIT runs to completion. -/
theorem witness_CompletedRequestsObeyTheCorrespondenceLaws_init :
    ∃ t, completes (.init) ready t ∧ t.violation = false ∧ t.panel.undef = false := by
  refine completes_of_chain rfl (by decide) rfl ?_
  refine chain_cons (by decide) rfl ?_
  refine chain_cons (by decide) (step_idle_sample rfl rfl rfl) ?_
  refine chain_cons (by decide) rfl ?_
  refine chain_cons (by decide) (step_idle_sample rfl rfl rfl) ?_
  iterate 12 refine chain_cons (by decide) rfl ?_
  exact ⟨_, .last (by decide) rfl rfl, fun _ h => (by cases h), rfl, rfl⟩
/-- (b): a full-frame upload of both planes. -/
theorem witness_CompletedRequestsObeyTheCorrespondenceLaws_color :
    ∃ t, completes (.uploadColorFrame full full) ready t ∧ t.violation = false ∧ t.panel.undef = false := by
  refine completes_of_chain rfl (fun h => by cases h) rfl ?_
  iterate 9 refine chain_cons (by decide) rfl ?_
  refine chain_cons (by decide) (step_stream
    (i := .writeRamBw (snapshot full)) rfl rfl rfl ⟨rfl, rfl⟩ rfl rfl rfl) ?_
  iterate 9 refine chain_cons (by decide) rfl ?_
  refine chain_cons (by decide) (step_stream
    (i := .writeRamRed (snapshot full)) rfl rfl rfl ⟨rfl, rfl⟩ rfl rfl rfl) ?_
  refine ⟨_, .last (by decide) rfl rfl, fun _ h => (by cases h), ?_, rfl⟩
  show (false || violates Config.hw (.uploadColorFrame full full) .ready) = false
  simp [violates, full_length]
/-- (b): a full-frame upload of one plane. -/
theorem witness_CompletedRequestsObeyTheCorrespondenceLaws_frame :
    ∃ t, completes (.uploadFrame full) ready t ∧ t.violation = false ∧ t.panel.undef = false := by
  refine completes_of_chain rfl (fun h => by cases h) rfl ?_
  iterate 9 refine chain_cons (by decide) rfl ?_
  refine chain_cons (by decide) (step_stream
    (i := .writeRamBw (snapshot full)) rfl rfl rfl ⟨rfl, rfl⟩ rfl rfl rfl) ?_
  iterate 9 refine chain_cons (by decide) rfl ?_
  refine chain_cons (by decide) (step_stream
    (i := .writeRamRed (snapshot (zeros (bufLen Config.hw)))) rfl rfl rfl ⟨rfl, rfl⟩ rfl rfl rfl) ?_
  refine ⟨_, .last (by decide) rfl rfl, fun _ h => (by cases h), ?_, rfl⟩
  show (false || violates Config.hw (.uploadFrame full) .ready) = false
  simp [violates, full_length]
/-- (b), (e): UPLOAD_AND_REFRESH, whose steps are those of the uploads above and of REFRESH below. -/
theorem witness_CompletedRequestsObeyTheCorrespondenceLaws_show :
    stepList Config.hw (.uploadAndRefresh full) .white =
        stepList Config.hw (.uploadFrame full) .white ++ stepList Config.hw .refresh .white ∧
      violates Config.hw (.uploadAndRefresh full) ready.life = false :=
  ⟨rfl, by simp [violates, full_length, ready, idleWith]⟩
/-- (c): an aligned partial upload of one byte. -/
theorem witness_CompletedRequestsObeyTheCorrespondenceLaws_partial :
    ∃ t, completes (.uploadPartial [0xAA] 8 0 8 1) ready t ∧ t.violation = false ∧ t.panel.undef = false := by
  refine completes_of_chain rfl (by decide) rfl ?_
  iterate 14 refine chain_cons (by decide) rfl ?_
  exact ⟨_, .last (by decide) rfl rfl, fun _ h => (by cases h), rfl, rfl⟩
/-- (d): CLEAR and then REFRESH. -/
theorem witness_CompletedRequestsObeyTheCorrespondenceLaws_clear :
    ∃ t, completes .clear ready t ∧ t.violation = false ∧ t.panel.undef = false ∧
      ∃ u, completes .refresh t u ∧ u.violation = false ∧ u.panel.undef = false := by
  refine completes_of_chain rfl (by decide) rfl ?_
  iterate 2 refine chain_cons (by decide) rfl ?_
  refine chain_cons (by decide) (step_idle_sample rfl rfl rfl) ?_
  iterate 2 refine chain_cons (by decide) rfl ?_
  refine chain_cons (by decide) (step_idle_sample rfl rfl rfl) ?_
  refine ⟨_, .last (by decide) rfl rfl, fun _ h => (by cases h), rfl, rfl, ?_⟩
  refine completes_of_chain rfl (by decide) rfl ?_
  refine chain_cons (by decide) rfl ?_
  refine chain_cons (by decide) (step_idle_sample rfl rfl rfl) ?_
  exact ⟨_, .last (by decide) rfl rfl, fun _ h => (by cases h), rfl, rfl⟩
/-- (e): REFRESH. -/
theorem witness_CompletedRequestsObeyTheCorrespondenceLaws_refresh :
    ∃ t, completes (.refresh) ready t ∧ t.violation = false ∧ t.panel.undef = false := by
  refine completes_of_chain rfl (by decide) rfl ?_
  refine chain_cons (by decide) rfl ?_
  refine chain_cons (by decide) (step_idle_sample rfl rfl rfl) ?_
  exact ⟨_, .last (by decide) rfl rfl, fun _ h => (by cases h), rfl, rfl⟩

end Sys2Proof.Machine.Tests
end

section
/-! PROOFS. Host memory (20_memory.md R51): what `memRead` and `snapshot` return, and O11. -/

namespace Sys2Proof.Machine

/-- A read that stays inside the buffer gives as many bytes as it asks for. -/
@[simp] theorem length_memRead {buf : List Byte} {i n : Nat} (h : i + n ≤ buf.length) :
    (memRead buf i n).length = n := by
  rw [memRead, List.length_take, List.length_drop]
  omega

/-- The bytes come in ascending index order, starting at `i`. -/
@[simp] theorem getElem?_memRead {j n : Nat} (buf : List Byte) (i : Nat) (h : j < n) :
    (memRead buf i n)[j]? = buf[i + j]? := by
  rw [memRead, List.getElem?_take_of_lt h, List.getElem?_drop]

/-- A stream is the whole buffer: the read starts at byte 0 and ends with the last one. -/
@[simp] theorem snapshot_eq (buf : List Byte) : snapshot buf = buf := by
  rw [snapshot, memRead, List.drop_zero, List.take_length]

/-- Settles O11: the two rules of `memRead`, and `snapshot_eq` for the stream. -/
theorem hostBufferIsReadInOrder : Obligations.HostBufferIsReadInOrder :=
  ⟨fun buf i _ _ hlen hj => ⟨length_memRead hlen, getElem?_memRead buf i hj⟩, snapshot_eq⟩

end Sys2Proof.Machine
end

section
/-! PROOFS. The coordinate bytes (40_address_arithmetic.md R103, R104): O4 and O5, from `toNat_xEnc`, `toNat_yLo` and
`toNat_yHi`. -/

namespace Sys2Proof.Machine

/-- The column-group byte fits in five bits, so its bits 7..5 are 0 (R103). -/
theorem toNat_xEnc_lt (x : U32) : (xEnc x).toNat < 32 := by
  rw [toNat_xEnc]
  exact Nat.mod_lt _ (by decide)

/-- A byte is the encoding of every X coordinate whose column group, modulo 32, it names. -/
theorem xEnc_eq_of_group {x : U32} {b : Byte} (h : x.toNat / 8 % 32 = b.toNat) : xEnc x = b :=
  BitVec.eq_of_toNat_eq ((toNat_xEnc x).trans h)

/-- The columns 0..7 are group 0 (R103). -/
theorem xEnc_of_first_group {x : U32} (h : x.toNat ≤ 7) : xEnc x = 0x00 := by
  have hgroup : x.toNat / 8 = 0 := by omega
  exact xEnc_eq_of_group (by rw [hgroup]; rfl)

/-- The columns 248..255 are group 31, the last one a byte can name (R103). -/
theorem xEnc_of_last_group {x : U32} (hlo : 248 ≤ x.toNat) (hhi : x.toNat ≤ 255) : xEnc x = 0x1F := by
  have hgroup : x.toNat / 8 = 31 := by omega
  exact xEnc_eq_of_group (by rw [hgroup]; rfl)

/-- Settles O4: the group number and its range from `toNat_xEnc`, the two ranges of columns by their group, and the
fixed coordinates by evaluation. -/
theorem xCoordinateEncodesItsColumnGroup : Obligations.XCoordinateEncodesItsColumnGroup := by
  refine ⟨fun x => ⟨toNat_xEnc x, toNat_xEnc_lt x⟩, fun _ => xEnc_of_first_group, fun _ => xEnc_of_last_group, ?_⟩
  decide

/-- Settles O5: the two bytes as numbers from `toNat_yLo` and `toNat_yHi`, and the fixed coordinates by evaluation. -/
theorem yCoordinateEncodesAsNineBits : Obligations.YCoordinateEncodesAsNineBits := by
  refine ⟨fun y => ⟨rfl, toNat_yLo y, toNat_yHi y⟩, ?_⟩
  decide

end Sys2Proof.Machine
end

section
/-! PROOFS. The busy line held at its busy level (42_transport_busy_fsm.md R175, R183): the step of a waiting block, its
busy sample, and O41. -/

namespace Sys2Proof.Machine

/-- While its script lasts, a draw takes the head and leaves the free stream alone (log 3). -/
theorem Draws.next_of_script {α : Type} {free : Nat → α} {d : Draws α} {a : α} {rest : List α}
    (h : d.script = a :: rest) : d.next free = (a, { d with script := rest }) := by
  rw [Draws.next, h]

/-- A waiting block fetches no instruction: its step is one sample of the busy line, then the panel's turn. -/
theorem step_of_wait {s : State} (hs : s.seq = .wait) :
    step s = .next (panelTurn Config.hw (sampleBusy Config.hw s)) := by
  have hfetch : fetch Config.hw s = none := by rw [fetch, hs]
  have hturn : turn Config.hw s = sampleBusy Config.hw s := by rw [turn, hs]
  rw [step, stepWith, hfetch, hturn]
  rfl

/-- A sample at any level but the idle one only records itself (R175). -/
theorem sampleBusy_of_busy {c : Cfg} {s : State} {l : Level} (hdraw : s.env.drawBusy.1 = .level l)
    (hl : l ≠ c.busyIdleLevel) : sampleBusy c s =
      { (({ s with env := s.env.drawBusy.2 }).emit c (.busySample .busy)) with seq := .wait } := by
  simp [sampleBusy, hdraw, idleLevel, hl]

/-- A step at a scripted busy sample: the block waits on at the same step, and the script is one sample shorter. -/
theorem step_busy_sample {s : State} {l : Level} {rest : List BusyDraw} (hs : s.seq = .wait)
    (hl : l ≠ Config.hw.busyIdleLevel) (hb : s.env.busy.script = .level l :: rest) :
    ∃ t, step s = .next t ∧ t.seq = .wait ∧ t.k = s.k ∧ t.steps = s.steps ∧ t.resp = s.resp ∧
      t.trace = s.trace ++ [.busySample .busy] ∧ t.env.busy.script = rest := by
  have hnext := Draws.next_of_script (free := Config.freeBusy) hb
  have hdraw : s.env.drawBusy.1 = .level l := by rw [Env.drawBusy_fst, hnext]
  rw [step_of_wait hs, sampleBusy_of_busy hdraw hl]
  exact ⟨_, rfl, by simp [hnext]⟩

/-- Settles O41, by induction on the number of busy samples: each is one `step_busy_sample`. -/
theorem stuckBusyLineHangs : Obligations.StuckBusyLineHangs := by
  intro n l rest s hs hl hb
  induction n generalizing s with
  | zero => exact ⟨s, rfl, hs, rfl, rfl, rfl, (List.append_nil _).symm⟩
  | succ n ih =>
    obtain ⟨u, hstep, hseq, hk, hsteps, hresp, htrace, hscript⟩ := step_busy_sample hs hl hb
    obtain ⟨t, hrun, htseq, htk, htsteps, htresp, httrace⟩ := ih u hseq hscript
    refine ⟨t, (run_succ n hstep).trans hrun, htseq, htk.trans hk, htsteps.trans hsteps, htresp.trans hresp, ?_⟩
    rw [httrace, htrace, List.append_assoc, List.singleton_append, List.replicate_succ]

end Sys2Proof.Machine
end

section
/-! PROOFS. The two encoded forms (30_encoding.md R70 to R88): what each payload reader accepts, and O1, O2 and O3. -/

namespace Sys2Proof

/-- In a legal configuration a frame with a command's own code is read by that command (R7, R84). -/
theorem decodeFrame_code {c : Cfg} (hc : c.legal = true) (m : PanelCommand) (payload : Option (List Byte)) :
    decodeFrame c (c.code m) payload = decodePayload m payload := by
  rw [decodeFrame, Cfg.command?_code hc]

/-! ### What the payload readers accept (R71) -/

@[simp] theorem decode0_eq_ok {m : PanelCommand} {i j : Instr} {payload : Option (List Byte)} :
    decode0 m i payload = .ok j ↔ payload = none ∧ i = j := by
  cases payload <;> simp [decode0]

@[simp] theorem elim_error_eq_ok {o : Option Instr} {e : DecodeError} {i : Instr} :
    (o.elim (.error e) .ok : Except DecodeError Instr) = .ok i ↔ o = some i := by
  cases o <;> simp

@[simp] theorem decode1_eq_ok {m : PanelCommand} {f : Byte → Option Instr} {payload : Option (List Byte)} {i : Instr} :
    decode1 m f payload = .ok i ↔ ∃ p0, payload = some [p0] ∧ f p0 = some i := by
  unfold decode1
  split
  · simp
  · rename_i hshape
    simpa using fun p0 hp => absurd hp (hshape p0)

@[simp] theorem decode2_eq_ok {m : PanelCommand} {f : Byte → Byte → Option Instr} {payload : Option (List Byte)}
    {i : Instr} : decode2 m f payload = .ok i ↔ ∃ p0 p1, payload = some [p0, p1] ∧ f p0 p1 = some i := by
  unfold decode2
  split
  · simp
  · rename_i hshape
    simpa using fun p0 p1 hp => absurd hp (hshape p0 p1)

@[simp] theorem decode4_eq_ok {m : PanelCommand} {f : Byte → Byte → Byte → Byte → Option Instr}
    {payload : Option (List Byte)} {i : Instr} :
    decode4 m f payload = .ok i ↔ ∃ p0 p1 p2 p3, payload = some [p0, p1, p2, p3] ∧ f p0 p1 p2 p3 = some i := by
  unfold decode4
  split
  · simp
  · rename_i hshape
    simpa using fun p0 p1 p2 p3 hp => absurd hp (hshape p0 p1 p2 p3)

@[simp] theorem decodeStream_eq_ok {m : PanelCommand} {f : List Byte → Instr} {payload : Option (List Byte)}
    {i : Instr} : decodeStream m f payload = .ok i ↔ ∃ bs, payload = some bs ∧ f bs = i := by
  cases payload <;> simp [decodeStream]

/-! ### Decode after encode -/

/-- Settles O1: the code names the command (`decodeFrame_code`), the readers take the payload back field by field, and a
request record is read by its op code. -/
theorem encodeThenDecodeGivesInstruction : Obligations.EncodeThenDecodeGivesInstruction := by
  intro c hc i
  cases i with
  | swReset => exact decodeFrame_code hc .swReset _
  | dataEntryMode p0 => exact decodeFrame_code hc .dataEntryMode _
  | setXRange xs xe => exact (decodeFrame_code hc .setXRange _).trans (by simp [decodePayload])
  | setYRange ys ye => exact (decodeFrame_code hc .setYRange _).trans (by simp [decodePayload])
  | setXCounter x => exact (decodeFrame_code hc .setXCounter _).trans (by simp [decodePayload])
  | setYCounter y => exact (decodeFrame_code hc .setYCounter _).trans (by simp [decodePayload])
  | writeRamBw s => exact decodeFrame_code hc .writeRamBw _
  | writeRamRed s => exact decodeFrame_code hc .writeRamRed _
  | updateControl1 p0 p1 => exact decodeFrame_code hc .updateControl1 _
  | masterActivation => exact decodeFrame_code hc .masterActivation _
  | deepSleep p0 => exact decodeFrame_code hc .deepSleep _
  | patternBw p0 => exact decodeFrame_code hc .patternBw _
  | patternRed p0 => exact decodeFrame_code hc .patternRed _
  | _ => rfl

/-! ### Encode after decode -/

/-- A payload that a command reads is the payload of the instruction's own frame: no bit of it is dropped. -/
theorem encode_of_decodePayload (c : Cfg) {m : PanelCommand} {payload : Option (List Byte)} {i : Instr}
    (h : decodePayload m payload = .ok i) : encode c i = .frame (c.code m) payload := by
  cases m with
  | swReset | masterActivation =>
    obtain ⟨rfl, rfl⟩ := decode0_eq_ok.mp h
    rfl
  | dataEntryMode | deepSleep | patternBw | patternRed =>
    obtain ⟨p0, rfl, hi⟩ := decode1_eq_ok.mp h
    cases hi
    rfl
  | setXCounter =>
    obtain ⟨p0, rfl, hi⟩ := decode1_eq_ok.mp h
    obtain ⟨x, hx, rfl⟩ := Option.map_eq_some_iff.mp hi
    rw [← xByte_of_xField hx]
    rfl
  | updateControl1 =>
    obtain ⟨p0, p1, rfl, hi⟩ := decode2_eq_ok.mp h
    cases hi
    rfl
  | setXRange =>
    obtain ⟨p0, p1, rfl, hi⟩ := decode2_eq_ok.mp h
    obtain ⟨xs, hxs, hi⟩ := Option.bind_eq_some_iff.mp hi
    obtain ⟨xe, hxe, rfl⟩ := Option.map_eq_some_iff.mp hi
    rw [← xByte_of_xField hxs, ← xByte_of_xField hxe]
    rfl
  | setYCounter =>
    obtain ⟨p0, p1, rfl, hi⟩ := decode2_eq_ok.mp h
    obtain ⟨y, hy, rfl⟩ := Option.map_eq_some_iff.mp hi
    obtain ⟨rfl, rfl⟩ := bytes_of_yField hy
    rfl
  | setYRange =>
    obtain ⟨p0, p1, p2, p3, rfl, hi⟩ := decode4_eq_ok.mp h
    obtain ⟨ys, hys, hi⟩ := Option.bind_eq_some_iff.mp hi
    obtain ⟨ye, hye, rfl⟩ := Option.map_eq_some_iff.mp hi
    obtain ⟨rfl, rfl⟩ := bytes_of_yField hys
    obtain ⟨rfl, rfl⟩ := bytes_of_yField hye
    rfl
  | writeRamBw | writeRamRed =>
    obtain ⟨bs, rfl, rfl⟩ := decodeStream_eq_ok.mp h
    rfl

/-- A frame that decodes is the encoded form of its instruction, at any configuration. -/
theorem encode_of_decodeFrame {c : Cfg} {code : Byte} {payload : Option (List Byte)} {i : Instr}
    (h : decodeFrame c code payload = .ok i) : encode c i = .frame code payload := by
  unfold decodeFrame at h
  split at h
  · rename_i m hm
    rw [← Cfg.code_of_command? hm]
    exact encode_of_decodePayload c h
  · cases h

/-- A record's instruction is encoded as a record of the same op and meaning (R87), op by op. -/
theorem encode_decodeRequest (c : Cfg) (r : RequestWord) :
    ∃ r', encode c (decodeRequest r) = .request r' ∧ r'.op = r.op ∧ decodeRequest r' = decodeRequest r := by
  obtain ⟨⟨op, hop⟩, bw, red, x, y, w, h, col⟩ := r
  interval_cases op <;> exact ⟨_, rfl, rfl, rfl⟩

/-- Settles O2: `encode_of_decodeFrame` for frames, `encode_decodeRequest` for records. -/
theorem decodedFormsReencode : Obligations.DecodedFormsReencode :=
  ⟨fun _ _ _ _ => encode_of_decodeFrame, encode_decodeRequest⟩

/-- Settles O3: the decoder evaluates on each of the eleven numbers. -/
theorem tableWordsDecode : Obligations.TableWordsDecode := by
  unfold Obligations.TableWordsDecode
  decide

end Sys2Proof
end

section
/-! PROOFS. The addressing arithmetic (40_address_arithmetic.md): the encoders' laws, the windows, the pixel map and the
pattern payload: O6, O7, O8, O9 and O10. -/

namespace Sys2Proof.Machine

/-! ### The coordinate encoders (R105 to R108) -/

/-- The byte of an X coordinate is its column group, as a number. -/
theorem xEnc_eq_iff {x x' : U32} : xEnc x = xEnc x' ↔ x.toNat / 8 % 32 = x'.toNat / 8 % 32 := by
  rw [← BitVec.toNat_inj, toNat_xEnc, toNat_xEnc]

/-- The bytes of a Y coordinate are its nine low bits, as a number. -/
theorem yEnc_eq_iff {y y' : U32} : yEnc y = yEnc y' ↔ y.toNat % 512 = y'.toNat % 512 := by
  simp only [yEnc, List.cons.injEq, and_true, ← BitVec.toNat_inj, toNat_yLo, toNat_yHi]
  omega

/-- Clearing the three low bits of a column keeps its column group (R107). -/
theorem toNat_and_not_7_div (x : U32) : (x &&& ~~~7).toNat / 8 = x.toNat / 8 := by
  rw [BitVec.toNat_and, show (8 : Nat) = 2 ^ 3 from rfl, Nat.and_div_two_pow,
    show BitVec.toNat (~~~7 : U32) / 2 ^ 3 = 2 ^ 29 - 1 from rfl, Nat.and_two_pow_sub_one_eq_mod]
  omega

/-- Settles O6: both encoders as numbers, and linear arithmetic. -/
theorem coordinateEncodingLaws : Obligations.CoordinateEncodingLaws := by
  refine ⟨fun x1 x2 _ _ _ _ he => ?_, fun y1 y2 _ _ he => ?_, fun x => ?_, fun x => ?_, fun y => ?_⟩
  · have := xEnc_eq_iff.mp he
    exact BitVec.eq_of_toNat_eq (by omega)
  · have := yEnc_eq_iff.mp he
    exact BitVec.eq_of_toNat_eq (by omega)
  · rw [xEnc_eq_iff, toNat_and_not_7_div]
  · rw [xEnc_eq_iff, BitVec.toNat_ofNat]
    omega
  · rw [yEnc_eq_iff, BitVec.toNat_ofNat]
    omega

/-! ### Windows (R110 to R117) -/

/-- The column groups of a window whose ends are panel columns in order. -/
theorem groups_of_le {win : Win} (hle : win.xs.toNat ≤ win.xe.toNat) (hxe : win.xe.toNat < 256) :
    groups win = win.xe.toNat / 8 - win.xs.toNat / 8 + 1 := by
  rw [groups, toNat_xEnc, toNat_xEnc, if_pos (by omega)]
  omega

/-- The rows of a window whose ends are panel rows in order. -/
theorem rows_of_le {win : Win} (hle : win.ys.toNat ≤ win.ye.toNat) (hye : win.ye.toNat < 512) :
    rows win = win.ye.toNat - win.ys.toNat + 1 := by
  rw [rows, toNat_and_511, toNat_and_511, if_pos (by omega)]
  omega

/-- The last column of the full window (R110). -/
theorem toNat_fullWindow_xe {c : Cfg} (hc : c.legal = true) : (fullWindow c).xe.toNat = c.W - 1 := by
  have := bounds_of_legal hc
  simp only [fullWindow, BitVec.toNat_ofNat]
  omega

/-- The last row of the full window (R110). -/
theorem toNat_fullWindow_ye {c : Cfg} (hc : c.legal = true) : (fullWindow c).ye.toNat = c.H - 1 := by
  have := bounds_of_legal hc
  simp only [fullWindow, BitVec.toNat_ofNat]
  omega

/-- The full window covers every column group of the panel. -/
theorem groups_fullWindow {c : Cfg} (hc : c.legal = true) : groups (fullWindow c) = stride c := by
  have := bounds_of_legal hc
  have hxe := toNat_fullWindow_xe hc
  have hxs : (fullWindow c).xs.toNat = 0 := rfl
  rw [groups_of_le (by omega) (by omega), hxe, hxs, stride_eq]
  omega

/-- The full window covers every row of the panel. -/
theorem rows_fullWindow {c : Cfg} (hc : c.legal = true) : rows (fullWindow c) = c.H := by
  have := bounds_of_legal hc
  have hye := toNat_fullWindow_ye hc
  have hys : (fullWindow c).ys.toNat = 0 := rfl
  rw [rows_of_le (by omega) (by omega), hye, hys]
  omega

/-- The full window is the partial window of the whole panel (R110, R111). -/
theorem fullWindow_eq_partialWindow {c : Cfg} (hc : c.legal = true) :
    fullWindow c = partialWindow 0 0 (BitVec.ofNat 32 c.W) (BitVec.ofNat 32 c.H) := by
  have := bounds_of_legal hc
  have spanEnd : ∀ n : Nat, 1 ≤ n → n ≤ 512 →
      BitVec.ofNat 32 (n - 1) = (0 : U32) + BitVec.ofNat 32 n - 1 := by
    intro n _ _
    have hn : (BitVec.ofNat 32 n).toNat = n := by rw [BitVec.toNat_ofNat]; omega
    have h0 : (0 : U32).toNat = 0 := rfl
    apply BitVec.eq_of_toNat_eq
    rw [toNat_spanEnd (by omega) (by omega), hn, h0, BitVec.toNat_ofNat]
    omega
  simp only [fullWindow, partialWindow, Win.mk.injEq, true_and]
  exact ⟨spanEnd c.W (by omega) (by omega), spanEnd c.H (by omega) (by omega)⟩

/-- Settles O7: groups and rows of the full window are the panel's. -/
theorem fullWindowCoversThePanel : Obligations.FullWindowCoversThePanel := by
  intro c hc
  have := bounds_of_legal hc
  refine ⟨?_, ?_, fullWindow_eq_partialWindow hc, ?_⟩
  · rw [capacity, groups_fullWindow hc, rows_fullWindow hc, bufLen]
  · rw [toNat_xEnc, toNat_fullWindow_xe hc, stride_eq]
    omega
  · have h0 : (0 : U32).toNat = 0 := rfl
    simp only [windowLegal_iff, BitVec.toNat_ofNat, h0]
    omega

section
variable {c : Cfg} {x y w h : U32}

/-- The last column of a legal partial window (R111, R115). -/
theorem toNat_partialWindow_xe (hc : c.legal = true) (hw : windowLegal c x y w h = true) :
    (partialWindow x y w h).xe.toNat = x.toNat + w.toNat - 1 := by
  have := bounds_of_legal hc
  have := (windowLegal_iff c x y w h).mp hw
  exact toNat_spanEnd (by omega) (by omega)

/-- The last row of a legal partial window (R111, R115). -/
theorem toNat_partialWindow_ye (hc : c.legal = true) (hw : windowLegal c x y w h = true) :
    (partialWindow x y w h).ye.toNat = y.toNat + h.toNat - 1 := by
  have := bounds_of_legal hc
  have := (windowLegal_iff c x y w h).mp hw
  exact toNat_spanEnd (by omega) (by omega)

/-- An aligned legal window covers `w / 8` column groups. -/
theorem groups_partialWindow (hc : c.legal = true) (hw : windowLegal c x y w h = true) (ha : aligned8 x w = true) :
    groups (partialWindow x y w h) = w.toNat / 8 := by
  have := bounds_of_legal hc
  have := (windowLegal_iff c x y w h).mp hw
  have := (aligned8_iff x w).mp ha
  have hxe := toNat_partialWindow_xe hc hw
  have hxs : (partialWindow x y w h).xs = x := rfl
  rw [groups_of_le (by rw [hxs]; omega) (by omega), hxe, hxs]
  omega

/-- A legal window covers `h` rows. -/
theorem rows_partialWindow (hc : c.legal = true) (hw : windowLegal c x y w h = true) :
    rows (partialWindow x y w h) = h.toNat := by
  have := bounds_of_legal hc
  have := (windowLegal_iff c x y w h).mp hw
  have hye := toNat_partialWindow_ye hc hw
  have hys : (partialWindow x y w h).ys = y := rfl
  rw [rows_of_le (by rw [hys]; omega) (by omega), hye, hys]
  omega

end

/-- Settles O8: the groups, the rows, and their product. -/
theorem alignedWindowCapacity : Obligations.AlignedWindowCapacity := by
  intro c x y w h hc hw ha
  have hg := groups_partialWindow hc hw ha
  have hr := rows_partialWindow hc hw
  exact ⟨hg, hr, by rw [capacity, hg, hr]⟩

/-! ### Colours and pattern payloads (R82, R118 to R120) -/

/-- The mask of one bit (R82). -/
theorem getLsbD_one_shiftLeft {b i : Nat} (hi : i < 8) : ((1 : Byte) <<< b).getLsbD i = decide (b = i) := by
  rw [show ((1 : Byte) <<< b) = BitVec.twoPow 8 b from (BitVec.twoPow_eq 8 b).symm, BitVec.getLsbD_twoPow]
  by_cases hb : b = i <;> simp [hb, hi]

/-- Outside PAT_PHASE_BIT a pattern payload is PAT_FIELDS (R82, D6). -/
theorem patPayload_fields {c : Cfg} (hc : c.legal = true) (phase : Bool) :
    patPayload c phase &&& ~~~((1 : Byte) <<< c.patPhaseBit.val) = c.patFields := by
  have hp : c.patFields.getLsbD c.patPhaseBit.val = false := by
    simp only [Cfg.legal, Bool.and_eq_true, Bool.not_eq_true'] at hc
    exact hc.2
  apply BitVec.eq_of_getLsbD_eq
  intro i hi
  rw [BitVec.getLsbD_and, BitVec.getLsbD_not, getLsbD_one_shiftLeft hi, patPayload, BitVec.getLsbD_or]
  by_cases hib : c.patPhaseBit.val = i
  · rw [hib] at hp
    simp only [hib, hp, decide_true, Bool.not_true, Bool.and_false]
  · cases phase
    · simp only [hib, hi, decide_true, decide_false, Bool.not_false, Bool.and_self, Bool.and_true, Bool.false_eq_true,
        if_false, BitVec.ofNat_eq_ofNat, BitVec.getLsbD_zero, Bool.or_false]
    · simp only [hib, hi, decide_true, decide_false, Bool.not_false, Bool.and_self, Bool.and_true, if_true,
        getLsbD_one_shiftLeft hi, Bool.or_false]

/-- Settles O9: the tables by evaluation, the consistency colour by colour, and the payload bit by bit. -/
theorem clearTableAndPatternPayload : Obligations.ClearTableAndPatternPayload := by
  refine ⟨rfl, rfl, rfl, rfl, rfl, rfl, rfl, fun col => ?_, fun c phase hc => ⟨?_, patPayload_fields hc phase⟩⟩
  · cases col <;> rfl
  · exact patPayload_bits hc phase

/-! ### Pixels (R102) -/

/-- The byte of a pixel of the panel is in a full-frame buffer. -/
theorem byteIndex_lt {c : Cfg} {x y : Nat} (hx : x < c.W) (hy : y < c.H) : byteIndex c x y < bufLen c := by
  have hs := stride_eq c
  rw [byteIndex_eq, bufLen]
  calc y * stride c + x / 8 < y * stride c + stride c := by omega
    _ = (y + 1) * stride c := by ring
    _ ≤ c.H * stride c := Nat.mul_le_mul_right _ hy
    _ = stride c * c.H := Nat.mul_comm _ _

/-- Row-major positions with columns inside the row are different (R102). -/
theorem rowMajor_inj {g a a' y y' : Nat} (ha : a < g) (ha' : a' < g) (h : y * g + a = y' * g + a') : y = y' ∧ a = a' := by
  have hdiv := congrArg (· / g) h
  have hmod := congrArg (· % g) h
  have hg : 0 < g := by omega
  simp only [Nat.mul_comm _ g, Nat.mul_add_div hg, Nat.mul_add_mod, Nat.div_eq_of_lt ha, Nat.div_eq_of_lt ha',
    Nat.mod_eq_of_lt ha, Nat.mod_eq_of_lt ha'] at hdiv hmod
  exact ⟨by omega, hmod⟩

/-- A pixel of the panel as a bit of a full-frame buffer. -/
theorem pixelBit_of_length {c : Cfg} {buf : List Byte} {x y : Nat} (hx : x < c.W) (hy : y < c.H)
    (hl : buf.length = bufLen c) :
    ∃ b, buf[byteIndex c x y]? = some b ∧ pixelBit c buf x y = some (b.getLsbD (7 - x % 8)) := by
  have hlt : byteIndex c x y < buf.length := hl ▸ byteIndex_lt hx hy
  refine ⟨buf[byteIndex c x y], List.getElem?_eq_getElem hlt, ?_⟩
  rw [pixelBit_inside c buf hx hy, List.getElem?_eq_getElem hlt, Option.map_some, bitPos_eq]

/-- Settles O10: the byte is in the buffer, the position determines row, column group and bit, and a pixel outside the
panel has no bit. -/
theorem pixelsAreBitsOfTheBuffer : Obligations.PixelsAreBitsOfTheBuffer := by
  intro c _
  have hs := stride_eq c
  refine ⟨fun x y hx hy => ⟨byteIndex_eq c x y, byteIndex_lt hx hy, bitPos_eq x, fun _ => pixelBit_of_length hx hy⟩,
    fun x y x' y' hx hx' hi hb => ?_, fun buf x y => pixelBit_outside c buf⟩
  rw [byteIndex_eq, byteIndex_eq] at hi
  rw [bitPos_eq, bitPos_eq] at hb
  have := rowMajor_inj (by omega) (by omega) hi
  omega

end Sys2Proof.Machine
end

section
/-! PROOFS. The step lists (43_operations.md R200 to R223): their literal order and counts (O12, O13), and what holds of
every list because it is put together from whole frames, each with the `Wait` it owes: O14, O15 and O16. And the
contract-violation test and the results: O17, O24 and O28. -/

namespace Sys2Proof.Machine

/-! ### Literal order and counts -/

/-- Settles O12: each list unfolds to its rule's, a stream being its buffer (`snapshot_eq`). -/
theorem stepListsInLiteralOrder : Obligations.StepListsInLiteralOrder := by
  intro c bg bw red x y w h
  refine ⟨rfl, rfl, rfl, rfl, rfl, rfl, rfl, ?_, ?_⟩
  · simp only [stepList, uploadColorFrameSteps, uploadRegion, snapshot_eq]
    rfl
  · simp only [stepList, uploadPartialSteps, uploadRegion, snapshot_eq]
    rfl

/-- Settles O13: each request's list unfolds to as many steps as the check table says. -/
theorem stepCountsPerRequest : Obligations.StepCountsPerRequest := by
  intro c r bg
  cases r <;> rfl

/-! ### Whole frames and their waits -/

/-- Two codes are the same byte exactly when they name the same command (R7). -/
theorem code_beq_code {c : Cfg} (hc : c.legal = true) (m m' : PanelCommand) :
    (c.code m == c.code m') = decide (m = m') := by
  by_cases h : m = m'
  · simp [h]
  · simpa [h] using fun he => h (Cfg.code_injective hc he)

/-- The step at `k` stands in a frame that decodes to a well-formed panel command (R71, R85). -/
def FrameDecodes (c : Cfg) (steps : List Step) (k : Nat) : Prop :=
  ∃ code payload i, frameAt steps k = some (code, payload) ∧ decodeFrame c code payload = .ok i ∧ i.wf c = true ∧
    i.request? = none

/-- A piece of a step list made of whole frames and reset pulses, each with its `Wait` where it owes one: it does not
begin in the middle of a frame, exactly its processing steps are followed by a `Wait`, and its frames decode. -/
structure Segment (c : Cfg) (steps : List Step) : Prop where
  startsNoData : ∀ bs, steps[0]? ≠ some (.data bs)
  startsNoWait : steps[0]? ≠ some .wait
  waits : ∀ k, steps[k + 1]? = some .wait ↔ processingAt c steps k = true
  decodes : ∀ k st, steps[k]? = some st → ((∃ b, st = .cmd b) ∨ ∃ bs, st = .data bs) → FrameDecodes c steps k

section
variable {c : Cfg} {A B : List Step} {k : Nat}

theorem processingAt_append_left (hk : k < A.length) : processingAt c (A ++ B) k = processingAt c A k := by
  have hprev : ∀ j, k = j + 1 → (A ++ B)[j]? = A[j]? := fun j hj => List.getElem?_append_left (by omega)
  unfold processingAt
  rw [List.getElem?_append_left hk]
  cases k with
  | zero => rfl
  | succ j => simp only [hprev j rfl]

theorem processingAt_append_right (hB : ∀ bs, B[0]? ≠ some (.data bs)) (j : Nat) :
    processingAt c (A ++ B) (A.length + j) = processingAt c B j := by
  have hget : ∀ i, (A ++ B)[A.length + i]? = B[i]? := fun i => by
    rw [List.getElem?_append_right (by omega), Nat.add_sub_cancel_left]
  unfold processingAt
  rw [hget]
  cases j with
  | zero =>
    cases h : B[0]? with
    | none => rfl
    | some st =>
      cases st with
      | data bs => exact absurd h (hB bs)
      | _ => rfl
  | succ j =>
    rw [← Nat.add_assoc]
    simp only [hget]

theorem frameAt_append_left (hk : k < A.length) (hB : ∀ bs, B[0]? ≠ some (.data bs)) :
    frameAt (A ++ B) k = frameAt A k := by
  have hprev : ∀ j, k = j + 1 → (A ++ B)[j]? = A[j]? := fun j hj => List.getElem?_append_left (by omega)
  unfold frameAt
  rw [List.getElem?_append_left hk]
  cases hst : A[k]? with
  | none => rfl
  | some st =>
    cases st with
    | cmd b =>
      rcases Nat.lt_or_ge (k + 1) A.length with hk' | hk'
      · rw [List.getElem?_append_left hk']
      · rw [List.getElem?_append_right hk', List.getElem?_eq_none hk', show k + 1 - A.length = 0 by omega]
        cases h : B[0]? with
        | none => rfl
        | some st =>
          cases st with
          | data bs => exact absurd h (hB bs)
          | _ => rfl
    | data bs =>
      cases k with
      | zero => rfl
      | succ j => simp only [hprev j rfl]
    | _ => rfl

theorem frameAt_append_right (hB : ∀ bs, B[0]? ≠ some (.data bs)) (j : Nat) :
    frameAt (A ++ B) (A.length + j) = frameAt B j := by
  have hget : ∀ i, (A ++ B)[A.length + i]? = B[i]? := fun i => by
    rw [List.getElem?_append_right (by omega), Nat.add_sub_cancel_left]
  unfold frameAt
  rw [hget, Nat.add_assoc, hget]
  cases j with
  | zero =>
    cases h : B[0]? with
    | none => rfl
    | some st =>
      cases st with
      | data bs => exact absurd h (hB bs)
      | _ => rfl
  | succ j =>
    rw [← Nat.add_assoc]
    simp only [hget]

end

/-- Segments in a row are a segment: at the seam nothing is owed and no frame is cut. -/
theorem Segment.append {c : Cfg} {A B : List Step} (hA : Segment c A) (hB : Segment c B) : Segment c (A ++ B) where
  startsNoData := by
    cases A with
    | nil => exact hB.startsNoData
    | cons st A => exact hA.startsNoData
  startsNoWait := by
    cases A with
    | nil => exact hB.startsNoWait
    | cons st A => exact hA.startsNoWait
  waits := by
    intro k
    rcases Nat.lt_or_ge k A.length with hk | hk
    · rw [processingAt_append_left hk, ← hA.waits]
      rcases Nat.lt_or_ge (k + 1) A.length with hk' | hk'
      · rw [List.getElem?_append_left hk']
      · rw [List.getElem?_append_right hk', List.getElem?_eq_none hk', show k + 1 - A.length = 0 by omega]
        simpa using hB.startsNoWait
    · obtain ⟨j, rfl⟩ := Nat.exists_eq_add_of_le hk
      rw [processingAt_append_right hB.startsNoData, ← hB.waits, List.getElem?_append_right (by omega),
        show A.length + j + 1 - A.length = j + 1 by omega]
  decodes := by
    intro k st hst hframe
    unfold FrameDecodes
    rcases Nat.lt_or_ge k A.length with hk | hk
    · rw [frameAt_append_left hk hB.startsNoData]
      exact hA.decodes k st (by rwa [List.getElem?_append_left hk] at hst) hframe
    · obtain ⟨j, rfl⟩ := Nat.exists_eq_add_of_le hk
      rw [frameAt_append_right hB.startsNoData]
      exact hB.decodes j st (by rwa [List.getElem?_append_right hk, Nat.add_sub_cancel_left] at hst) hframe

theorem Segment.nil (c : Cfg) : Segment c [] where
  startsNoData := by simp
  startsNoWait := by simp
  waits := by simp [processingAt]
  decodes := by simp

/-- A reset pulse with its `Wait`. -/
theorem Segment.pulse (c : Cfg) (d1 d2 : Nat) : Segment c [.hwReset d1 d2, .wait] where
  startsNoData := by simp
  startsNoWait := by simp
  waits
    | 0 => by simp [processingAt]
    | 1 => by simp [processingAt]
    | k + 2 => by simp [processingAt]
  decodes
    | 0, st, hst, hf => by simp at hst; subst hst; simp at hf
    | 1, st, hst, hf => by simp at hst; subst hst; simp at hf
    | k + 2, st, hst, _ => by simp at hst

/-- A frame that its command reads decodes, wherever it stands. -/
theorem frameDecodes_of {c : Cfg} (hc : c.legal = true) {m : PanelCommand} {payload : Option (List Byte)}
    {steps : List Step} {k : Nat} (hd : ∃ i, decodePayload m payload = .ok i ∧ i.wf c = true)
    (hf : frameAt steps k = some (c.code m, payload)) : FrameDecodes c steps k := by
  obtain ⟨i, hi, hwf⟩ := hd
  exact ⟨_, _, i, hf, (decodeFrame_code hc m payload).trans hi, hwf, request?_of_decodePayload hi⟩

/-- SW_RESET or MASTER_ACTIVATION with its `Wait`. -/
theorem Segment.code {c : Cfg} (hc : c.legal = true) {m : PanelCommand} (hm : m = .swReset ∨ m = .masterActivation) :
    Segment c (frame c m [] ++ [.wait]) := by
  have hlist : frame c m [] ++ [.wait] = [.cmd (c.code m), .wait] := by rcases hm with rfl | rfl <;> rfl
  have hd : ∃ i, decodePayload m none = .ok i ∧ i.wf c = true := by rcases hm with rfl | rfl <;> exact ⟨_, rfl, rfl⟩
  have hproc : (c.code m == c.cmdSwReset || c.code m == c.cmdMasterActivation) = true := by
    rcases hm with rfl | rfl <;> simp [Cfg.code]
  rw [hlist]
  exact {
    startsNoData := by simp
    startsNoWait := by simp
    waits := fun
      | 0 => by simpa [processingAt] using hproc
      | 1 => by simp [processingAt]
      | k + 2 => by simp [processingAt]
    decodes := fun
      | 0, _, _, _ => frameDecodes_of hc hd rfl
      | 1, st, hst, hf => by simp at hst; subst hst; simp at hf
      | k + 2, st, hst, _ => by simp at hst }

/-- A command that is not processing, with its payload. -/
theorem Segment.payload {c : Cfg} (hc : c.legal = true) {m : PanelCommand} {p : List Byte} (hm : m.processing = false)
    (hd : ∃ i, decodePayload m (some p) = .ok i ∧ i.wf c = true) : Segment c (frame c m p) := by
  have hlist : frame c m p = [.cmd (c.code m), .data p] := by cases m <;> first | rfl | cases hm
  have hne : ∀ m' : PanelCommand, m'.processing = true → (c.code m == c.code m') = false := by
    intro m' hm'
    rw [code_beq_code hc, decide_eq_false_iff_not]
    rintro rfl
    rw [hm] at hm'
    cases hm'
  have hcode : (c.code m == c.cmdSwReset || c.code m == c.cmdMasterActivation) = false :=
    (congrArg₂ or (hne .swReset rfl) (hne .masterActivation rfl))
  have hdata : (c.code m == c.cmdPatternBw || c.code m == c.cmdPatternRed) = false :=
    (congrArg₂ or (hne .patternBw rfl) (hne .patternRed rfl))
  rw [hlist]
  exact {
    startsNoData := by simp
    startsNoWait := by simp
    waits := fun
      | 0 => by simpa [processingAt] using hcode
      | 1 => by simpa [processingAt] using hdata
      | k + 2 => by simp [processingAt]
    decodes := fun
      | 0, _, _, _ => frameDecodes_of hc hd rfl
      | 1, _, _, _ => frameDecodes_of hc hd rfl
      | k + 2, st, hst, _ => by simp at hst }

/-- A pattern command with its payload and its `Wait`. -/
theorem Segment.pattern {c : Cfg} (hc : c.legal = true) {m : PanelCommand} (phase : Bool)
    (hm : m = .patternBw ∨ m = .patternRed) : Segment c (frame c m [patPayload c phase] ++ [.wait]) := by
  have hlist : frame c m [patPayload c phase] ++ [.wait] = [.cmd (c.code m), .data [patPayload c phase], .wait] := by
    rcases hm with rfl | rfl <;> rfl
  have hd : ∃ i, decodePayload m (some [patPayload c phase]) = .ok i ∧ i.wf c = true := by
    rcases hm with rfl | rfl <;> exact ⟨_, rfl, decide_eq_true (patPayload_fields hc phase)⟩
  have hcode : (c.code m == c.cmdSwReset || c.code m == c.cmdMasterActivation) = false := by
    rcases hm with rfl | rfl <;>
      exact congrArg₂ or (code_beq_code hc _ .swReset) (code_beq_code hc _ .masterActivation)
  have hdata : (c.code m == c.cmdPatternBw || c.code m == c.cmdPatternRed) = true := by
    rcases hm with rfl | rfl <;> simp [Cfg.code]
  rw [hlist]
  exact {
    startsNoData := by simp
    startsNoWait := by simp
    waits := fun
      | 0 => by simpa [processingAt] using hcode
      | 1 => by simpa [processingAt] using hdata
      | 2 => by simp [processingAt]
      | k + 3 => by simp [processingAt]
    decodes := fun
      | 0, _, _, _ => frameDecodes_of hc hd rfl
      | 1, _, _, _ => frameDecodes_of hc hd rfl
      | 2, st, hst, hf => by simp at hst; subst hst; simp at hf
      | k + 3, st, hst, _ => by simp at hst }

/-! ### Every step list is made of segments -/

@[simp] theorem xField_xEnc (x : U32) : xField (xEnc x) = some ((xEnc x).setWidth 5) := if_pos (toNat_xEnc_lt x)

@[simp] theorem yField_yEnc (y : U32) : yField (yLo y) (yHi y) = some (rowOf y) := by
  have := toNat_yHi y
  rw [yField, if_pos (by omega), rowOf_yEnc]

section
variable {c : Cfg} (hc : c.legal = true)
include hc

theorem segment_setWindow (win : Win) : Segment c (setWindow c win) :=
  (Segment.payload hc rfl ⟨.setXRange ((xEnc win.xs).setWidth 5) ((xEnc win.xe).setWidth 5),
    by simp [decodePayload, xRangePayload], rfl⟩).append
    (Segment.payload hc rfl ⟨.setYRange (rowOf win.ys) (rowOf win.ye), by simp [decodePayload, yRangePayload, yEnc], rfl⟩)

theorem segment_setCursor (x y : U32) : Segment c (setCursor c x y) :=
  (Segment.payload hc rfl ⟨.setXCounter ((xEnc x).setWidth 5), by simp [decodePayload, xCounterPayload], rfl⟩).append
    (Segment.payload hc rfl ⟨.setYCounter (rowOf y), by simp [decodePayload, yCounterPayload, yEnc], rfl⟩)

theorem segment_uploadRegion (pl : Plane) (bs : List Byte) (win : Win) : Segment c (uploadRegion c pl bs win) := by
  refine ((segment_setWindow hc _).append (segment_setCursor hc _ _)).append ?_
  cases pl <;> exact Segment.payload hc rfl ⟨_, rfl, rfl⟩

theorem segment_initSteps : Segment c (initSteps c) :=
  (((((Segment.pulse c _ _).append (Segment.code hc (.inl rfl))).append
    (Segment.payload hc rfl ⟨.dataEntryMode c.demPayload, rfl, decide_eq_true rfl⟩)).append (segment_setWindow hc _)).append
    (Segment.payload hc rfl ⟨.updateControl1 c.uc1Payload0 c.uc1Payload1, rfl, decide_eq_true ⟨rfl, rfl⟩⟩)).append
    (segment_setCursor hc _ _)

theorem segment_refreshSteps : Segment c (refreshSteps c) := Segment.code hc (.inr rfl)

theorem segment_clearSteps (bg : Color) : Segment c (clearSteps c bg) := by
  rw [clearSteps, List.append_assoc]
  exact (Segment.pattern hc _ (.inl rfl)).append (Segment.pattern hc _ (.inr rfl))

/-- Every step list is a segment. -/
theorem segment_stepList (r : Request) (bg : Color) : Segment c (stepList c r bg) := by
  cases r with
  | init | wake => exact segment_initSteps hc
  | uploadFrame bw | uploadColorFrame bw red => exact (segment_uploadRegion hc _ _ _).append (segment_uploadRegion hc _ _ _)
  | uploadPartial bw x y w h => exact (segment_uploadRegion hc _ _ _).append (segment_setWindow hc _)
  | refresh => exact segment_refreshSteps hc
  | uploadAndRefresh bw =>
    exact ((segment_uploadRegion hc _ _ _).append (segment_uploadRegion hc _ _ _)).append (segment_refreshSteps hc)
  | clear => exact segment_clearSteps hc bg
  | sleep =>
    exact Segment.payload hc (m := .deepSleep) (p := [c.dsPayload]) rfl
      ⟨.deepSleep c.dsPayload, rfl, decide_eq_true rfl⟩
  | setBg | getBg | getWidth | getHeight => exact Segment.nil c

end

/-- Settles O14: a step list is a segment, and in a segment exactly the processing steps are followed by a `Wait`. -/
theorem exactlyProcessingStepsAreFollowedByWait : Obligations.ExactlyProcessingStepsAreFollowedByWait :=
  fun _ r bg k hc => (segment_stepList hc r bg).waits k

/-- Settles O16: a step list is a segment, and every frame of a segment decodes. -/
theorem everyFrameOfAStepListDecodes : Obligations.EveryFrameOfAStepListDecodes :=
  fun _ r bg k st hc => (segment_stepList hc r bg).decodes k st

/-! ### Self-contained RAM writes (R206) -/

/-- Each RAM write of the list directly follows the window and cursor commands of one window. -/
def WritesAddressed (c : Cfg) (steps : List Step) : Prop :=
  ∀ (k : Nat) (b : Byte), steps[k]? = some (.cmd b) → (b = c.cmdWriteRamBw ∨ b = c.cmdWriteRamRed) →
    8 ≤ k ∧ ∃ win : Win, (steps.drop (k - 8)).take 8 = setWindow c win ++ setCursor c win.xs win.ys

theorem WritesAddressed.append {c : Cfg} {A B : List Step} (hA : WritesAddressed c A) (hB : WritesAddressed c B) :
    WritesAddressed c (A ++ B) := by
  intro k b hk hb
  rcases Nat.lt_or_ge k A.length with h | h
  · obtain ⟨h8, win, hwin⟩ := hA k b (by rwa [List.getElem?_append_left h] at hk) hb
    refine ⟨h8, win, ?_⟩
    rw [List.drop_append_of_le_length (by omega), List.take_append_of_le_length (by rw [List.length_drop]; omega), hwin]
  · obtain ⟨j, rfl⟩ := Nat.exists_eq_add_of_le h
    obtain ⟨h8, win, hwin⟩ := hB j b (by rwa [List.getElem?_append_right h, Nat.add_sub_cancel_left] at hk) hb
    refine ⟨by omega, win, ?_⟩
    rw [show A.length + j - 8 = A.length + (j - 8) by omega, List.drop_length_add_append, hwin]

/-- A list without a RAM write. -/
theorem writesAddressed_of_not_mem {c : Cfg} {steps : List Step} (h1 : .cmd c.cmdWriteRamBw ∉ steps)
    (h2 : .cmd c.cmdWriteRamRed ∉ steps) : WritesAddressed c steps := by
  intro k b hk hb
  have hmem := List.mem_of_getElem? hk
  rcases hb with rfl | rfl
  · exact absurd hmem h1
  · exact absurd hmem h2

/-- A frame of another command is no RAM write. -/
theorem writesAddressed_frame {c : Cfg} (hc : c.legal = true) {m : PanelCommand} (p : List Byte)
    (h1 : m ≠ .writeRamBw) (h2 : m ≠ .writeRamRed) : WritesAddressed c (frame c m p) := by
  have hcode : ∀ m' : PanelCommand, m ≠ m' → Step.cmd (c.code m') ∉ frame c m p := by
    intro m' hne hmem
    have hmem' : Step.cmd (c.code m') = .cmd (c.code m) := by
      unfold frame at hmem
      split at hmem <;> simpa using hmem
    exact hne (Cfg.code_injective hc (Step.cmd.inj hmem').symm)
  exact writesAddressed_of_not_mem (hcode .writeRamBw h1) (hcode .writeRamRed h2)

section
variable {c : Cfg} (hc : c.legal = true)
include hc

theorem writesAddressed_setWindow (win : Win) : WritesAddressed c (setWindow c win) :=
  (writesAddressed_frame hc _ (by decide) (by decide)).append (writesAddressed_frame hc _ (by decide) (by decide))

theorem writesAddressed_setCursor (x y : U32) : WritesAddressed c (setCursor c x y) :=
  (writesAddressed_frame hc _ (by decide) (by decide)).append (writesAddressed_frame hc _ (by decide) (by decide))

/-- A region's only RAM write is its ninth step, after its own window and cursor (R205). -/
theorem writesAddressed_uploadRegion (pl : Plane) (bs : List Byte) (win : Win) :
    WritesAddressed c (uploadRegion c pl bs win) := by
  intro k b hk hb
  have hlen : (setWindow c win ++ setCursor c win.xs win.ys).length = 8 := rfl
  have hfr : frame c (writeCommand pl) (snapshot bs) = [.cmd (c.code (writeCommand pl)), .data (snapshot bs)] := by
    cases pl <;> rfl
  rcases Nat.lt_or_ge k 8 with h | h
  · rw [uploadRegion, List.getElem?_append_left (by omega)] at hk
    exact absurd (((writesAddressed_setWindow hc win).append (writesAddressed_setCursor hc _ _)) k b hk hb).1 (by omega)
  · obtain ⟨j, rfl⟩ := Nat.exists_eq_add_of_le h
    rw [uploadRegion, List.getElem?_append_right (by omega), hlen, Nat.add_sub_cancel_left, hfr] at hk
    obtain rfl : j = 0 := by
      rcases j with _ | _ | j
      · rfl
      · simp at hk
      · simp at hk
    exact ⟨h, win, by rw [uploadRegion, Nat.add_zero, Nat.sub_self, List.drop_zero, ← hlen, List.take_left]⟩

theorem writesAddressed_initSteps : WritesAddressed c (initSteps c) :=
  ((((((writesAddressed_of_not_mem (by simp) (by simp)).append
    (writesAddressed_frame hc _ (by decide) (by decide))).append (writesAddressed_of_not_mem (by simp) (by simp))).append
    (writesAddressed_frame hc _ (by decide) (by decide))).append (writesAddressed_setWindow hc _)).append
    (writesAddressed_frame hc _ (by decide) (by decide))).append (writesAddressed_setCursor hc _ _)

theorem writesAddressed_refreshSteps : WritesAddressed c (refreshSteps c) :=
  (writesAddressed_frame hc _ (by decide) (by decide)).append (writesAddressed_of_not_mem (by simp) (by simp))

theorem writesAddressed_stepList (r : Request) (bg : Color) : WritesAddressed c (stepList c r bg) := by
  cases r with
  | init | wake => exact writesAddressed_initSteps hc
  | uploadFrame bw | uploadColorFrame bw red =>
    exact (writesAddressed_uploadRegion hc _ _ _).append (writesAddressed_uploadRegion hc _ _ _)
  | uploadPartial bw x y w h => exact (writesAddressed_uploadRegion hc _ _ _).append (writesAddressed_setWindow hc _)
  | refresh => exact writesAddressed_refreshSteps hc
  | uploadAndRefresh bw =>
    exact ((writesAddressed_uploadRegion hc _ _ _).append (writesAddressed_uploadRegion hc _ _ _)).append
      (writesAddressed_refreshSteps hc)
  | clear =>
    exact (((writesAddressed_frame hc _ (by decide) (by decide)).append
      (writesAddressed_of_not_mem (by simp) (by simp))).append (writesAddressed_frame hc _ (by decide) (by decide))).append
      (writesAddressed_of_not_mem (by simp) (by simp))
  | sleep => exact writesAddressed_frame hc (m := .deepSleep) _ (by decide) (by decide)
  | setBg | getBg | getWidth | getHeight => exact writesAddressed_of_not_mem (by simp [stepList]) (by simp [stepList])

end

/-- Settles O15: only regions write RAM, each after its own window and cursor. -/
theorem ramWritesAreSelfContained : Obligations.RamWritesAreSelfContained :=
  fun _ r bg k b hc => writesAddressed_stepList hc r bg k b

/-! ### What is recorded beside the steps -/

/-- Settles O17: each test is the disjunction of its clauses, a window being legal as `windowLegal_iff` says. -/
theorem contractViolationConditions : Obligations.ContractViolationConditions := by
  intro c life bw red x y w h col
  refine ⟨?_, ?_, ?_, ?_, ?_, ?_, ?_, rfl, rfl, rfl, rfl, rfl, rfl⟩
  case refine_4 =>
    simp only [violates, Bool.or_eq_true, decide_eq_true_eq, Bool.not_eq_true', ← Bool.not_eq_true, windowLegal_iff,
      or_assoc]
  all_goals simp only [violates, Bool.or_eq_true, decide_eq_true_eq, or_assoc]

/-- Settles O24: each request by evaluation. -/
theorem hostInstructionsAreTheThirteenRequests : Obligations.HostInstructionsAreTheThirteenRequests :=
  fun _ _ _ _ _ _ => ⟨rfl, rfl, rfl, rfl, rfl, rfl, rfl, rfl, rfl, rfl, rfl, rfl, rfl, rfl, rfl, rfl⟩

/-- Settles O28: the results by evaluation, and the lifecycle table request by request. -/
theorem resultsAndLifecycleAfterCompletion : Obligations.ResultsAndLifecycleAfterCompletion := by
  intro life bg r
  refine ⟨rfl, rfl, rfl, ?_, ?_⟩
  · cases r <;> simp [lifeAfter]
  · cases r <;> simp [result]

end Sys2Proof.Machine
end

section
/-! PROOFS. The step and the request port (42_transport_busy_fsm.md R185 to R188, 60_exceptions.md R284, R290, R291): a
step is one block transition and the panel's turn; reset; acceptance, refusal and holding of requests; the abort: O18 to
O23, O25, O26 and O43. -/

namespace Sys2Proof.Machine

/-! ### The panel's turn (R188) -/

/-- Settles O22: the turn by the two values of its draw. -/
theorem panelTurnFinishesOrNot : Obligations.PanelTurnFinishesOrNot :=
  fun c s => ⟨panelTurn_of_none c s, fun _ he =>
    ⟨fun hd => by simp [panelTurn, he, hd], fun hd => by simp [panelTurn, he, hd]⟩⟩

/-! ### The fetch (R185) -/

section
variable {c : Cfg} {s : State}

theorem fetch_of_offer {w : RequestWord} {s' : State} (hs : s.seq = .idle) (ho : takeOffer s = some (w, s')) :
    fetch c s = some (decodeRequest w, s') := by
  simp [fetch, hs, ho]

theorem fetch_of_no_offer (hs : s.seq = .idle) (ho : takeOffer s = none) : fetch c s = none := by
  simp [fetch, hs, ho]

theorem fetch_of_frame {code : Byte} {payload : Option (List Byte)} {i : Instr} (hs : s.seq = .exec)
    (hf : frameAt s.steps s.k = some (code, payload)) (hd : decodeFrame c code payload = .ok i) :
    fetch c s = some (i, s) := by
  simp [fetch, hs, hf, hd]

theorem takeOffer_of_construct (hc : s.construct = true) :
    takeOffer s = some ({ op := 0x0 }, { s with construct := false }) := by
  simp [takeOffer, hc]

theorem takeOffer_of_offers {w : RequestWord} {rest : List RequestWord} (hc : s.construct = false)
    (ho : s.env.offers = w :: rest) : takeOffer s = some (w, { s with env := { s.env with offers := rest } }) := by
  simp [takeOffer, hc, ho]

/-- Taking an offer leaves the sequencer as it is. -/
theorem takeOffer_seq {s' : State} {w : RequestWord} (h : takeOffer s = some (w, s')) : s'.seq = s.seq := by
  obtain ⟨b, os, rfl⟩ := takeOffer_eq h
  rfl

/-- The meaning of the frame the step index stands in is the step at the step index (R185). -/
theorem sendFrame_of_frameAt {code : Byte} {payload : Option (List Byte)}
    (h : frameAt s.steps s.k = some (code, payload)) : sendFrame c code payload s = stepTurn c s := by
  unfold frameAt at h
  cases hst : s.steps[s.k]? with
  | none => simp [hst] at h
  | some st =>
    cases st with
    | cmd b =>
      have hdue : s.payloadDue = false := by simp [State.payloadDue, hst]
      have hb : b = code := by
        simp only [hst] at h
        split at h <;> exact congrArg Prod.fst (Option.some.inj h)
      rw [sendFrame_code c code payload s (.inl hdue), stepTurn, hst, hb]
    | data bs =>
      have hdue : s.payloadDue = true := by simp [State.payloadDue, hst]
      have hp : payload = some bs := by
        simp only [hst] at h
        split at h
        · cases h
        · split at h
          · exact (congrArg Prod.snd (Option.some.inj h)).symm
          · cases h
      rw [hp, sendFrame_payload c code bs s hdue, stepTurn, hst]
    | hwReset d1 d2 => simp [hst] at h
    | wait => simp [hst] at h
    | delay us => simp [hst] at h

/-! ### The request port -/

theorem offerRequest_of_idle (w : RequestWord) (r : Request) (hs : s.seq = .idle) :
    offerRequest c w r s = acceptRequest c r s := if_pos hs

theorem offerRequest_of_busy (w : RequestWord) (r : Request) (hs : s.seq ≠ .idle) :
    offerRequest c w r s = holdOffer w s := if_neg hs

theorem offerRefused_of_idle (w : RequestWord) (hs : s.seq = .idle) : offerRefused w s = refuseRequest s := if_pos hs

theorem offerRefused_of_busy (w : RequestWord) (hs : s.seq ≠ .idle) : offerRefused w s = holdOffer w s := if_neg hs

/-- The meaning of a request record at an idle block: its request is accepted (R185). -/
theorem meaningAt_accepts {w : RequestWord} {r : Request} (hs : s.seq = .idle)
    (hr : (decodeRequest w).request? = some r) : meaningAt c (decodeRequest w) s = .next (acceptRequest c r s) := by
  obtain ⟨w', -, hm⟩ := meaningAt_of_request c hr s
  rw [hm, offerRequest_of_idle w' r hs]

/-- The meaning of a reserved record at an idle block: it is refused (R291). -/
theorem meaningAt_refuses {w : RequestWord} (hs : s.seq = .idle) (hr : (decodeRequest w).request? = none) :
    meaningAt c (decodeRequest w) s = .next (refuseRequest s) := by
  obtain ⟨w', he, -⟩ := encode_decodeRequest c w
  rw [meaningAt_of_refused he hr, offerRefused_of_idle w' hs]

end

/-- Fetching, decoding and running an instruction is one block transition (R185), and then the panel's turn. -/
theorem stepWith_meaningAt (c : Cfg) (s : State) : stepWith c (meaningAt c) s = .next (panelTurn c (turn c s)) := by
  unfold stepWith
  cases hs : s.seq with
  | idle =>
    cases ho : takeOffer s with
    | none => rw [fetch_of_no_offer hs ho, thenPanel_next]
    | some p =>
      obtain ⟨w, s'⟩ := p
      have hs' := (takeOffer_seq ho).trans hs
      simp only [fetch_of_offer hs ho, turn, hs, ho]
      cases hr : (decodeRequest w).request? with
      | some r => rw [meaningAt_accepts hs' hr, thenPanel_next]
      | none => rw [meaningAt_refuses hs' hr, thenPanel_next]
  | wait =>
    have hf : fetch c s = none := by rw [fetch, hs]
    rw [hf, thenPanel_next]
  | exec =>
    cases hf : fetch c s with
    | none => simp only [thenPanel_next]
    | some p =>
      obtain ⟨i, t⟩ := p
      simp only [fetch, hs] at hf
      split at hf
      · rename_i code payload hframe
        split at hf
        · rename_i j hd
          cases hf
          simp only [meaningAt_of_frame (encode_of_decodeFrame hd), thenPanel_next, sendFrame_of_frameAt hframe, turn, hs]
        · cases hf
      · cases hf

theorem stepAt_eq {c : Cfg} (hc : c.legal = true) (s : State) : stepAt c s = .next (panelTurn c (turn c s)) := by
  rw [stepAt_of_legal hc, stepWith_meaningAt]

theorem exec_eq_execAt (i : Instr) (s : State) : exec i s = execAt Config.hw i s := by
  rw [execAt_of_legal Config.hw_legal, exec_eq_meaningAt]

theorem step_eq_stepAt (s : State) : step s = stepAt Config.hw s := by
  have hrun : exec = meaningAt Config.hw := funext fun i => funext fun t => exec_eq_meaningAt i t
  rw [stepAt_of_legal Config.hw_legal, step, hrun]

/-- A step of this hardware is one block transition and then the panel's turn. -/
theorem step_eq (s : State) : step s = .next (panelTurn Config.hw (turn Config.hw s)) := by
  rw [step_eq_stepAt, stepAt_eq Config.hw_legal]

/-- What a step leads to. -/
theorem step_next_iff {s t : State} : step s = .next t ↔ t = panelTurn Config.hw (turn Config.hw s) := by
  rw [step_eq, Host.Outcome.next.injEq, eq_comm]

theorem coreAt_hw : coreAt Config.hw = some Sys2Proof.core := by
  have hstep : step = stepAt Config.hw := funext step_eq_stepAt
  rw [coreAt, if_pos Config.hw_legal, Sys2Proof.core, hstep]
  rfl

/-- Settles O21: `stepWith_meaningAt` at a legal configuration; an illegal one is refused by every definition's test. -/
theorem stepIsOneBlockTransition : Obligations.StepIsOneBlockTransition := by
  refine ⟨fun c s hc => stepAt_eq hc s, step_eq, exec_eq_execAt, step_eq_stepAt, if_pos Config.hw_legal, coreAt_hw,
    fun c hc => ⟨fun i s => ?_, fun s => ?_, ?_, fun s => ?_, ?_⟩⟩
  · simp [execAt, hc]
  · simp [stepAt, hc]
  · simp [State.resetAt, hc]
  · simp [State.blockResetAt, State.resetAt, hc]
  · simp [coreAt, hc]

/-- Settles O20: each case is its fetch. -/
theorem stepRunsTheDecodedInstruction : Obligations.StepRunsTheDecodedInstruction := by
  refine ⟨fun s code payload i hs hf hd => ?_, fun s w rest hs hc ho => ?_, fun s hs hc => ?_, thenPanel_next Config.hw⟩
  · simp only [step, stepWith, fetch_of_frame hs hf hd]
  · simp only [step, stepWith, fetch_of_offer hs (takeOffer_of_offers hc ho)]
  · simp only [step, stepWith, fetch_of_offer hs (takeOffer_of_construct hc)]
    rfl

/-! ### Reset (R37, R251, R310, R319) -/

/-- Before construction is over, the block transition accepts INIT (R310). -/
theorem turn_of_construct {c : Cfg} {s : State} (hs : s.seq = .idle) (hc : s.construct = true) :
    turn c s = acceptRequest c .init { s with construct := false } := by
  simp only [turn, hs, takeOffer_of_construct hc]
  rfl

/-- Settles O18: the reset values by evaluation; the first step accepts INIT (`turn_of_construct`). -/
theorem resetStateAndConstruction : Obligations.ResetStateAndConstruction := by
  refine ⟨⟨rfl, rfl, rfl, rfl, rfl, rfl, rfl, rfl, rfl, rfl, rfl, rfl, ?_, rfl, rfl, rfl⟩, fun offers => ?_⟩
  · exact ⟨rfl, rfl, rfl, rfl, rfl, rfl, rfl, rfl, rfl, rfl, rfl, rfl, rfl⟩
  · refine ⟨_, step_eq _, ?_⟩
    rw [turn_of_construct rfl rfl]
    simp [State.reset, State.initial, stepList]

/-- Settles O19: the record of a block reset by evaluation. -/
theorem blockResetFromAnyState : Obligations.BlockResetFromAnyState := by
  intro s
  refine ⟨?_, rfl, rfl, rfl, rfl, rfl, ?_, rfl, rfl⟩
  · exact ⟨rfl, rfl, rfl, rfl, rfl, rfl, rfl, rfl, rfl, rfl, rfl, rfl, rfl⟩
  · exact ⟨rfl, rfl, rfl, rfl, rfl, rfl, rfl, rfl, rfl, rfl, rfl, rfl, rfl, rfl, rfl, rfl⟩

/-! ### Requests at an idle and at a busy block -/

/-- Settles O23: the meaning of a request is an offer, which an idle block accepts. -/
theorem hostRequestsAreAcceptedWhenIdle : Obligations.HostRequestsAreAcceptedWhenIdle := by
  intro i r s hr hs
  obtain ⟨w, -, hexec⟩ := exec_of_request hr s
  rw [hexec, offerRequest_of_idle w r hs]
  simp [acceptRequest, State.emit]

/-- Settles O25: the meaning of each of the four is a refused offer. -/
theorem reservedRequestsSetTheRefusalMark : Obligations.ReservedRequestsSetTheRefusalMark := by
  intro s hs
  have refused : ∀ {i : Instr} {w : RequestWord}, encode Config.hw i = .request w → i.request? = none →
      exec i s = .next { s with refused := true } := by
    intro i w he hr
    rw [exec_of_refused he hr, offerRefused_of_idle w hs]
    rfl
  exact ⟨refused rfl rfl, refused rfl rfl, refused rfl rfl, refused rfl rfl⟩

/-- A busy block takes no offer and sets no mark (R290). -/
theorem turn_keeps_port (c : Cfg) {s : State} (hs : s.seq ≠ .idle) :
    (turn c s).env.offers = s.env.offers ∧ (turn c s).refused = s.refused ∧ (turn c s).violation = s.violation := by
  have hcase := turn_case c s
  generalize turn c s = u at hcase
  cases hcase with
  | quiet hi | accept _ _ _ hi | refuse _ _ hi => exact absurd hi hs
  | done st t evs he hst hw ht => exact ⟨ht.offers, ht.refused, ht.violation⟩
  | abort kind st t evs he hst hw ht => exact ⟨ht.offers, ht.refused, ht.violation⟩
  | idleSample | busySample | busyFault => exact ⟨rfl, rfl, rfl⟩
  | complete =>
    cases hr : s.req with
    | none => simp [complete_of_none c s hr]
    | some r => simp [complete_of_req c r s hr]

/-- Settles O26: `turn_keeps_port` for a step, and a held offer for a meaning. -/
theorem requestsAreHeldWhileBusy : Obligations.RequestsAreHeldWhileBusy := by
  refine ⟨fun s hs => ⟨_, step_eq s, ?_⟩, fun i w s he hs => ?_⟩
  · simpa using turn_keeps_port Config.hw hs
  · cases hr : i.request? with
    | none =>
      rw [exec_of_refused he hr, offerRefused_of_busy w hs]
      rfl
    | some r =>
      obtain ⟨w', he', hexec⟩ := exec_of_request hr s
      obtain rfl : w' = w := Encoded.request.inj (he'.symm.trans he)
      rw [hexec, offerRequest_of_busy w' r hs]
      rfl

/-! ### Taking the exception (R284) -/

/-- An abort as one record: no event of it moves the panel. -/
theorem abort_eq (c : Cfg) (kind : FaultKind) (s : State) : abort c kind s = { s with
    trace := s.trace ++ [.fault kind s.k, .respond (.err kind)]
    resp := some (.err kind)
    life := .uninitialized
    req := none
    steps := []
    k := 0
    seq := .idle } := by
  simp [abort, State.emit, State.toIdle]

/-- Settles O43. -/
theorem abortWritesAndKeeps : Obligations.AbortWritesAndKeeps := abort_eq

end Sys2Proof.Machine
end

section
/-! PROOFS. The panel commands (41_panel_commands.md R130 to R143): what their meanings send, their transport faults, and
what the code byte and the payload do at the panel (45_panel_reference_model.md R252 to R266): O31 to O36. -/

namespace Sys2Proof.Machine

/-! ### What is sent -/

/-- Settles O31: the meaning is the frame's step, and where no payload is due that is the `Cmd` step. -/
theorem panelCommandSendsItsCode : Obligations.PanelCommandSendsItsCode := by
  intro i code payload s he hdue hok
  rw [exec_of_frame he, sendFrame_code _ _ _ _ hdue, settle_sendCmd_ok _ _ _ hok]

/-- Settles O32: the meaning is the frame's step, and where the payload is due that is the `Data` step. -/
theorem panelCommandSendsItsPayload : Obligations.PanelCommandSendsItsPayload := by
  intro i code bs s he hdue hok
  rw [exec_of_frame he, sendFrame_payload _ _ _ _ hdue, settle_sendData_ok _ _ _ hok]

/-! ### Transport faults (R130(b), R171, R172) -/

section
variable {c : Cfg} {s : State}

/-- A failed DC write: nothing is sent. -/
theorem send_dcFault (lvl : DcLevel) (f : State → Attempt) (h : s.env.drawDc.1 = .fail) :
    (setDc lvl s).andThen f = .fault .dcOutput { s with env := s.env.drawDc.2 } := by
  simp [setDc, h]

/-- A failed transfer: the event of the delivered bytes, if any (R180). -/
theorem send_busFault (lvl : DcLevel) (bs : List Byte) (event : List Byte → Event) {n : Nat} (h1 : s.env.drawDc.1 = .ok)
    (h2 : s.env.drawBus.1 = .fault n) : (setDc lvl s).andThen (busWrite c bs event) = .fault .bus
      (if bs.take n = [] then { s with env := afterSend s.env, dc := lvl }
       else ({ s with env := afterSend s.env, dc := lvl } : State).emit c (event (bs.take n))) := by
  have h3 : s.env.drawDc.2.drawBus.1 = .fault n := h2
  simp [setDc, h1, busWrite, h3, afterSend]

/-- A frame's step with a failed DC write aborts, whether its code or its payload is due. -/
theorem sendFrame_dcFault (code : Byte) (payload : Option (List Byte)) (h : s.env.drawDc.1 = .fail) :
    sendFrame c code payload s = abort c .dcOutput { s with env := s.env.drawDc.2 } := by
  have hcmd : settle c (sendCmd c code s) = abort c .dcOutput { s with env := s.env.drawDc.2 } := by
    rw [sendCmd, send_dcFault _ _ h, settle_fault]
  cases payload with
  | none => exact hcmd
  | some bs =>
    cases hdue : s.payloadDue with
    | false => rw [sendFrame_code c code _ s (.inl hdue), hcmd]
    | true => rw [sendFrame_payload c code bs s hdue, sendData, send_dcFault _ _ h, settle_fault]

end

/-- Settles O33: the fault of each primitive, for the code and for the payload. -/
theorem panelCommandFaultsAbort : Obligations.PanelCommandFaultsAbort := by
  intro i code payload s he
  refine ⟨fun h => ?_, fun n h1 h2 hdue => ?_, fun n bs h1 h2 hdue hp => ?_⟩
  · rw [exec_of_frame he, sendFrame_dcFault code payload h]
  · rw [exec_of_frame he, sendFrame_code _ _ _ _ hdue, sendCmd, send_busFault _ _ _ h1 h2, settle_fault]
    simp only [List.take_eq_nil_iff, reduceCtorEq, or_false]
  · rw [exec_of_frame he, hp, sendFrame_payload _ _ _ _ hdue, sendData, send_busFault _ _ _ h1 h2, settle_fault]

/-! ### The code byte at the panel (R252) -/

section
variable {s : State}

/-- The panel after the code of a command, where it takes bytes and awaits no payload. -/
theorem exec_code_panel {i : Instr} {m : PanelCommand} {payload : Option (List Byte)}
    (he : encode Config.hw i = .frame (Config.hw.code m) payload) (hdue : s.payloadDue = false) (hok : sendsOk s)
    (ht : s.panel.takesBytes = true) (hq : s.panel.Quiet) : ∃ t, exec i s = .next t ∧ t.panel =
      match m.shape with
      | .fixed 0 => Panel.runAtCode m { s.panel with frame := .noFrame }
      | .fixed (n + 1) => { s.panel with frame := .expect m (n + 1) [] }
      | .stream => { s.panel with frame := .stream (if m = .writeRamBw then .bw else .red) } :=
  ⟨_, panelCommandSendsItsCode i _ _ s he (.inl hdue) hok, Panel.react_code ht hq (Config.hw_command?_code m)⟩

/-- The panel after a whole fixed payload that it awaits. -/
theorem exec_payload_panel {i : Instr} {code : Byte} {m : PanelCommand} {bs : List Byte}
    (he : encode Config.hw i = .frame code (some bs)) (hdue : s.payloadDue = true) (hok : sendsOk s)
    (ht : s.panel.takesBytes = true) (hf : s.panel.frame = .expect m bs.length []) :
    ∃ t, exec i s = .next t ∧ t.panel = Panel.runCommand Config.hw m bs { s.panel with frame := .noFrame } :=
  ⟨_, panelCommandSendsItsPayload i _ _ s he hdue hok, Panel.react_payload ht hf⟩

/-- The panel after a stream, where one is open. -/
theorem exec_stream_panel {i : Instr} {code : Byte} {pl : Plane} {bs : List Byte}
    (he : encode Config.hw i = .frame code (some bs)) (hdue : s.payloadDue = true) (hok : sendsOk s)
    (ht : s.panel.takesBytes = true) (hf : s.panel.frame = .stream pl) :
    ∃ t, exec i s = .next t ∧ t.panel = s.panel.writeStream Config.hw pl bs :=
  ⟨_, panelCommandSendsItsPayload i _ _ s he hdue hok, Panel.react_stream bs ht hf⟩

end

/-- Settles O34: the thirteen commands by their shape (`exec_code_panel`). -/
theorem codeByteAtThePanel : Obligations.CodeByteAtThePanel := by
  intro s hdue hok ht hq
  exact ⟨exec_code_panel (m := .swReset) rfl hdue hok ht hq, exec_code_panel (m := .masterActivation) rfl hdue hok ht hq,
    fun _ => exec_code_panel (m := .writeRamBw) rfl hdue hok ht hq,
    fun _ => exec_code_panel (m := .writeRamRed) rfl hdue hok ht hq,
    fun _ _ => exec_code_panel (m := .setXRange) rfl hdue hok ht hq,
    fun _ _ => exec_code_panel (m := .setYRange) rfl hdue hok ht hq,
    fun _ => exec_code_panel (m := .setXCounter) rfl hdue hok ht hq,
    fun _ => exec_code_panel (m := .setYCounter) rfl hdue hok ht hq,
    fun _ => exec_code_panel (m := .dataEntryMode) rfl hdue hok ht hq,
    fun _ _ => exec_code_panel (m := .updateControl1) rfl hdue hok ht hq,
    fun _ => exec_code_panel (m := .deepSleep) rfl hdue hok ht hq,
    fun _ => exec_code_panel (m := .patternBw) rfl hdue hok ht hq,
    fun _ => exec_code_panel (m := .patternRed) rfl hdue hok ht hq⟩

/-! ### The completed payload at the panel (R257 to R266) -/

/-- Settles O35: each command's effect, the operands read back from their bytes. -/
theorem registerCommandsWriteTheirRegisters : Obligations.RegisterCommandsWriteTheirRegisters := by
  intro s hdue hok ht
  refine ⟨fun hf p0 => exec_payload_panel (m := .dataEntryMode) (bs := [p0]) rfl hdue hok ht hf,
    fun hf xs xe => ?_, fun hf ys ye => ?_, fun hf x => ?_, fun hf y => ?_,
    fun hf p0 p1 => exec_payload_panel (m := .updateControl1) (bs := [p0, p1]) rfl hdue hok ht hf⟩
  · simpa only [Panel.runCommand, Panel.with2, Panel.effSetXRange, group_of_xByte] using
      exec_payload_panel (i := .setXRange xs xe) rfl hdue hok ht hf
  · simpa only [Panel.runCommand, Panel.with4, Panel.effSetYRange, rowOfBytes_rowLo_rowHi] using
      exec_payload_panel (i := .setYRange ys ye) rfl hdue hok ht hf
  · simpa only [Panel.runCommand, Panel.with1, Panel.effSetXCounter, group_of_xByte] using
      exec_payload_panel (i := .setXCounter x) rfl hdue hok ht hf
  · simpa only [Panel.runCommand, Panel.with2, Panel.effSetYCounter, rowOfBytes_rowLo_rowHi] using
      exec_payload_panel (i := .setYCounter y) rfl hdue hok ht hf

/-- DEEP_SLEEP with another payload byte leaves the panel undefined (R265). -/
theorem runCommand_deepSleep_other {c : Cfg} {p0 : Byte} (h : p0 ≠ c.dsPayload) (p : Panel) :
    p.runCommand c .deepSleep [p0] = p.setUndef := if_neg h

/-- DEEP_SLEEP with its fixed payload forgets registers and RAM and sleeps (R265). -/
theorem runCommand_deepSleep (c : Cfg) (p : Panel) :
    p.runCommand c .deepSleep [c.dsPayload] = { p.forgetRegisters.forgetRam with power := .known .deepSleep } := if_pos rfl

/-- Settles O36: the effects of DEEP_SLEEP and of the patterns, and the open stream. -/
theorem sleepPatternAndStreamPayloads : Obligations.SleepPatternAndStreamPayloads := by
  intro s hdue hok ht
  refine ⟨fun hf => ?_, fun hf p0 hp => ?_,
    fun hf p0 => exec_payload_panel (m := .patternBw) (bs := [p0]) rfl hdue hok ht hf,
    fun hf p0 => exec_payload_panel (m := .patternRed) (bs := [p0]) rfl hdue hok ht hf,
    fun hf bs => exec_stream_panel rfl hdue hok ht hf,
    fun hf bs => exec_stream_panel rfl hdue hok ht hf⟩
  · have h := exec_payload_panel (i := .deepSleep Config.hw.dsPayload) rfl hdue hok ht hf
    rwa [runCommand_deepSleep] at h
  · obtain ⟨t, hexec, hpanel⟩ := exec_payload_panel (i := .deepSleep p0) rfl hdue hok ht hf
    rw [runCommand_deepSleep_other hp] at hpanel
    exact ⟨t, hexec, by rw [hpanel]; rfl, by rw [hpanel]; exact Panel.setUndef_allUnknown _⟩

end Sys2Proof.Machine
end

section
/-! PROOFS. The panel's RAM (45_panel_reference_model.md R257 to R261): a cell reads back what was written (O39), a stream
fills its window row by row (O37), and a write with no meaning, or past its window, makes the plane unknown (O38). -/

namespace Sys2Proof.Machine

/-- Settles O39: the laws of sparse data, at the key of a cell. -/
theorem ramReadsBackWhatWasWritten : Obligations.RamReadsBackWhatWasWritten :=
  fun m x x' y y' v =>
    ⟨Memory.read_write_same m x y v, Memory.read_write_other m x x' y y' v, Memory.wf_write m x y v⟩

namespace Panel

@[simp] theorem ram_setRam (p : Panel) (pl : Plane) (m : Memory) : (p.setRam pl m).ram pl = m := by cases pl <;> rfl

/-- The plane does not depend on the counters. -/
theorem ram_with_counters (p : Panel) (pl : Plane) (xc : Val (BitVec 5)) (yc : Val (BitVec 9)) :
    ({ p with xc := xc, yc := yc } : Panel).ram pl = p.ram pl := by cases pl <;> rfl

theorem writeStream_append (c : Cfg) (pl : Plane) (as bs : List Byte) (p : Panel) :
    p.writeStream c pl (as ++ bs) = (p.writeStream c pl as).writeStream c pl bs := List.foldl_append

theorem writeStream_concat (c : Cfg) (pl : Plane) (bs : List Byte) (b : Byte) (p : Panel) :
    p.writeStream c pl (bs ++ [b]) = (p.writeStream c pl bs).writeByte c pl b := writeStream_append c pl bs [b] p

/-- A stream keeps the data-entry mode and the window. -/
theorem HasWindow.writeStream {c : Cfg} {p : Panel} {xs xe : BitVec 5} {ys ye : BitVec 9}
    (h : HasWindow c p xs xe ys ye) (pl : Plane) (bs : List Byte) :
    HasWindow c (p.writeStream c pl bs) xs xe ys ye := by
  obtain ⟨xc, yc, heq⟩ := writeStream_frame c pl bs p
  rw [heq]
  cases pl <;> exact ⟨h.dem, h.wxs, h.wxe, h.wys, h.wye⟩

/-- What a RAM write with a meaning needs (R260): the configured data-entry mode, a window, and counters inside it. -/
theorem window_of_writeCursor {c : Cfg} {p : Panel} {x : BitVec 5} {y : BitVec 9} (h : p.writeCursor c = some (x, y)) :
    ∃ xs xe ys ye, HasWindow c p xs xe ys ye ∧ p.xc = .known x ∧ p.yc = .known y ∧ xs ≤ x ∧ x ≤ xe ∧ ys ≤ y ∧ y ≤ ye := by
  unfold writeCursor at h
  split at h
  · rename_i d xs xe ys ye x' y' hd hxs hxe hys hye hx hy
    split at h
    · rename_i hin
      obtain ⟨rfl, hin⟩ := hin
      cases h
      exact ⟨xs, xe, ys, ye, ⟨hd, hxs, hxe, hys, hye⟩, hx, hy, hin⟩
    · cases h
  · cases h

end Panel

/-! ### The cells of a window in row-major order -/

/-- The column groups of a window row. -/
def winGroups (xs xe : BitVec 5) : Nat := xe.toNat - xs.toNat + 1

/-- The rows of a window. -/
def winRows (ys ye : BitVec 9) : Nat := ye.toNat - ys.toNat + 1

/-- The column group of the `i`-th cell. -/
def cellX (xs xe : BitVec 5) (i : Nat) : BitVec 5 := xs + BitVec.ofNat 5 (i % winGroups xs xe)

/-- The row of the `i`-th cell. -/
def cellY (xs xe : BitVec 5) (ys : BitVec 9) (i : Nat) : BitVec 9 := ys + BitVec.ofNat 9 (i / winGroups xs xe)

/-- The row counter at the `i`-th cell: unknown past row 511 (log 9). -/
def cellRowCounter (xs xe : BitVec 5) (ys : BitVec 9) (i : Nat) : Val (BitVec 9) :=
  if ys.toNat + i / winGroups xs xe ≤ 511 then .known (cellY xs xe ys i) else .unknown

section
variable {xs xe : BitVec 5} {ys ye : BitVec 9}

theorem winGroups_pos : 0 < winGroups xs xe := Nat.succ_pos _

/-- A cell of the window is in one of its rows. -/
theorem div_winGroups_lt {i : Nat} (hi : i < winGroups xs xe * winRows ys ye) : i / winGroups xs xe < winRows ys ye :=
  Nat.div_lt_of_lt_mul hi

theorem toNat_cellX (hx : xs ≤ xe) (i : Nat) : (cellX xs xe i).toNat = xs.toNat + i % winGroups xs xe := by
  have hlt := Nat.mod_lt i (winGroups_pos (xs := xs) (xe := xe))
  have := xe.isLt
  rw [BitVec.le_def] at hx
  rw [cellX, BitVec.toNat_add, BitVec.toNat_ofNat]
  unfold winGroups at hlt ⊢
  omega

theorem toNat_cellY {i : Nat} (hi : ys.toNat + i / winGroups xs xe ≤ 511) :
    (cellY xs xe ys i).toNat = ys.toNat + i / winGroups xs xe := by
  rw [cellY, BitVec.toNat_add, BitVec.toNat_ofNat]
  generalize i / winGroups xs xe = row at hi ⊢
  omega

theorem cellRow_le {i : Nat} (hy : ys ≤ ye) (hi : i < winGroups xs xe * winRows ys ye) :
    ys.toNat + i / winGroups xs xe ≤ ye.toNat := by
  have h := div_winGroups_lt hi
  rw [BitVec.le_def] at hy
  unfold winRows at h
  omega

theorem cellRow_le_511 {i : Nat} (hy : ys ≤ ye) (hi : i < winGroups xs xe * winRows ys ye) :
    ys.toNat + i / winGroups xs xe ≤ 511 := by
  have := cellRow_le hy hi
  have := ye.isLt
  omega

/-- Different cells of the window are different cells of the plane. -/
theorem cell_inj (hx : xs ≤ xe) (hy : ys ≤ ye) {i j : Nat} (hi : i < winGroups xs xe * winRows ys ye)
    (hj : j < winGroups xs xe * winRows ys ye) (hX : cellX xs xe i = cellX xs xe j)
    (hY : cellY xs xe ys i = cellY xs xe ys j) : i = j := by
  have hmod := congrArg BitVec.toNat hX
  have hdiv := congrArg BitVec.toNat hY
  rw [toNat_cellX hx, toNat_cellX hx] at hmod
  rw [toNat_cellY (cellRow_le_511 hy hi), toNat_cellY (cellRow_le_511 hy hj)] at hdiv
  rw [← Nat.div_add_mod i (winGroups xs xe), ← Nat.div_add_mod j (winGroups xs xe),
    Nat.add_left_cancel hmod, Nat.add_left_cancel hdiv]

/-- A cell is at the window's right edge exactly where its row is full. -/
theorem cellX_eq_end_iff (hx : xs ≤ xe) (i : Nat) : cellX xs xe i = xe ↔ i % winGroups xs xe + 1 = winGroups xs xe := by
  rw [← BitVec.toNat_inj, toNat_cellX hx]
  rw [BitVec.le_def] at hx
  unfold winGroups
  omega

/-- The column counter steps on (R260). -/
theorem cellX_succ (hx : xs ≤ xe) (i : Nat) :
    (if cellX xs xe i = xe then Val.known xs else .known (cellX xs xe i + 1)) = .known (cellX xs xe (i + 1)) := by
  simp only [cellX_eq_end_iff hx]
  rcases divMod_succ i (winGroups xs xe) winGroups_pos with ⟨hfull, hmod, -⟩ | ⟨hroom, hmod, -⟩
  · rw [if_pos hfull, cellX, hmod]
    simp
  · rw [if_neg (by omega), cellX, cellX, hmod, BitVec.add_assoc]
    simp [BitVec.ofNat_add]

/-- The row counter steps on at the right edge (R260, log 9). -/
theorem cellRowCounter_succ (hx : xs ≤ xe) {i : Nat} (hrow : ys.toNat + i / winGroups xs xe ≤ 511) :
    (if cellX xs xe i = xe then
        (if (cellY xs xe ys i).toNat = 511 then Val.unknown else .known (cellY xs xe ys i + 1))
      else .known (cellY xs xe ys i)) = cellRowCounter xs xe ys (i + 1) := by
  have hstep : cellY xs xe ys i + 1 = ys + BitVec.ofNat 9 (i / winGroups xs xe + 1) := by
    rw [cellY, BitVec.add_assoc]
    simp [BitVec.ofNat_add]
  simp only [cellX_eq_end_iff hx, toNat_cellY hrow, hstep, cellRowCounter]
  rcases divMod_succ i (winGroups xs xe) winGroups_pos with ⟨hfull, -, hdiv⟩ | ⟨hroom, -, hdiv⟩
  · rw [if_pos hfull, cellY, hdiv]
    by_cases hlast : ys.toNat + i / winGroups xs xe = 511
    · rw [if_pos hlast, if_neg (by omega)]
    · rw [if_neg hlast, if_pos (by omega)]
  · rw [if_neg (by omega), hdiv, if_pos hrow, cellY, cellY, hdiv]

end

/-! ### A stream in its window -/

namespace Panel

/-- The panel stands at the origin of its window, ready for a stream. -/
structure AtOrigin (c : Cfg) (p : Panel) (xs xe : BitVec 5) (ys ye : BitVec 9) : Prop extends
    HasWindow c p xs xe ys ye where
  xc : p.xc = .known xs
  yc : p.yc = .known ys
  xle : xs ≤ xe
  yle : ys ≤ ye

section
variable {c : Cfg} {p : Panel} {xs xe : BitVec 5} {ys ye : BitVec 9} (h : AtOrigin c p xs xe ys ye) (pl : Plane)
include h

/-- One more byte, where the counters stand at a cell of the window. -/
theorem writeByte_cell {bs : List Byte} (b : Byte) (hlen : bs.length < winGroups xs xe * winRows ys ye)
    (hxc : (p.writeStream c pl bs).xc = .known (cellX xs xe bs.length))
    (hyc : (p.writeStream c pl bs).yc = cellRowCounter xs xe ys bs.length) :
    p.writeStream c pl (bs ++ [b]) =
      { (p.writeStream c pl bs).setRam pl (((p.writeStream c pl bs).ram pl).write (cellX xs xe bs.length)
          (cellY xs xe ys bs.length) (cellValue c (cellX xs xe bs.length) (cellY xs xe ys bs.length) b)) with
        xc := .known (cellX xs xe (bs.length + 1)), yc := cellRowCounter xs xe ys (bs.length + 1) } := by
  have hmod := Nat.mod_lt bs.length (winGroups_pos (xs := xs) (xe := xe))
  have hrow := cellRow_le_511 h.yle hlen
  have hrow0 := Nat.zero_le (bs.length / winGroups xs xe)
  have hX := toNat_cellX h.xle bs.length
  have hY := toNat_cellY hrow
  have hle := cellRow_le h.yle hlen
  have hxle := BitVec.le_def.mp h.xle
  have hend : xs.toNat + bs.length % winGroups xs xe ≤ xe.toNat := by unfold winGroups at hmod ⊢; omega
  rw [cellRowCounter, if_pos hrow] at hyc
  rw [writeStream_concat, writeByte_inside pl b (h.toHasWindow.writeStream pl bs) hxc hyc
    (BitVec.le_def.mpr (by omega)) (BitVec.le_def.mpr (by omega)) (BitVec.le_def.mpr (by omega))
    (BitVec.le_def.mpr (by omega)), cellX_succ h.xle, cellRowCounter_succ h.xle hrow]

/-- After a stream that fits, the counters stand at the next cell. -/
theorem counters_writeStream {bs : List Byte} (hlen : bs.length ≤ winGroups xs xe * winRows ys ye) :
    (p.writeStream c pl bs).xc = .known (cellX xs xe bs.length) ∧
      (p.writeStream c pl bs).yc = cellRowCounter xs xe ys bs.length := by
  induction bs using List.reverseRecOn with
  | nil =>
    have := ys.isLt
    refine ⟨h.xc.trans ?_, h.yc.trans ?_⟩
    · simp [cellX]
    · simp only [cellRowCounter, cellY, List.length_nil, Nat.zero_div, Nat.add_zero]
      rw [if_pos (by omega)]
      simp
  | append_singleton bs b ih =>
    rw [List.length_append, List.length_singleton] at hlen ⊢
    obtain ⟨hxc, hyc⟩ := ih (by omega)
    rw [writeByte_cell h pl b (by omega) hxc hyc]
    exact ⟨rfl, rfl⟩

/-- The plane after one more byte of a stream that fits. -/
theorem ram_writeStream_concat {bs : List Byte} (b : Byte) (hlen : bs.length < winGroups xs xe * winRows ys ye) :
    (p.writeStream c pl (bs ++ [b])).ram pl = ((p.writeStream c pl bs).ram pl).write (cellX xs xe bs.length)
      (cellY xs xe ys bs.length) (cellValue c (cellX xs xe bs.length) (cellY xs xe ys bs.length) b) := by
  obtain ⟨hxc, hyc⟩ := counters_writeStream h pl (Nat.le_of_lt hlen)
  rw [writeByte_cell h pl b hlen hxc hyc, ram_with_counters, ram_setRam]

/-- Each byte of a stream that fits is in its cell. -/
theorem read_writeStream_cell {bs : List Byte} (hlen : bs.length ≤ winGroups xs xe * winRows ys ye) {i : Nat} {b : Byte}
    (hb : bs[i]? = some b) : ((p.writeStream c pl bs).ram pl).read (cellX xs xe i) (cellY xs xe ys i) =
      cellValue c (cellX xs xe i) (cellY xs xe ys i) b := by
  induction bs using List.reverseRecOn with
  | nil => simp at hb
  | append_singleton bs a ih =>
    rw [List.length_append, List.length_singleton] at hlen
    rw [ram_writeStream_concat h pl a (by omega)]
    rcases Nat.lt_or_ge i bs.length with hi | hi
    · rw [List.getElem?_append_left hi] at hb
      rw [Memory.read_write_other, ih (by omega) hb]
      by_contra hsame
      rw [not_or, not_not, not_not] at hsame
      have := cell_inj h.xle h.yle (by omega) (by omega) hsame.1 hsame.2
      omega
    · rw [List.getElem?_append_right hi, List.getElem?_singleton] at hb
      split at hb
      · rename_i h0
        cases hb
        obtain rfl : i = bs.length := by omega
        exact Memory.read_write_same _ _ _ _
      · cases hb

/-- Every other cell reads as before. -/
theorem read_writeStream_other {bs : List Byte} (hlen : bs.length ≤ winGroups xs xe * winRows ys ye) {x : BitVec 5}
    {y : BitVec 9} (hne : ∀ i, i < bs.length → ¬(x = cellX xs xe i ∧ y = cellY xs xe ys i)) :
    ((p.writeStream c pl bs).ram pl).read x y = (p.ram pl).read x y := by
  induction bs using List.reverseRecOn with
  | nil => rfl
  | append_singleton bs a ih =>
    rw [List.length_append, List.length_singleton] at hlen hne
    rw [ram_writeStream_concat h pl a (by omega), Memory.read_write_other, ih (by omega) fun i hi => hne i (by omega)]
    have := hne bs.length (by omega)
    tauto

/-- A stream longer than its window leaves the plane unknown: the byte past the window's last cell has no meaning (R261). -/
theorem ram_writeStream_of_long {bs : List Byte} (hlen : winGroups xs xe * winRows ys ye < bs.length) :
    (p.writeStream c pl bs).ram pl = [] := by
  have hsplit := List.take_append_drop (winGroups xs xe * winRows ys ye) bs
  have htake : (bs.take (winGroups xs xe * winRows ys ye)).length = winGroups xs xe * winRows ys ye := by
    rw [List.length_take]
    omega
  obtain ⟨hxc, hyc⟩ := counters_writeStream h pl (Nat.le_of_eq htake)
  rw [htake] at hyc
  have hwin := h.toHasWindow.writeStream pl (bs.take (winGroups xs xe * winRows ys ye))
  have hrows : winGroups xs xe * winRows ys ye / winGroups xs xe = winRows ys ye :=
    Nat.mul_div_cancel_left _ winGroups_pos
  have hnone : (p.writeStream c pl (bs.take (winGroups xs xe * winRows ys ye))).writeCursor c = none := by
    cases hcur : (p.writeStream c pl (bs.take (winGroups xs xe * winRows ys ye))).writeCursor c with
    | none => rfl
    | some xy =>
      obtain ⟨_, _, _, ye', hwin', -, hy, -, -, -, hle⟩ := window_of_writeCursor hcur
      rw [hyc, cellRowCounter, hrows] at hy
      split at hy
      · rename_i hrow
        have hye : ye' = ye := Val.known.inj (hwin'.wye.symm.trans hwin.wye)
        have hY := toNat_cellY (xs := xs) (xe := xe) (ys := ys) (i := winGroups xs xe * winRows ys ye) (by omega)
        rw [← Val.known.inj hy, hye, BitVec.le_def, hY, hrows] at hle
        have hyle := BitVec.le_def.mp h.yle
        unfold winRows at hle
        omega
      · cases hy
  have hrest : bs.drop (winGroups xs xe * winRows ys ye) ≠ [] := by
    intro hnil
    have := congrArg List.length hnil
    rw [List.length_drop, List.length_nil] at this
    omega
  rw [← hsplit, writeStream_append, writeStream_of_none pl _ hnone hrest, ram_setRam]

end
end Panel

/-- Settles O37: each byte is in its cell, other cells and fields are kept, and the counters stand at the next cell. -/
theorem streamFillsTheWindowRowMajor : Obligations.StreamFillsTheWindowRowMajor := by
  intro c p pl xs xe ys ye bs hd hxs hxe hys hye hxc hyc hx hy hlen
  have h : Panel.AtOrigin c p xs xe ys ye := ⟨⟨hd, hxs, hxe, hys, hye⟩, hxc, hyc, hx, hy⟩
  refine ⟨fun i b hb => ?_, fun x y hne => Panel.read_writeStream_other h pl hlen hne, ?_⟩
  · have hi := (List.getElem?_eq_some_iff.mp hb).1
    have hX := toNat_cellX hx i
    have hY := toNat_cellY (cellRow_le_511 (i := i) hy (Nat.lt_of_lt_of_le hi hlen))
    refine (Panel.read_writeStream_cell h pl hlen hb).trans ?_
    rw [Panel.cellValue, hX, hY]
    rfl
  · obtain ⟨hxc', hyc'⟩ := Panel.counters_writeStream h pl hlen
    conv_lhs => rw [Panel.writeStream_changes, hxc', hyc']
    rfl

/-- Settles O38: in each case the write has no meaning (`window_of_writeCursor`); a long stream comes to such a byte. -/
theorem streamOutsideTheWindowForgetsThePlane : Obligations.StreamOutsideTheWindowForgetsThePlane := by
  refine ⟨fun c p pl b bs hbad => ?_, fun c p pl xs xe ys ye bs hd hxs hxe hys hye hxc hyc hx hy hlen =>
    Panel.ram_writeStream_of_long ⟨⟨hd, hxs, hxe, hys, hye⟩, hxc, hyc, hx, hy⟩ pl hlen⟩
  have hnone : p.writeCursor c = none := by
    cases hcur : p.writeCursor c with
    | none => rfl
    | some xy =>
      obtain ⟨xs, xe, ys, ye, ⟨hd, hxs, hxe, hys, hye⟩, hx, hy, h1, h2, h3, h4⟩ := Panel.window_of_writeCursor hcur
      rw [BitVec.le_def] at h1 h2 h3 h4
      simp only [hd, hxs, hxe, hys, hye, hx, hy, ne_eq, not_true_eq_false, reduceCtorEq, Val.known.injEq, false_or] at hbad
      rcases hbad with ⟨_, _, _, rfl, rfl, rfl, hout⟩ | ⟨_, _, _, rfl, rfl, rfl, hout⟩ <;> omega
  exact ⟨Panel.writeByte_of_none pl b hnone, Panel.writeStream_of_none pl _ hnone (List.cons_ne_nil _ _)⟩

end Sys2Proof.Machine
end

section
/-! PROOFS. What every step keeps and what it may change (10_state.md R20 to R32, 60_exceptions.md R299), each by the cases
of one block transition (`TurnCase`): O27, O44 and O46 to O53. -/

namespace Sys2Proof.Machine

/-- A step is one of the block transition's cases, and then the panel's turn. -/
theorem step_cases {s t : State} (h : step s = .next t) : ∃ u, TurnCase Config.hw s u ∧ t = panelTurn Config.hw u :=
  ⟨turn Config.hw s, turn_case Config.hw s, step_next_iff.mp h⟩

/-- Completion as one record: its event does not move the panel (R187). -/
theorem complete_eq (c : Cfg) {r : Request} {s : State} (h : s.req = some r) : complete c s = { s with
    life := lifeAfter r s.life
    bg := bgAfter r s.bg
    resp := some (result c r (bgAfter r s.bg))
    trace := s.trace ++ [.respond (result c r (bgAfter r s.bg))]
    req := none
    steps := []
    k := 0
    seq := .idle } := by
  simp [complete_of_req c r s h, State.emit, State.toIdle]

/-- The last event of an abort is its response. -/
theorem abort_getLast? (c : Cfg) (kind : FaultKind) (s : State) :
    (abort c kind s).trace.getLast? = some (.respond (.err kind)) := by
  simp

/-! ### Totality -/

/-- Settles O44: a step by `step_eq`; a meaning is a frame's step, an offer or a refused offer. -/
theorem everyStepAndMeaningGivesANextState : Obligations.EveryStepAndMeaningGivesANextState := by
  refine ⟨fun s => ⟨_, step_eq s⟩, fun i s => ?_⟩
  cases he : encode Config.hw i with
  | frame code payload => exact ⟨_, exec_of_frame he s⟩
  | request w =>
    cases hr : i.request? with
    | none => exact ⟨_, exec_of_refused he hr s⟩
    | some r =>
      obtain ⟨w', -, hexec⟩ := exec_of_request hr s
      exact ⟨_, hexec⟩

/-! ### The invariant (R26, R27, R250, R253, R269) -/

/-- Settles O46: the reset values meet each clause. -/
theorem resetMeetsTheInvariant : Obligations.ResetMeetsTheInvariant := by
  refine ⟨⟨Nat.le_refl 0, fun _ => ⟨rfl, rfl, rfl⟩, fun h => ?_, fun h => absurd rfl h, Panel.initial_inv⟩, fun h => ?_⟩
  · cases h
  · cases h

section
variable {c : Cfg} {s : State}

/-- Under the invariant a sampling block stands at a `Wait` and is busy. -/
theorem State.InvAt.at_wait (h : s.InvAt c) (hs : s.sampling = true) : s.steps[s.k]? = some .wait ∧ s.seq ≠ .idle := by
  unfold State.sampling at hs
  split at hs
  · cases hs
  · rename_i hseq
    exact ⟨h.waitAtWait hseq, by simp [hseq]⟩
  · rename_i hseq
    exact ⟨of_decide_eq_true hs, by simp [hseq]⟩

/-- An idle block with nothing latched meets the invariant as far as its panel does. -/
theorem State.InvAt.of_idle {t : State} (hseq : t.seq = .idle) (hreq : t.req = none) (hsteps : t.steps = []) (hk : t.k = 0)
    (hp : t.panel.Inv) : t.InvAt c where
  indexInRange := by simp [hsteps, hk]
  idleEmpty := fun _ => ⟨hreq, hsteps, hk⟩
  waitAtWait := fun h => by rw [hseq] at h; cases h
  runningSteps := fun h => absurd hseq h
  panelInv := hp

/-- An executing block that runs the request of `s`, at a step within its list, meets the invariant as `s` does. -/
theorem State.InvAt.of_exec {t : State} (h : s.InvAt c) (hs : s.seq ≠ .idle) (hseq : t.seq = .exec) (hreq : t.req = s.req)
    (hsteps : t.steps = s.steps) (hbg : t.bg = s.bg) (hk : t.k ≤ s.steps.length) (hp : t.panel.Inv) : t.InvAt c where
  indexInRange := by rw [hsteps]; exact hk
  idleEmpty := fun h => by rw [hseq] at h; cases h
  waitAtWait := fun h => by rw [hseq] at h; cases h
  runningSteps := fun _ => by rw [hreq, hsteps, hbg]; exact h.runningSteps hs
  panelInv := hp

/-- The panel's turn keeps the invariant. -/
theorem panelTurn_inv (hW : c.W ≤ 256) (h : s.InvAt c) : (panelTurn c s).InvAt c where
  indexInRange := by simpa using h.indexInRange
  idleEmpty := by simpa using h.idleEmpty
  waitAtWait := by simpa using h.waitAtWait
  runningSteps := by simpa using h.runningSteps
  panelInv := (Panel.Follows.turn c s).inv hW h.panelInv

/-- One block transition keeps the invariant. -/
theorem turn_inv (hW : c.W ≤ 256) (h : s.InvAt c) : (turn c s).InvAt c := by
  have hcase := turn_case c s
  generalize turn c s = u at hcase
  have hreact : ∀ e, (s.panel.react c e).Inv := fun e => Panel.react_inv c hW e h.panelInv
  cases hcase with
  | quiet => exact h
  | accept w s' r hi ho hr =>
    obtain ⟨b, os, rfl⟩ := takeOffer_eq ho
    exact {
      indexInRange := Nat.zero_le _
      idleEmpty := by simp
      waitAtWait := by simp
      runningSteps := fun _ => ⟨r, rfl, rfl⟩
      panelInv := hreact (.accept r) }
  | refuse w s' hi ho hr =>
    obtain ⟨b, os, rfl⟩ := takeOffer_eq ho
    obtain ⟨hreq, hsteps, hk⟩ := h.idleEmpty hi
    exact .of_idle hi hreq hsteps hk h.panelInv
  | done st t evs he hst hw ht =>
    have hlt := (List.getElem?_eq_some_iff.mp hst).1
    exact h.of_exec (by simp [he]) (ht.seq.trans he) ht.req ht.steps ht.bg (by simp only [State.advance_k, ht.k]; omega)
      (ht.panel.inv hW h.panelInv)
  | abort kind st t evs he hst hw ht =>
    exact .of_idle rfl rfl rfl rfl (by simpa using ht.panel.inv hW h.panelInv)
  | idleSample hs =>
    obtain ⟨hwait, hbusy⟩ := h.at_wait hs
    have hlt := (List.getElem?_eq_some_iff.mp hwait).1
    exact h.of_exec hbusy rfl rfl rfl rfl hlt (hreact (.busySample .idle))
  | busySample hs =>
    obtain ⟨hwait, hbusy⟩ := h.at_wait hs
    exact {
      indexInRange := h.indexInRange
      idleEmpty := by simp
      waitAtWait := fun _ => hwait
      runningSteps := fun _ => h.runningSteps hbusy
      panelInv := hreact (.busySample .busy) }
  | busyFault hs => exact .of_idle rfl rfl rfl rfl (by simpa using h.panelInv)
  | complete he hk =>
    cases hr : s.req with
    | none => rw [complete_of_none c s hr]; exact .of_idle rfl rfl rfl rfl h.panelInv
    | some r => rw [complete_eq c hr]; exact .of_idle rfl rfl rfl rfl h.panelInv

end

/-- Settles O47: a block transition keeps the invariant, and so does the panel's turn, at every legal width. -/
theorem stepKeepsTheInvariant : Obligations.StepKeepsTheInvariant := by
  have keeps : ∀ (c : Cfg) (s t : State), c.legal = true → s.InvAt c → stepAt c s = .next t → t.InvAt c := by
    intro c s t hc h hstep
    have hW := (bounds_of_legal hc).2.1
    rw [stepAt_eq hc, Host.Outcome.next.injEq] at hstep
    subst hstep
    exact panelTurn_inv hW (turn_inv hW h)
  exact ⟨fun s t h hstep => keeps _ s t Config.hw_legal h (step_eq_stepAt s ▸ hstep), keeps⟩

/-! ### What only grows -/

/-- One block transition only appends events. -/
theorem TurnCase.trace_grows {c : Cfg} {s u : State} (h : TurnCase c s u) : ∃ evs, u.trace = s.trace ++ evs := by
  cases h with
  | quiet => exact ⟨[], (List.append_nil _).symm⟩
  | accept w s' r hi ho hr => obtain ⟨b, os, rfl⟩ := takeOffer_eq ho; exact ⟨_, rfl⟩
  | refuse w s' hi ho hr => obtain ⟨b, os, rfl⟩ := takeOffer_eq ho; exact ⟨[], (List.append_nil _).symm⟩
  | done st t evs he hst hw ht => exact ⟨evs, ht.trace⟩
  | abort kind st t evs he hst hw ht =>
    exact ⟨evs ++ ([.fault kind t.k, .respond (.err kind)] : List Event), by simp [ht.trace]⟩
  | idleSample | busySample => exact ⟨_, rfl⟩
  | busyFault => exact ⟨[.fault .busyInput s.k, .respond (.err .busyInput)], by simp⟩
  | complete he hk =>
    cases hr : s.req with
    | none => exact ⟨[], by simp [complete_of_none c s hr]⟩
    | some r => exact ⟨_, by rw [complete_eq c hr]⟩

/-- One block transition clears neither mark. -/
theorem TurnCase.marks_sticky {c : Cfg} {s u : State} (h : TurnCase c s u) :
    (s.violation = true → u.violation = true) ∧ (s.refused = true → u.refused = true) := by
  cases h with
  | quiet => exact ⟨id, id⟩
  | accept w s' r hi ho hr =>
    obtain ⟨b, os, rfl⟩ := takeOffer_eq ho
    exact ⟨fun hv => by simp [hv], id⟩
  | refuse w s' hi ho hr => obtain ⟨b, os, rfl⟩ := takeOffer_eq ho; exact ⟨id, fun _ => rfl⟩
  | done st t evs he hst hw ht => exact ⟨ht.violation.trans, ht.refused.trans⟩
  | abort kind st t evs he hst hw ht => exact ⟨ht.violation.trans, ht.refused.trans⟩
  | idleSample | busySample | busyFault => exact ⟨id, id⟩
  | complete he hk =>
    cases hr : s.req with
    | none => rw [complete_of_none c s hr]; exact ⟨id, id⟩
    | some r => rw [complete_eq c hr]; exact ⟨id, id⟩

/-- Settles O48: the block transition's part by its cases, the panel's by `run_undef`. -/
theorem traceAndMarksOnlyGrow : Obligations.TraceAndMarksOnlyGrow := by
  refine ⟨fun s t h => ?_, fun s t h => ?_⟩
  · obtain ⟨u, hcase, rfl⟩ := step_cases h
    simpa using hcase.trace_grows
  · have hundef : s.panel.undef = true → t.panel.undef = true := run_undef step_eq 1 (run_succ 0 h)
    obtain ⟨u, hcase, rfl⟩ := step_cases h
    obtain ⟨hv, hr⟩ := hcase.marks_sticky
    exact ⟨by simpa using hv, by simpa using hr, hundef⟩

/-! ### What only the end of a request changes -/

theorem bgAfter_ne {r : Request} {bg : Color} (h : bgAfter r bg ≠ bg) : r = .setBg (bgAfter r bg) := by
  cases r with
  | setBg col => rfl
  | _ => exact absurd rfl h

/-- Settles O49: of the block transition's cases only completion writes bg, and only for SET_BG. -/
theorem onlySetBgWritesTheBackground : Obligations.OnlySetBgWritesTheBackground := by
  intro s t h hne
  obtain ⟨u, hcase, rfl⟩ := step_cases h
  rw [panelTurn_bg] at hne ⊢
  rw [panelTurn_seq]
  cases hcase with
  | quiet => exact absurd rfl hne
  | accept w s' r hi ho hr => obtain ⟨b, os, rfl⟩ := takeOffer_eq ho; exact absurd rfl hne
  | refuse w s' hi ho hr => obtain ⟨b, os, rfl⟩ := takeOffer_eq ho; exact absurd rfl hne
  | done st t evs he hst hw ht => exact absurd ht.bg hne
  | abort kind st t evs he hst hw ht => exact absurd ht.bg hne
  | idleSample | busySample | busyFault => exact absurd rfl hne
  | complete he hk =>
    cases hr : s.req with
    | none => rw [complete_of_none _ s hr] at hne; exact absurd rfl hne
    | some r =>
      rw [complete_eq _ hr] at hne ⊢
      exact ⟨he, hk, congrArg some (bgAfter_ne hne), rfl⟩

/-- Settles O50: of the block transition's cases only completion and the aborts write life. -/
theorem lifecycleChangesOnlyWhenARequestEnds : Obligations.LifecycleChangesOnlyWhenARequestEnds := by
  intro s t h hne
  obtain ⟨u, hcase, rfl⟩ := step_cases h
  rw [panelTurn_life] at hne
  rw [panelTurn_seq, panelTurn_life, panelTurn_resp, panelTurn_trace]
  cases hcase with
  | quiet => exact absurd rfl hne
  | accept w s' r hi ho hr => obtain ⟨b, os, rfl⟩ := takeOffer_eq ho; exact absurd rfl hne
  | refuse w s' hi ho hr => obtain ⟨b, os, rfl⟩ := takeOffer_eq ho; exact absurd rfl hne
  | done st t evs he hst hw ht => exact absurd ht.life hne
  | abort kind => exact ⟨rfl, .inr ⟨kind, rfl, rfl, abort_getLast? _ _ _⟩⟩
  | idleSample | busySample => exact absurd rfl hne
  | busyFault => exact ⟨rfl, .inr ⟨.busyInput, rfl, rfl, abort_getLast? _ _ _⟩⟩
  | complete he hk =>
    cases hr : s.req with
    | none => rw [complete_of_none _ s hr] at hne; exact absurd rfl hne
    | some r =>
      rw [complete_eq _ hr]
      exact ⟨rfl, .inl ⟨r, rfl, hk, rfl⟩⟩

/-- Completion ends in an idle block with nothing latched, whether or not a request was latched (log 19). -/
theorem complete_idle (c : Cfg) (s : State) : (complete c s).seq = .idle ∧ (complete c s).k = 0 ∧
    (complete c s).steps = [] ∧ (complete c s).req = none := by
  cases hr : s.req with
  | none => rw [complete_of_none c s hr]; exact ⟨rfl, rfl, rfl, rfl⟩
  | some r => rw [complete_eq c hr]; exact ⟨rfl, rfl, rfl, rfl⟩

/-- Settles O51: a busy block's transition keeps the index, advances it, or ends the request. -/
theorem stepIndexAdvancesByOne : Obligations.StepIndexAdvancesByOne := by
  intro s t hs h
  obtain ⟨u, hcase, rfl⟩ := step_cases h
  simp only [panelTurn_seq, panelTurn_k, panelTurn_steps, panelTurn_req]
  cases hcase with
  | quiet hi | accept _ _ _ hi | refuse _ _ hi => exact absurd hi hs
  | done st t evs he hst hw ht =>
    exact .inl ⟨by simp [ht.seq, he], .inr (congrArg (· + 1) ht.k), ht.steps, ht.req⟩
  | abort | busyFault => exact .inr ⟨rfl, rfl, rfl, rfl⟩
  | idleSample => exact .inl ⟨by simp, .inr rfl, rfl, rfl⟩
  | busySample => exact .inl ⟨by simp, .inl rfl, rfl, rfl⟩
  | complete he hk => exact .inr (complete_idle _ s)

/-- Settles O52: the lines are driven only in the cases of a step, which says how. -/
theorem linesAreWrittenOnlyByTheirSteps : Obligations.LinesAreWrittenOnlyByTheirSteps := by
  intro s t h
  obtain ⟨u, hcase, rfl⟩ := step_cases h
  rw [panelTurn_dc, panelTurn_rst]
  have kept : ∀ {v : State}, v.dc = s.dc → v.rst = s.rst →
      (v.dc ≠ s.dc → s.seq = .exec ∧ ((∃ b, s.steps[s.k]? = some (.cmd b) ∧ v.dc = .low) ∨
        ∃ bs, s.steps[s.k]? = some (.data bs) ∧ v.dc = .high)) ∧
      (v.rst ≠ s.rst → s.seq = .exec ∧ ∃ d1 d2, s.steps[s.k]? = some (.hwReset d1 d2)) :=
    fun hdc hrst => ⟨fun hne => absurd hdc hne, fun hne => absurd hrst hne⟩
  cases hcase with
  | quiet => exact kept rfl rfl
  | accept w s' r hi ho hr => obtain ⟨b, os, rfl⟩ := takeOffer_eq ho; exact kept rfl rfl
  | refuse w s' hi ho hr => obtain ⟨b, os, rfl⟩ := takeOffer_eq ho; exact kept rfl rfl
  | done st t evs he hst hw ht hdc hrst | abort kind st t evs he hst hw ht hdc hrst =>
    refine ⟨fun hne => ⟨he, ?_⟩, fun hne => ⟨he, ?_⟩⟩
    · rcases hdc hne with ⟨b, rfl, hlow⟩ | ⟨bs, rfl, hhigh⟩
      · exact .inl ⟨b, hst, hlow⟩
      · exact .inr ⟨bs, hst, hhigh⟩
    · obtain ⟨d1, d2, rfl⟩ := hrst hne
      exact ⟨d1, d2, hst⟩
  | idleSample | busySample | busyFault => exact kept rfl rfl
  | complete he hk =>
    cases hr : s.req with
    | none => rw [complete_of_none _ s hr]; exact kept rfl rfl
    | some r => rw [complete_eq _ hr]; exact kept rfl rfl

/-! ### The end of a request (R187) -/

/-- A busy block keeps its response or posts an Err by an abort, unless it completes. -/
theorem TurnCase.resp_of_busy {c : Cfg} {s u : State} (h : TurnCase c s u) (hs : s.seq ≠ .idle)
    (hk : s.seq = .exec → s.steps[s.k]? ≠ none) :
    (u.resp = s.resp ∧ u.seq ≠ .idle) ∨ ∃ kind, u.resp = some (.err kind) ∧ u.seq = .idle := by
  cases h with
  | quiet hi | accept _ _ _ hi | refuse _ _ hi => exact absurd hi hs
  | done st t evs he hst hw ht => exact .inl ⟨ht.resp, by simp [ht.seq, he]⟩
  | abort kind => exact .inr ⟨kind, rfl, rfl⟩
  | busyFault => exact .inr ⟨.busyInput, rfl, rfl⟩
  | idleSample | busySample => exact .inl ⟨rfl, by simp⟩
  | complete he hnone => exact absurd hnone (hk he)

/-- An idle block's transition posts no response. -/
theorem TurnCase.resp_of_idle {c : Cfg} {s u : State} (h : TurnCase c s u) (hs : s.seq = .idle) : u.resp = s.resp := by
  have hsample : s.sampling ≠ true := by simp [State.sampling, hs]
  cases h with
  | quiet => rfl
  | accept w s' r hi ho hr => obtain ⟨b, os, rfl⟩ := takeOffer_eq ho; rfl
  | refuse w s' hi ho hr => obtain ⟨b, os, rfl⟩ := takeOffer_eq ho; rfl
  | done st t evs he | abort kind st t evs he => rw [hs] at he; cases he
  | complete he => rw [hs] at he; cases he
  | idleSample h | busySample h | busyFault h => exact absurd h hsample

/-- Settles O27: completion as one record (`complete_eq`), and the response by the cases of the transition. -/
theorem completionEndsTheRequest : Obligations.CompletionEndsTheRequest := by
  refine ⟨fun s r hs hk hr => ?_, fun s t st hs hst h => ?_, fun s t hs h => ?_, fun s t hs h => ?_⟩
  · have hnone : s.steps[s.k]? = none := List.getElem?_eq_none (Nat.le_of_eq hk.symm)
    have hturn : turn Config.hw s = complete Config.hw s := by simp only [turn, hs, stepTurn, hnone]
    rw [step_eq, hturn, complete_eq _ hr]
    cases r <;> rfl
  · obtain ⟨u, hcase, rfl⟩ := step_cases h
    simpa using hcase.resp_of_busy (by simp [hs]) (by simp [hst])
  · obtain ⟨u, hcase, rfl⟩ := step_cases h
    simpa using hcase.resp_of_busy (by simp [hs]) (by simp [hs])
  · obtain ⟨u, hcase, rfl⟩ := step_cases h
    simpa using hcase.resp_of_idle hs

/-- A step that ends the request, as a run of one step. -/
theorem run_one_of_response {s u : State} {resp : Response} (h : step s = .next (panelTurn Config.hw u))
    (hseq : u.seq = .idle) (hlast : u.trace.getLast? = some (.respond resp)) : ∃ (t : State) (resp : Response),
      Sys2Proof.core.run 1 s = .next t ∧ t.seq = .idle ∧ t.trace.getLast? = some (.respond resp) :=
  ⟨_, resp, run_succ 0 h, by simpa using hseq, by simpa using hlast⟩

/-- Settles O53, by induction on the number of steps that remain: each transition completes a step or ends the request. -/
theorem requestWithoutWaitEnds : Obligations.RequestWithoutWaitEnds := by
  intro s r hs hr hk hw
  generalize hn : s.steps.length - s.k = n
  induction n generalizing s with
  | zero =>
    have hnone : s.steps[s.k]? = none := List.getElem?_eq_none (by omega)
    have hturn : turn Config.hw s = complete Config.hw s := by simp only [turn, hs, stepTurn, hnone]
    refine ⟨1, by omega, run_one_of_response ((step_eq s).trans (by rw [hturn])) (complete_idle _ s).1
      (resp := result Config.hw r (bgAfter r s.bg)) ?_⟩
    simp [complete_eq _ hr]
  | succ n ih =>
    have hsome : s.steps[s.k]? ≠ none := by simp; omega
    have hsample : s.sampling ≠ true := by
      simp only [State.sampling, hs, ne_eq, decide_eq_true_eq]
      exact fun h => hw (List.mem_of_getElem? h)
    have hcase := turn_case Config.hw s
    have hstep := step_eq s
    generalize turn Config.hw s = u at hcase hstep
    cases hcase with
    | quiet hi | accept _ _ _ hi | refuse _ _ hi => rw [hs] at hi; cases hi
    | idleSample h | busySample h | busyFault h => exact absurd h hsample
    | complete he hnone => exact absurd hnone hsome
    | abort kind => exact ⟨1, by omega, run_one_of_response hstep rfl (abort_getLast? _ _ _)⟩
    | done st t evs he hst hw' ht =>
      obtain ⟨m, hm, t', resp, hrun, hend⟩ := ih (panelTurn Config.hw t.advance) (by simp [ht.seq, he])
        (by simp [ht.req, hr]) (by simp [ht.steps, ht.k]; omega) (by simpa [ht.steps] using hw)
        (by simp [ht.steps, ht.k]; omega)
      exact ⟨m + 1, by omega, t', resp, (run_succ m hstep).trans hrun, hend⟩

end Sys2Proof.Machine
end

section
/-! PROOFS. What the block's transitions depend on (60_exceptions.md R299, 43_operations.md R213): the primitives of a step
read the output lines and the draws and nothing else of the state, so two states that agree there do the same. O45, and O30
by a lockstep of the two runs. -/

namespace Sys2Proof.Machine

/-! ### The primitives read the lines and the draws only -/

/-- Two states with the same output lines and the same remaining draws. -/
structure SameWire (s t : State) : Prop where
  dc : s.dc = t.dc
  rst : s.rst = t.rst
  dcDraws : s.env.dc = t.env.dc
  rstDraws : s.env.rst = t.env.rst
  busDraws : s.env.bus = t.env.bus
  busyDraws : s.env.busy = t.env.busy

/-- The fault an attempt ends in, if any. -/
def Attempt.kind? : Attempt → Option FaultKind
  | .done _ => none
  | .fault kind _ => some kind

/-- Two attempts, from `s` and from `t`, end alike: the same fault or none, the same events appended, and the same lines and
remaining draws. -/
def Alike (c : Cfg) (s t : State) (a b : Attempt) : Prop :=
  a.kind? = b.kind? ∧ SameWire a.state b.state ∧ ∃ evs, Touches c s a.state evs ∧ Touches c t b.state evs

theorem Alike.andThen {c : Cfg} {s t : State} {a b : Attempt} {f : State → Attempt} (h : Alike c s t a b)
    (hf : ∀ s' t', SameWire s' t' → Alike c s' t' (f s') (f t')) : Alike c s t (a.andThen f) (b.andThen f) := by
  obtain ⟨hkind, hwire, evs, hs, ht⟩ := h
  cases a with
  | done s' =>
    cases b with
    | done t' =>
      obtain ⟨hkind', hwire', evs', hs', ht'⟩ := hf s' t' hwire
      exact ⟨hkind', hwire', _, hs.trans hs', ht.trans ht'⟩
    | fault kind t' => cases hkind
  | fault kind s' =>
    cases b with
    | done t' => cases hkind
    | fault kind' t' => exact ⟨hkind, hwire, evs, hs, ht⟩

section
variable {c : Cfg} {s t : State} (h : SameWire s t)
include h

theorem setDc_alike (lvl : DcLevel) : Alike c s t (setDc lvl s) (setDc lvl t) := by
  have hdraw : s.env.drawDc.1 = t.env.drawDc.1 := by rw [Env.drawDc_fst, Env.drawDc_fst, h.dcDraws]
  have hrest : s.env.drawDc.2.dc = t.env.drawDc.2.dc := by rw [Env.drawDc_dc, Env.drawDc_dc, h.dcDraws]
  rcases setDc_cases lvl s with ⟨hs, heq⟩ | ⟨hs, heq⟩ <;> rcases setDc_cases lvl t with ⟨ht, heq'⟩ | ⟨ht, heq'⟩
  · rw [heq, heq']
    refine ⟨rfl, ⟨rfl, h.rst, hrest, h.rstDraws, h.busDraws, h.busyDraws⟩, [], ?_, ?_⟩ <;>
      constructor <;> simp [Panel.Follows.nil]
  · simp [hs, ht] at hdraw
  · simp [hs, ht] at hdraw
  · rw [heq, heq']
    refine ⟨rfl, ⟨h.dc, h.rst, hrest, h.rstDraws, h.busDraws, h.busyDraws⟩, [], ?_, ?_⟩ <;>
      constructor <;> simp [Panel.Follows.nil]

theorem setRst_alike (d : RstDrive) : Alike c s t (setRst c d s) (setRst c d t) := by
  have hdraw : s.env.drawRst.1 = t.env.drawRst.1 := by rw [Env.drawRst_fst, Env.drawRst_fst, h.rstDraws]
  have hrest : s.env.drawRst.2.rst = t.env.drawRst.2.rst := by rw [Env.drawRst_rst, Env.drawRst_rst, h.rstDraws]
  rcases setRst_cases c d s with ⟨hs, heq⟩ | ⟨hs, heq⟩ <;> rcases setRst_cases c d t with ⟨ht, heq'⟩ | ⟨ht, heq'⟩
  · rw [heq, heq']
    refine ⟨rfl, ⟨h.dc, rfl, h.dcDraws, hrest, h.busDraws, h.busyDraws⟩, [.rst d], ?_, ?_⟩ <;>
      constructor <;> simp [Panel.Follows.single]
  · simp [hs, ht] at hdraw
  · simp [hs, ht] at hdraw
  · rw [heq, heq']
    refine ⟨rfl, ⟨h.dc, h.rst, h.dcDraws, hrest, h.busDraws, h.busyDraws⟩, [], ?_, ?_⟩ <;>
      constructor <;> simp [Panel.Follows.nil]

theorem busWrite_alike (bs : List Byte) (event : List Byte → Event) :
    Alike c s t (busWrite c bs event s) (busWrite c bs event t) := by
  have hdraw : s.env.drawBus.1 = t.env.drawBus.1 := by rw [Env.drawBus_fst, Env.drawBus_fst, h.busDraws]
  have hrest : s.env.drawBus.2.bus = t.env.drawBus.2.bus := by rw [Env.drawBus_bus, Env.drawBus_bus, h.busDraws]
  rcases busWrite_cases c bs event s with ⟨hs, heq⟩ | ⟨n, hs, heq⟩ <;>
    rcases busWrite_cases c bs event t with ⟨ht, heq'⟩ | ⟨n', ht, heq'⟩
  · rw [heq, heq']
    refine ⟨rfl, ⟨h.dc, h.rst, h.dcDraws, h.rstDraws, hrest, h.busyDraws⟩, [event bs], ?_, ?_⟩ <;>
      constructor <;> simp [Panel.Follows.single]
  · simp [hs, ht] at hdraw
  · simp [hs, ht] at hdraw
  · obtain rfl : n = n' := by simpa [hs, ht] using hdraw
    rw [heq, heq']
    by_cases hn : bs.take n = []
    · rw [if_pos hn, if_pos hn]
      refine ⟨rfl, ⟨h.dc, h.rst, h.dcDraws, h.rstDraws, hrest, h.busyDraws⟩, [], ?_, ?_⟩ <;>
        constructor <;> simp [Panel.Follows.nil]
    · rw [if_neg hn, if_neg hn]
      refine ⟨rfl, ⟨h.dc, h.rst, h.dcDraws, h.rstDraws, hrest, h.busyDraws⟩, [event (bs.take n)], ?_, ?_⟩ <;>
        constructor <;> simp [Panel.Follows.single]

theorem delayFor_alike (us : Nat) : Alike c s t (delayFor c us s) (delayFor c us t) :=
  ⟨rfl, ⟨h.dc, h.rst, h.dcDraws, h.rstDraws, h.busDraws, h.busyDraws⟩, _, Touches.emit c _ s, Touches.emit c _ t⟩

theorem panelTurn_alike : Alike c s t (.done (panelTurn c s)) (.done (panelTurn c t)) := by
  refine ⟨rfl, ⟨?_, ?_, ?_, ?_, ?_, ?_⟩, [], Touches.turn c s, Touches.turn c t⟩
  · simpa using h.dc
  · simpa using h.rst
  · simpa using h.dcDraws
  · simpa using h.rstDraws
  · simpa using h.busDraws
  · simpa using h.busyDraws

theorem pulseDelay_alike (us : Nat) : Alike c s t (pulseDelay c us s) (pulseDelay c us t) :=
  (delayFor_alike h us).andThen fun _ _ h' => panelTurn_alike h'

theorem hwReset_alike (d1 d2 : Nat) : Alike c s t (hwReset c d1 d2 s) (hwReset c d1 d2 t) :=
  ((((setRst_alike h _).andThen fun _ _ h' => pulseDelay_alike h' d1).andThen fun _ _ h' => setRst_alike h' _).andThen
    fun _ _ h' => pulseDelay_alike h' d2).andThen fun _ _ h' => setRst_alike h' _

end

/-- The primitives of a step that is no `Wait`; a `Wait` has none of these (R171 to R173). -/
def stepAttempt (c : Cfg) (st : Step) (s : State) : Attempt :=
  match st with
  | .cmd b => sendCmd c b s
  | .data bs => sendData c bs s
  | .hwReset d1 d2 => hwReset c d1 d2 s
  | .delay us => delayFor c us s
  | .wait => .done s

/-- The transition at a step that is no `Wait` is the end of its primitives (R185). -/
theorem stepTurn_of_step {c : Cfg} {s : State} {st : Step} (hst : s.steps[s.k]? = some st) (hw : st ≠ .wait) :
    stepTurn c s = settle c (stepAttempt c st s) := by
  unfold stepTurn
  rw [hst]
  cases st with
  | wait => exact absurd rfl hw
  | _ => rfl

theorem stepAttempt_alike {c : Cfg} {s t : State} (h : SameWire s t) (st : Step) :
    Alike c s t (stepAttempt c st s) (stepAttempt c st t) := by
  cases st with
  | cmd b => exact (setDc_alike h _).andThen fun _ _ h' => busWrite_alike h' _ _
  | data bs => exact (setDc_alike h _).andThen fun _ _ h' => busWrite_alike h' _ _
  | hwReset d1 d2 => exact hwReset_alike h d1 d2
  | delay us => exact delayFor_alike h us
  | wait => exact ⟨rfl, h, [], Touches.refl c s, Touches.refl c t⟩

/-! ### The block ignores the panel and the marks (R299) -/

/-- What `sameBlock` leaves free: the panel, its finish draws and the two marks. -/
theorem sameBlock.exists_eq {s t : State} (h : sameBlock s t) : ∃ p v r f,
    t = { s with panel := p, violation := v, refused := r, env := { s.env with finish := f } } := by
  refine ⟨t.panel, t.violation, t.refused, t.env.finish, ?_⟩
  obtain ⟨h1, h2, h3, h4, h5, h6, h7, h8, h9, h10, h11, h12, h13, h14, h15, h16⟩ := h
  simp only [h1, h2, h3, h4, h5, h6, h7, h8, h9, h10, h11, h12, h13, h14, h15, h16]

theorem sameBlock.wire {s t : State} (h : sameBlock s t) : SameWire s t := by
  obtain ⟨p, v, r, f, rfl⟩ := h.exists_eq
  exact ⟨rfl, rfl, rfl, rfl, rfl, rfl⟩

/-- Primitives with the same events keep two blocks the same. -/
theorem sameBlock.touches {c : Cfg} {s t s' t' : State} {evs : List Event} (h : sameBlock s t) (hs : Touches c s s' evs)
    (ht : Touches c t t' evs) (hw : SameWire s' t') : sameBlock s' t' := by
  obtain ⟨p, v, r, f, rfl⟩ := h.exists_eq
  exact ⟨hs.seq.trans ht.seq.symm, hs.req.trans ht.req.symm, hs.steps.trans ht.steps.symm, hs.k.trans ht.k.symm,
    hs.bg.trans ht.bg.symm, hs.life.trans ht.life.symm, hw.dc, hw.rst, hs.trace.trans ht.trace.symm,
    hs.resp.trans ht.resp.symm, hs.construct.trans ht.construct.symm, hw.dcDraws, hw.rstDraws, hw.busDraws, hw.busyDraws,
    hs.offers.trans ht.offers.symm⟩

theorem sameBlock.panelTurn {c : Cfg} {s t : State} (h : sameBlock s t) : sameBlock (panelTurn c s) (panelTurn c t) := by
  simpa [sameBlock] using h

theorem sameBlock.advance {s t : State} (h : sameBlock s t) : sameBlock s.advance t.advance := by
  obtain ⟨p, v, r, f, rfl⟩ := h.exists_eq
  simp [sameBlock]

theorem sameBlock.abort {c : Cfg} {s t : State} (h : sameBlock s t) (kind : FaultKind) :
    sameBlock (abort c kind s) (abort c kind t) := by
  obtain ⟨p, v, r, f, rfl⟩ := h.exists_eq
  simp [sameBlock]

/-- The end of a step: alike attempts leave the same block. -/
theorem sameBlock.settle {c : Cfg} {s t : State} {a b : Attempt} (h : sameBlock s t) (hab : Alike c s t a b) :
    sameBlock (settle c a) (settle c b) := by
  obtain ⟨hkind, hwire, evs, hs, ht⟩ := hab
  have hsame := h.touches hs ht hwire
  cases a with
  | done s' =>
    cases b with
    | done t' => exact hsame.advance
    | fault kind t' => cases hkind
  | fault kind s' =>
    cases b with
    | done t' => cases hkind
    | fault kind' t' =>
      cases hkind
      exact hsame.abort kind

theorem sameBlock.sampleBusy {c : Cfg} {s t : State} (h : sameBlock s t) : sameBlock (sampleBusy c s) (sampleBusy c t) := by
  obtain ⟨p, v, r, f, rfl⟩ := h.exists_eq
  unfold Machine.sampleBusy
  simp only [Env.drawBusy_fst]
  split
  · exact sameBlock.abort (by simp [sameBlock]) _
  · split <;> simp [sameBlock]

section
variable {s t : State} (h : sameBlock s t)
include h

theorem sameBlock.seq : t.seq = s.seq := by obtain ⟨p, v, r, f, rfl⟩ := h.exists_eq; rfl
theorem sameBlock.req : t.req = s.req := by obtain ⟨p, v, r, f, rfl⟩ := h.exists_eq; rfl
theorem sameBlock.stepAtIndex : t.steps[t.k]? = s.steps[s.k]? := by obtain ⟨p, v, r, f, rfl⟩ := h.exists_eq; rfl
theorem sameBlock.construct : t.construct = s.construct := by obtain ⟨p, v, r, f, rfl⟩ := h.exists_eq; rfl
theorem sameBlock.offers : t.env.offers = s.env.offers := by obtain ⟨p, v, r, f, rfl⟩ := h.exists_eq; rfl

/-- The port of two same blocks offers the same. -/
theorem sameBlock.takeOffer : (takeOffer s = none ∧ takeOffer t = none) ∨
    ∃ w s' t', takeOffer s = some (w, s') ∧ takeOffer t = some (w, t') ∧ sameBlock s' t' := by
  cases hc : s.construct with
  | true =>
    refine .inr ⟨_, _, _, takeOffer_of_construct hc, takeOffer_of_construct (h.construct.trans hc), ?_⟩
    obtain ⟨p, v, r, f, rfl⟩ := h.exists_eq
    simp [sameBlock]
  | false =>
    have hc' := h.construct.trans hc
    cases ho : s.env.offers with
    | nil =>
      have ho' := h.offers.trans ho
      exact .inl ⟨by simp [Machine.takeOffer, hc, ho], by simp [Machine.takeOffer, hc', ho']⟩
    | cons w rest =>
      refine .inr ⟨_, _, _, takeOffer_of_offers hc ho, takeOffer_of_offers hc' (h.offers.trans ho), ?_⟩
      obtain ⟨p, v, r, f, rfl⟩ := h.exists_eq
      simp [sameBlock]

theorem sameBlock.acceptRequest (c : Cfg) (r : Request) : sameBlock (acceptRequest c r s) (acceptRequest c r t) := by
  obtain ⟨p, v, m, f, rfl⟩ := h.exists_eq
  simp [sameBlock]

theorem sameBlock.refuseRequest : sameBlock (refuseRequest s) (refuseRequest t) := by
  obtain ⟨p, v, m, f, rfl⟩ := h.exists_eq
  simp [sameBlock]

end

theorem sameBlock.complete {c : Cfg} {s t : State} (h : sameBlock s t) : sameBlock (complete c s) (complete c t) := by
  cases hr : s.req with
  | none =>
    rw [complete_of_none c s hr, complete_of_none c t (h.req.trans hr)]
    obtain ⟨p, v, m, f, rfl⟩ := h.exists_eq
    simp [sameBlock]
  | some r =>
    rw [complete_eq c hr, complete_eq c (h.req.trans hr)]
    obtain ⟨p, v, m, f, rfl⟩ := h.exists_eq
    simp [sameBlock]

/-- One block transition keeps two blocks the same. -/
theorem sameBlock.turn {c : Cfg} {s t : State} (h : sameBlock s t) : sameBlock (turn c s) (turn c t) := by
  unfold Machine.turn
  rw [h.seq]
  cases s.seq with
  | wait => exact h.sampleBusy
  | idle =>
    rcases h.takeOffer with ⟨hs, ht⟩ | ⟨w, s', t', hs, ht, h'⟩
    · simp only [hs, ht, h]
    · simp only [hs, ht]
      cases (decodeRequest w).request? with
      | some r => exact h'.acceptRequest c r
      | none => exact h'.refuseRequest
  | exec =>
    have hst' := h.stepAtIndex
    cases hst : s.steps[s.k]? with
    | none => simpa only [stepTurn, hst, hst'] using h.complete
    | some st =>
      by_cases hw : st = .wait
      · subst hw
        simpa only [stepTurn, hst, hst'] using h.sampleBusy
      · simpa only [stepTurn_of_step hst hw, stepTurn_of_step (hst'.trans hst) hw] using
          h.settle (stepAttempt_alike h.wire st)

/-- Settles O45: a step is one block transition and a panel's turn, and both keep the blocks the same. -/
theorem blockIgnoresPanelAndFlags : Obligations.BlockIgnoresPanelAndFlags :=
  fun s s' h => ⟨_, _, step_eq s, step_eq s', h.turn.panelTurn⟩

/-! ### UPLOAD_AND_REFRESH and UPLOAD_FRAME then REFRESH (R213) -/

theorem sameLine.wire {s t : State} (h : sameLine s t) : SameWire s t := by
  obtain ⟨-, -, -, -, -, hdc, hrst, h1, h2, h3, h4⟩ := h
  exact ⟨hdc, hrst, h1, h2, h3, h4⟩

theorem sameLine.panelTurn {s t : State} (h : sameLine s t) :
    sameLine (panelTurn Config.hw s) (panelTurn Config.hw t) := by
  simpa [sameLine] using h

/-- Primitives with the same events keep two runs at the same point of the line. -/
theorem sameLine.touches {c : Cfg} {s t s' t' : State} {evs : List Event} (h : sameLine s t) (hs : Touches c s s' evs)
    (ht : Touches c t t' evs) (hw : SameWire s' t') : sameLine s' t' := by
  obtain ⟨htrace, hseq, hlife, hbg, hviolation, -⟩ := h
  exact ⟨by rw [hs.trace, ht.trace, lineEvents_append, lineEvents_append, htrace], by rw [hs.seq, ht.seq, hseq],
    by rw [hs.life, ht.life, hlife], by rw [hs.bg, ht.bg, hbg], by rw [hs.violation, ht.violation, hviolation],
    hw.dc, hw.rst, hw.dcDraws, hw.rstDraws, hw.busDraws, hw.busyDraws⟩

/-- An abort counts by its kind alone (log 31). -/
theorem sameLine.abort {c : Cfg} {s t : State} (h : sameLine s t) (kind : FaultKind) :
    sameLine (abort c kind s) (abort c kind t) := by
  obtain ⟨htrace, -, -, hbg, hviolation, hdc, hrst, h1, h2, h3, h4⟩ := h
  refine ⟨?_, rfl, rfl, hbg, hviolation, hdc, hrst, h1, h2, h3, h4⟩
  simp only [abort_trace, lineEvents_append, htrace, lineEvents_fault, lineEvents_respond]

/-- The step list from the step index on. -/
def State.rest (s : State) : List Step := s.steps.drop s.k

theorem getElem?_of_rest {s : State} {st : Step} {L : List Step} (h : s.rest = st :: L) : s.steps[s.k]? = some st := by
  have h0 := congrArg (·[0]?) h
  simpa [State.rest] using h0

theorem getElem?_of_rest_nil {s : State} (h : s.rest = []) : s.steps[s.k]? = none :=
  List.getElem?_eq_none (List.drop_eq_nil_iff.mp h)

/-- After a step the rest is the tail of the rest. -/
theorem rest_tail {s : State} {st : Step} {L : List Step} (h : s.rest = st :: L) : s.steps.drop (s.k + 1) = L := by
  rw [← List.drop_drop, show s.steps.drop s.k = st :: L from h]
  rfl

/-- Two busy runs in lockstep: at the same point of the line, with the same steps to come, after which the second has `R`
more. -/
structure Lockstep (R : List Step) (u t : State) : Prop where
  line : sameLine u t
  rest : t.rest = u.rest ++ R
  busy : u.seq = .exec ∨ (u.seq = .wait ∧ ∃ L, u.rest = .wait :: L)

theorem Lockstep.panelTurn {R : List Step} {u t : State} (h : Lockstep R u t) :
    Lockstep R (panelTurn Config.hw u) (panelTurn Config.hw t) where
  line := h.line.panelTurn
  rest := by simpa [State.rest] using h.rest
  busy := by simpa [State.rest] using h.busy

/-- What two runs do at a common step: they go on in lockstep with their requests, or both abort alike. -/
def StepsTogether (R : List Step) (u t u' t' : State) : Prop :=
  (Lockstep R u' t' ∧ u'.req = u.req ∧ t'.req = t.req ∧ u'.life = u.life ∧ u'.violation = u.violation) ∨
    (sameLine u' t' ∧ t'.seq = .idle ∧ u'.resp = t'.resp)

theorem StepsTogether.panelTurn {R : List Step} {u t u' t' : State} (h : StepsTogether R u t u' t') :
    StepsTogether R u t (panelTurn Config.hw u') (panelTurn Config.hw t') := by
  rcases h with ⟨hlock, hreq⟩ | ⟨hline, hend⟩
  · exact .inl ⟨hlock.panelTurn, by simpa using hreq⟩
  · exact .inr ⟨hline.panelTurn, by simpa using hend⟩

section
variable {R L : List Step} {u t : State}

/-- A common sample of the busy line. -/
theorem Lockstep.sample (h : Lockstep R u t) (hrest : u.rest = .wait :: L) :
    StepsTogether R u t (sampleBusy Config.hw u) (sampleBusy Config.hw t) := by
  obtain ⟨htrace, -, hlife, hbg, hviolation, hdc, hrst, h1, h2, h3, h4⟩ := h.line
  have hdraw : u.env.drawBusy.1 = t.env.drawBusy.1 := by rw [Env.drawBusy_fst, Env.drawBusy_fst, h4]
  have hdrawn : u.env.drawBusy.2.busy = t.env.drawBusy.2.busy := by rw [Env.drawBusy_busy, Env.drawBusy_busy, h4]
  have hrest' : t.rest = .wait :: (L ++ R) := by rw [h.rest, hrest]; rfl
  unfold sampleBusy
  rw [hdraw]
  split
  · refine .inr ⟨sameLine.abort ?_ _, rfl, rfl⟩
    exact ⟨htrace, h.line.2.1, hlife, hbg, hviolation, hdc, hrst, h1, h2, h3, hdrawn⟩
  · split
    · refine .inl ⟨⟨⟨?_, rfl, hlife, hbg, hviolation, hdc, hrst, h1, h2, h3, hdrawn⟩, ?_, .inl rfl⟩, rfl, rfl, rfl, rfl⟩
      · simp [htrace]
      · show t.steps.drop (t.k + 1) = u.steps.drop (u.k + 1) ++ R
        rw [rest_tail hrest', rest_tail hrest]
    · refine .inl ⟨⟨⟨?_, rfl, hlife, hbg, hviolation, hdc, hrst, h1, h2, h3, hdrawn⟩, h.rest, .inr ⟨rfl, L, hrest⟩⟩,
        rfl, rfl,
        rfl, rfl⟩
      simp [htrace]

/-- A common step that is no `Wait`. -/
theorem Lockstep.attempt (h : Lockstep R u t) {st : Step} (hseq : u.seq = .exec) (hrest : u.rest = st :: L) :
    StepsTogether R u t (settle Config.hw (stepAttempt Config.hw st u)) (settle Config.hw (stepAttempt Config.hw st t)) := by
  have hrest' : t.rest = st :: (L ++ R) := by rw [h.rest, hrest]; rfl
  obtain ⟨hkind, hwire, evs, hu, ht⟩ := stepAttempt_alike (c := Config.hw) h.line.wire st
  have hline := h.line.touches hu ht hwire
  generalize stepAttempt Config.hw st u = a at hkind hu hline
  generalize stepAttempt Config.hw st t = b at hkind ht hline
  cases a with
  | done u' =>
    cases b with
    | done t' =>
      refine .inl ⟨⟨hline, ?_, .inl (hu.seq.trans hseq)⟩, hu.req, ht.req, hu.life, hu.violation⟩
      show t'.steps.drop (t'.k + 1) = u'.steps.drop (u'.k + 1) ++ R
      rw [show t'.steps = t.steps from ht.steps, show t'.k = t.k from ht.k, show u'.steps = u.steps from hu.steps,
        show u'.k = u.k from hu.k, rest_tail hrest', rest_tail hrest]
    | fault kind t' => cases hkind
  | fault kind u' =>
    cases b with
    | done t' => cases hkind
    | fault kind' t' =>
      cases hkind
      exact .inr ⟨hline.abort kind, rfl, rfl⟩

/-- While the first run has a step left, both take it together. -/
theorem Lockstep.turn (h : Lockstep R u t) (hne : u.rest ≠ []) :
    StepsTogether R u t (turn Config.hw u) (turn Config.hw t) := by
  obtain ⟨st, L, hrest⟩ := List.exists_cons_of_ne_nil hne
  have hst := getElem?_of_rest hrest
  have hst' : t.steps[t.k]? = some st := getElem?_of_rest (L := L ++ R) (by rw [h.rest, hrest]; rfl)
  have hseq' : t.seq = u.seq := h.line.2.1.symm
  rcases h.busy with hseq | ⟨hseq, L', hwait⟩
  · by_cases hw : st = .wait
    · subst hw
      simpa only [Machine.turn, hseq', hseq, stepTurn, hst, hst'] using h.sample hrest
    · simpa only [Machine.turn, hseq', hseq, stepTurn_of_step hst hw, stepTurn_of_step hst' hw] using h.attempt hseq hrest
  · simpa only [Machine.turn, hseq', hseq] using h.sample hwait

/-- At the end of its list the first run is executing. -/
theorem Lockstep.exec_of_rest_nil (h : Lockstep R u t) (hnil : u.rest = []) : u.seq = .exec := by
  rcases h.busy with hseq | ⟨-, L, hwait⟩
  · exact hseq
  · rw [hnil] at hwait
    cases hwait

theorem Lockstep.not_idle (h : Lockstep R u t) : t.seq ≠ .idle := by
  rw [← h.line.2.1]
  rcases h.busy with hseq | ⟨hseq, -⟩ <;> rw [hseq] <;> decide

end

/-- The block transition at the end of the list. -/
theorem turn_of_rest_nil {s : State} (hseq : s.seq = .exec) (hnil : s.rest = []) :
    turn Config.hw s = complete Config.hw s := by
  simp only [turn, hseq, stepTurn, getElem?_of_rest_nil hnil]

/-- The states before the end of a longer run are those of the shorter one. -/
theorem busy_before_end {n : Nat} {s s' : State} (h : step s = .next s')
    (hf : ∀ m u, m < n + 1 → Sys2Proof.core.run m s = .next u → u.seq ≠ .idle) :
    ∀ m u, m < n → Sys2Proof.core.run m s' = .next u → u.seq ≠ .idle :=
  fun m u hm hu => hf (m + 1) u (by omega) ((run_succ m h).trans hu)

/-- The second half: REFRESH in lockstep with the last steps of UPLOAD_AND_REFRESH, to the end of both. -/
theorem refresh_lockstep {bw : List Byte} (n : Nat) : ∀ {v t0 t : State}, Lockstep [] v t0 → v.req = some .refresh →
    t0.req = some (.uploadAndRefresh bw) → Sys2Proof.core.run n t0 = .next t →
    (∀ m u, m < n → Sys2Proof.core.run m t0 = .next u → u.seq ≠ .idle) →
    ∃ (m : Nat) (v' : State), Sys2Proof.core.run m v = .next v' ∧ sameLine v' t ∧ (t.seq = .idle → v'.resp = t.resp) := by
  induction n with
  | zero =>
    intro v t0 t hlock _ _ hrun _
    cases hrun
    exact ⟨0, v, rfl, hlock.line, fun hi => absurd hi hlock.not_idle⟩
  | succ n ih =>
    intro v t0 t hlock hv ht0 hrun hf
    rw [run_succ n (step_eq t0)] at hrun
    have hf' := busy_before_end (step_eq t0) hf
    have hend : ∀ {v' t' : State}, step v = .next v' → step t0 = .next t' → sameLine v' t' → t'.seq = .idle →
        v'.resp = t'.resp → ∃ (m : Nat) (v' : State), Sys2Proof.core.run m v = .next v' ∧ sameLine v' t ∧
          (t.seq = .idle → v'.resp = t.resp) := by
      intro v' t' hv' ht' hline hidle hresp
      obtain rfl := step_next_iff.mp ht'
      rw [idle_end hidle hrun hf']
      exact ⟨1, v', run_succ 0 hv', hline, fun _ => hresp⟩
    by_cases hnil : v.rest = []
    · have hnil' : t0.rest = [] := by rw [hlock.rest, hnil]; rfl
      have hseq := hlock.exec_of_rest_nil hnil
      have hv' : turn Config.hw v = _ := (turn_of_rest_nil hseq hnil).trans (complete_eq _ hv)
      have ht' : turn Config.hw t0 = _ :=
        (turn_of_rest_nil (hlock.line.2.1.symm.trans hseq) hnil').trans (complete_eq _ ht0)
      refine hend (step_eq v) (step_eq t0) (sameLine.panelTurn ?_) (by simp [ht']) (by simp [hv', ht', result])
      obtain ⟨htrace, -, hlife, hbg, hrest⟩ := hlock.line
      rw [hv', ht']
      exact ⟨by simp [htrace], rfl, hlife, hbg, hrest⟩
    · rcases (hlock.turn hnil).panelTurn with ⟨hlock', hreq, hreq', -⟩ | ⟨hline, hidle, hresp⟩
      · obtain ⟨m, v', hrun', hend'⟩ := ih hlock' (hreq.trans hv) (hreq'.trans ht0) hrun hf'
        exact ⟨m + 1, v', (run_succ m (step_eq v)).trans hrun', hend'⟩
      · exact hend (step_eq v) (step_eq t0) hline hidle hresp

/-- An executing UPLOAD_FRAME at the end of its list completes, and the REFRESH accepted then is in lockstep with the rest of
UPLOAD_AND_REFRESH: its violation test asks for the same lifecycle. -/
theorem refresh_starts_lockstep {bw : List Byte} {u t : State} (hlock : Lockstep (refreshSteps Config.hw) u t)
    (hnil : u.rest = []) (hu : u.req = some (.uploadFrame bw)) (hviol : u.life ≠ .ready → u.violation = true) :
    ∃ u' v, step u = .next u' ∧ u'.seq = .idle ∧ u'.resp = some .ok ∧ exec .refresh u' = .next v ∧ Lockstep [] v t ∧
      v.req = some .refresh := by
  have hseq := hlock.exec_of_rest_nil hnil
  have hturn : turn Config.hw u = _ := (turn_of_rest_nil hseq hnil).trans (complete_eq _ hu)
  have hidle : (panelTurn Config.hw (turn Config.hw u)).seq = .idle := by rw [hturn, panelTurn_seq]
  obtain ⟨w, -, hexec⟩ := exec_of_request (i := .refresh) rfl (panelTurn Config.hw (turn Config.hw u))
  rw [offerRequest_of_idle w _ hidle] at hexec
  refine ⟨_, _, step_eq u, hidle, by rw [hturn, panelTurn_resp]; rfl, hexec, ⟨?_, ?_, .inl rfl⟩, rfl⟩
  · obtain ⟨htrace, hseq', hlife, hbg, hviolation, hrest⟩ := hlock.line
    have hsame : (u.violation || violates Config.hw .refresh u.life) = u.violation := by
      cases hv : u.violation with
      | true => rfl
      | false =>
        have hready : u.life = .ready := by
          by_contra hne
          rw [hviol hne] at hv
          cases hv
        rw [hready]
        rfl
    rw [hturn]
    exact ⟨by simp only [acceptRequest_trace, panelTurn_trace, lineEvents_append, lineEvents_respond, lineEvents_accept,
        htrace, List.append_nil], hseq.symm.trans hseq', by simpa [lifeAfter] using hlife, by simpa [bgAfter] using hbg,
      by simpa [lifeAfter, hsame] using hviolation, by simpa using hrest⟩
  · rw [hlock.rest, hnil]
    simp [State.rest, stepList]

/-- The first half: UPLOAD_FRAME in lockstep with UPLOAD_AND_REFRESH, and, once it has completed, REFRESH. -/
theorem upload_lockstep {bw : List Byte} (n : Nat) : ∀ {u t0 t : State}, Lockstep (refreshSteps Config.hw) u t0 →
    u.req = some (.uploadFrame bw) → t0.req = some (.uploadAndRefresh bw) → (u.life ≠ .ready → u.violation = true) →
    Sys2Proof.core.run n t0 = .next t → (∀ m w, m < n → Sys2Proof.core.run m t0 = .next w → w.seq ≠ .idle) →
    (∃ (m : Nat) (u' : State), Sys2Proof.core.run m u = .next u' ∧ sameLine u' t) ∨
      ∃ (m m' : Nat) (u' v v' : State), Sys2Proof.core.run m u = .next u' ∧ u'.seq = .idle ∧ u'.resp = some .ok ∧
        exec .refresh u' = .next v ∧ Sys2Proof.core.run m' v = .next v' ∧ sameLine v' t ∧
        (t.seq = .idle → v'.resp = t.resp) := by
  induction n with
  | zero =>
    intro u t0 t hlock _ _ _ hrun _
    cases hrun
    exact .inl ⟨0, u, rfl, hlock.line⟩
  | succ n ih =>
    intro u t0 t hlock hu ht0 hviol hrun hf
    by_cases hnil : u.rest = []
    · obtain ⟨u', v, hstep, hidle, hresp, hexec, hlock', hv⟩ := refresh_starts_lockstep hlock hnil hu hviol
      obtain ⟨m, v', hrun', hline, hend⟩ := refresh_lockstep (n + 1) hlock' hv ht0 hrun hf
      exact .inr ⟨1, m, u', v, v', run_succ 0 hstep, hidle, hresp, hexec, hrun', hline, hend⟩
    · rw [run_succ n (step_eq t0)] at hrun
      have hf' := busy_before_end (step_eq t0) hf
      rcases (hlock.turn hnil).panelTurn with ⟨hlock', hreq, hreq', hlife, hviolation⟩ | ⟨hline, hidle, -⟩
      · rcases ih hlock' (hreq.trans hu) (hreq'.trans ht0) (by rwa [hlife, hviolation]) hrun hf' with
          ⟨m, u', hrun', hline⟩ | ⟨m, m', u', v, v', hrun', hrest⟩
        · exact .inl ⟨m + 1, u', (run_succ m (step_eq u)).trans hrun', hline⟩
        · exact .inr ⟨m + 1, m', u', v, v', (run_succ m (step_eq u)).trans hrun', hrest⟩
      · rw [idle_end hidle hrun hf']
        exact .inl ⟨1, _, run_succ 0 (step_eq u), hline⟩

/-- Settles O30: both requests start in lockstep, with REFRESH's steps still to come in the single run. -/
theorem uploadAndRefreshIsUploadThenRefresh : Obligations.UploadAndRefreshIsUploadThenRefresh := by
  intro bw s s1 s2 t n hs h1 h2 hrun hf
  have accepted : ∀ {i : Instr} {r : Request} {s' : State}, i.request? = some r → exec i s = .next s' →
      s' = acceptRequest Config.hw r s := by
    intro i r s' hr hexec
    obtain ⟨w, -, he⟩ := exec_of_request hr s
    rw [he, offerRequest_of_idle w r hs] at hexec
    exact (Host.Outcome.next.inj hexec).symm
  obtain rfl := accepted rfl h1
  obtain rfl := accepted rfl h2
  refine upload_lockstep n ⟨?_, ?_, .inl rfl⟩ rfl rfl (fun hne => ?_) hrun hf
  · exact ⟨by simp, rfl, rfl, rfl, rfl, rfl, rfl, rfl, rfl, rfl, rfl⟩
  · rfl
  · have hne' : s.life ≠ .ready := hne
    simp [violates, hne']

end Sys2Proof.Machine
end

section
/-! PROOFS. The busy handshake and the reset pulse (42_transport_busy_fsm.md R173 to R175, 45_panel_reference_model.md R253,
R255): O40 and O42. -/

namespace Sys2Proof.Machine

/-! ### One sample of the busy line (R174, R175) -/

/-- Where the next transition samples the busy line, the step is that sample and the panel's turn. -/
theorem step_of_sampling {s : State} (hs : s.seq = .wait ∨ (s.seq = .exec ∧ s.steps[s.k]? = some .wait)) :
    step s = .next (panelTurn Config.hw (sampleBusy Config.hw s)) := by
  rcases hs with hs | ⟨hs, hst⟩
  · exact step_of_wait hs
  · have hturn : turn Config.hw s = sampleBusy Config.hw s := by simp only [turn, hs, stepTurn, hst]
    rw [step_eq, hturn]

section
variable {c : Cfg} {s : State}

/-- A sample at the idle level completes the step. -/
theorem sampleBusy_of_idle {l : Level} (hdraw : s.env.drawBusy.1 = .level l) (hl : l = c.busyIdleLevel) :
    sampleBusy c s =
      { (({ s with env := s.env.drawBusy.2 }).emit c (.busySample .idle)).advance with seq := .exec } := by
  simp [sampleBusy, hdraw, idleLevel, hl]

/-- A failed sample aborts. -/
theorem sampleBusy_of_fault (hdraw : s.env.drawBusy.1 = .fault) :
    sampleBusy c s = abort c .busyInput { s with env := s.env.drawBusy.2 } := by
  simp [sampleBusy, hdraw]

/-- A sample sends no byte and drives no line (R60, R179). -/
theorem sampleBusy_sends_nothing (c : Cfg) (s : State) : commandStream (sampleBusy c s).trace = commandStream s.trace ∧
    (sampleBusy c s).dc = s.dc ∧ (sampleBusy c s).rst = s.rst := by
  have hstream : ∀ evs : List Event, (∀ e ∈ evs, e.isBytes = false) →
      commandStream (s.trace ++ evs) = commandStream s.trace := by
    intro evs h
    have hnil : evs.filter Event.isBytes = [] := List.filter_eq_nil_iff.mpr (by simpa using h)
    simp only [commandStream, List.filter_append, hnil, List.append_nil]
  cases hdraw : s.env.drawBusy.1 with
  | fault =>
    rw [sampleBusy_of_fault hdraw, abort_eq]
    exact ⟨hstream _ (by simp [Event.isBytes]), rfl, rfl⟩
  | level l =>
    by_cases hl : l = c.busyIdleLevel
    · rw [sampleBusy_of_idle hdraw hl]
      exact ⟨hstream _ (by simp [Event.isBytes]), rfl, rfl⟩
    · rw [sampleBusy_of_busy hdraw hl]
      exact ⟨hstream _ (by simp [Event.isBytes]), rfl, rfl⟩

end

/-- What a sample is to a defined panel. -/
theorem Panel.react_sample (c : Cfg) (o : BusySample) {p : Panel} (hu : p.undef = false) :
    p.react c (.busySample o) = p.onSample c o := by
  simp [react, hu]

/-- Settles O40: the panel's reaction by its busy state, and the three draws of a sample. -/
theorem waitTakesOneSamplePerStep : Obligations.WaitTakesOneSamplePerStep := by
  refine ⟨fun c p hu => ⟨fun hb => ?_, fun hb => ?_, fun hb => ?_⟩, fun s hs => ⟨fun l hdraw hl => ?_, fun l hdraw hl => ?_,
    fun hdraw => ?_, fun t ht => ?_⟩⟩
  · simp [Panel.react_sample c _ hu, Panel.onSample, hb]
  · have hundef : p.react c (.busySample .busy) = p.setUndef := by simp [Panel.react_sample c _ hu, Panel.onSample, hb]
    rw [hundef]
    exact ⟨by simp [Panel.react_sample c _ hu, Panel.onSample, hb], rfl, Panel.setUndef_allUnknown p⟩
  · simp [Panel.react_sample c _ hu, Panel.onSample, hb]
  · rw [step_of_sampling hs, sampleBusy_of_idle hdraw hl]
    rfl
  · rw [step_of_sampling hs, sampleBusy_of_busy hdraw hl]
    rfl
  · rw [step_of_sampling hs, sampleBusy_of_fault hdraw]
  · rw [step_of_sampling hs, Host.Outcome.next.injEq] at ht
    subst ht
    simpa using sampleBusy_sends_nothing Config.hw s

/-! ### The reset pulse (R173, R255) -/

theorem Attempt.andThen_assoc (a : Attempt) (f g : State → Attempt) :
    (a.andThen f).andThen g = a.andThen fun s => (f s).andThen g := by
  cases a <;> rfl

/-- A write of the reset line and the delay after it. -/
def pulseHalf (c : Cfg) (d : RstDrive) (us : Nat) (s : State) : Attempt := (setRst c d s).andThen (pulseDelay c us)

/-- A reset pulse is two writes with their delays, and a last write (R173). -/
theorem hwReset_eq (c : Cfg) (d1 d2 : Nat) (s : State) : hwReset c d1 d2 s =
    ((pulseHalf c .deasserted d1 s).andThen (pulseHalf c .asserted d2)).andThen (setRst c .deasserted) := by
  rw [hwReset, Attempt.andThen_assoc (((setRst c .deasserted s).andThen (pulseDelay c d1))) (setRst c .asserted)]
  rfl

/-- The pin draws of the reset line have been used up to `rest`; of the other draws only the panel's may be. -/
def RstDrawn (s t : State) (rest : List PinDraw) : Prop :=
  t.env = { s.env with rst := { s.env.rst with script := rest }, finish := t.env.finish }

theorem RstDrawn.script {s t : State} {rest : List PinDraw} (h : RstDrawn s t rest) : t.env.rst.script = rest := by rw [h]

theorem RstDrawn.trans {s t u : State} {rest rest' : List PinDraw} (h : RstDrawn s t rest) (h' : RstDrawn t u rest') :
    RstDrawn s u rest' := by
  unfold RstDrawn at *
  rw [h', h]

/-- A write that succeeds and its delay: the two events, the line driven, and the panel as its turn leaves it after the
write. -/
theorem pulseHalf_ok (c : Cfg) (d : RstDrive) (us : Nat) {s : State} {rest : List PinDraw}
    (h : s.env.rst.script = .ok :: rest) : ∃ t, pulseHalf c d us s = .done t ∧
      Touches c s t [.rst d, .delay us] ∧ t.dc = s.dc ∧ t.rst = d.toLevel ∧ RstDrawn s t rest ∧
      t.panel = (panelTurn c { s with panel := s.panel.react c (.rst d) }).panel ∧
      t.env.finish = (panelTurn c { s with panel := s.panel.react c (.rst d) }).env.finish := by
  rw [pulseHalf, setRst_ok c d h, Attempt.done_andThen, pulseDelay_eq]
  refine ⟨_, rfl, ?_, by simp, by simp, ?_, ?_⟩
  · refine Touches.trans (es := [.rst d]) (fs := [.delay us]) (t := ({ s with
      env := { s.env with rst := { s.env.rst with script := rest } }, rst := d.toLevel }).emit c (.rst d)) ?_ ?_
    · constructor <;> simp [Panel.Follows.single]
    · exact (Touches.emit c _ _).trans (Touches.turn c _)
  · rw [RstDrawn, panelTurn_eq]
    simp
  · exact panelTurn_congr c (by simp) rfl

theorem setRst_ok_touches (c : Cfg) (d : RstDrive) {s : State} {rest : List PinDraw} (h : s.env.rst.script = .ok :: rest) :
    ∃ t, setRst c d s = .done t ∧ Touches c s t [.rst d] ∧ t.dc = s.dc ∧ t.rst = d.toLevel ∧ RstDrawn s t rest ∧
      t.panel = s.panel.react c (.rst d) ∧ t.env.finish = s.env.finish := by
  refine ⟨_, setRst_ok c d h, ?_, rfl, rfl, rfl, rfl, rfl⟩
  constructor <;> simp [Panel.Follows.single]

theorem setRst_fail_touches (c : Cfg) (d : RstDrive) {s : State} {rest : List PinDraw}
    (h : s.env.rst.script = .fail :: rest) : ∃ t, setRst c d s = .fault .rstOutput t ∧ Touches c s t [] ∧ t.dc = s.dc ∧
      t.rst = s.rst ∧ RstDrawn s t rest ∧ t.panel = s.panel ∧ t.env.finish = s.env.finish := by
  refine ⟨_, setRst_fail c d h, ?_, rfl, rfl, rfl, rfl, rfl⟩
  constructor <;> simp [Panel.Follows.nil]

namespace Panel

/-- The panel holds no open stream. -/
theorem endStream_endStream (p : Panel) : p.endStream.endStream = p.endStream := by
  unfold endStream
  cases hf : p.frame <;> simp [hf]

theorem endStream_of_frame {p q : Panel} (hf : p.frame = q.endStream.frame) : p.endStream = p := by
  unfold endStream at hf ⊢
  cases hq : q.frame <;> simp [hq] at hf <;> simp [hf]

/-- A write of the reset line at a defined panel (R255). -/
theorem react_rst (c : Cfg) (d : RstDrive) {p : Panel} (hu : p.undef = false) : p.react c (.rst d) = p.onRst d := by
  simp [react, hu]

end Panel

theorem panelTurn_undef (c : Cfg) (s : State) : (panelTurn c s).panel.undef = s.panel.undef := by
  rw [panelTurn_panel]
  split
  · exact Panel.finish_undef c _
  · rfl

theorem panelTurn_frame (c : Cfg) (s : State) : (panelTurn c s).panel.frame = s.panel.frame := by
  rw [panelTurn_panel]
  split
  · exact Panel.finish_frame c _
  · rfl

/-- The panel's turn neither reads nor writes the reset line. -/
theorem panelTurn_inReset (c : Cfg) (s : State) (b : Bool) :
    (panelTurn c { s with panel := { s.panel with inReset := b } }).panel =
        { (panelTurn c s).panel with inReset := b } ∧
      (panelTurn c { s with panel := { s.panel with inReset := b } }).env.finish = (panelTurn c s).env.finish := by
  refine ⟨?_, by rw [panelTurn_finish, panelTurn_finish]⟩
  rw [panelTurn_panel, panelTurn_panel]
  simp only [Panel.finish_inReset]
  split <;> rfl

/-- What the two halves of a pulse leave of a defined panel, for the states that O42 names. -/
structure PulsePanel (s between1 between2 : State) : Prop where
  eq1 : between1 = panelTurn Config.hw { s with
    panel := if s.panel.inReset then s.panel.endStream.woken else s.panel.endStream }
  eq2 : between2 = panelTurn Config.hw between1

section
variable {s between1 between2 x y : State} (h : PulsePanel s between1 between2)
include h

/-- After the first write and its delay. -/
theorem PulsePanel.half1 (hu : s.panel.undef = false)
    (hx : x.panel = (panelTurn Config.hw { s with panel := s.panel.react Config.hw (.rst .deasserted) }).panel)
    (hf : x.env.finish = (panelTurn Config.hw { s with panel := s.panel.react Config.hw (.rst .deasserted) }).env.finish) :
    x.panel = between1.panel ∧ x.env.finish = between1.env.finish := by
  have hreact : s.panel.react Config.hw (.rst .deasserted) =
      if s.panel.inReset then s.panel.endStream.woken else s.panel.endStream := Panel.react_rst _ _ hu
  rw [hx, hf, hreact, h.eq1]
  exact ⟨rfl, rfl⟩

/-- After the first delay the panel is defined and has no open stream. -/
theorem PulsePanel.between1_panel (hu : s.panel.undef = false) :
    between1.panel.undef = false ∧ between1.panel.endStream = between1.panel := by
  have hes : s.panel.endStream.undef = false := by unfold Panel.endStream; split <;> exact hu
  rw [h.eq1, panelTurn_undef]
  refine ⟨by cases s.panel.inReset <;> exact hes, Panel.endStream_of_frame (q := s.panel) ?_⟩
  rw [panelTurn_frame]
  cases s.panel.inReset <;> rfl

/-- After the second write and its delay: the chip is in reset. -/
theorem PulsePanel.half2 (hu : s.panel.undef = false) (hx : x.panel = between1.panel)
    (hf : x.env.finish = between1.env.finish)
    (hy : y.panel = (panelTurn Config.hw { x with panel := x.panel.react Config.hw (.rst .asserted) }).panel)
    (hyf : y.env.finish = (panelTurn Config.hw { x with panel := x.panel.react Config.hw (.rst .asserted) }).env.finish) :
    y.panel = { between2.panel with inReset := true } ∧ y.env.finish = between2.env.finish := by
  obtain ⟨hu1, hes⟩ := h.between1_panel hu
  have hreact : x.panel.react Config.hw (.rst .asserted) = { between1.panel with inReset := true } := by
    rw [hx, Panel.react_rst _ _ hu1, Panel.onRst, hes]
  obtain ⟨hp, hd⟩ := panelTurn_congr Config.hw (s := { x with panel := { between1.panel with inReset := true } })
    (t := { between1 with panel := { between1.panel with inReset := true } }) rfl hf
  obtain ⟨hp', hd'⟩ := panelTurn_inReset Config.hw between1 true
  rw [hy, hyf, hreact, hp, hd, hp', hd', h.eq2]
  exact ⟨rfl, rfl⟩

/-- After the last write: the chip is awake with its reset processing pending. -/
theorem PulsePanel.woken (hu : s.panel.undef = false) (hy : y.panel = { between2.panel with inReset := true }) :
    y.panel.react Config.hw (.rst .deasserted) = between2.panel.woken := by
  obtain ⟨hu1, hes⟩ := h.between1_panel hu
  have hu2 : between2.panel.undef = false := by rw [h.eq2, panelTurn_undef, hu1]
  have hes2 : ({ between2.panel with inReset := true } : Panel).endStream = { between2.panel with inReset := true } :=
    Panel.endStream_of_frame (q := between1.panel) (by rw [h.eq2, hes]; exact panelTurn_frame _ _)
  rw [hy, Panel.react_rst Config.hw .deasserted (p := { between2.panel with inReset := true }) hu2]
  simp only [Panel.onRst, hes2, if_true]
  rfl

end

/-- Where the step index stands at a reset pulse, the step is the end of the pulse and the panel's turn. -/
theorem step_of_hwReset {s : State} {d1 d2 : Nat} (hs : s.seq = .exec) (hst : s.steps[s.k]? = some (.hwReset d1 d2)) :
    step s = .next (panelTurn Config.hw (settle Config.hw (hwReset Config.hw d1 d2 s))) := by
  rw [step_eq]
  simp only [turn, hs, stepTurn, hst]

/-- Settles O42: the pulse by its two halves and its last write, each write succeeding or failing by the script. -/
theorem resetPulseEventsAndFaults : Obligations.ResetPulseEventsAndFaults := by
  intro s between1 between2 d1 d2 rest hs hst hb1 hb2
  have hpulse : PulsePanel s between1 between2 := ⟨hb1, hb2⟩
  have hstep := step_of_hwReset hs hst
  rw [hwReset_eq] at hstep
  refine ⟨fun hscript => ?_, fun hscript => ?_, fun hscript => ?_, fun hscript => ?_⟩
  · obtain ⟨x, ex, tx, dcx, -, vx, px, fx⟩ := pulseHalf_ok Config.hw .deasserted d1 hscript
    obtain ⟨y, ey, ty, dcy, -, vy, py, fy⟩ := pulseHalf_ok Config.hw .asserted d2 vx.script
    obtain ⟨z, ez, tz, dcz, rz, vz, pz, fz⟩ := setRst_ok_touches Config.hw .deasserted vy.script
    have touched := (tx.trans ty).trans tz
    rw [ex, Attempt.done_andThen, ey, Attempt.done_andThen, ez, settle_done] at hstep
    refine ⟨_, z.advance, hstep, rfl, (vx.trans vy).trans vz, fun hu => ?_, ?_, ?_, ?_, ?_, ?_⟩
    · obtain ⟨hx, hxf⟩ := hpulse.half1 hu px fx
      obtain ⟨hy, hyf⟩ := hpulse.half2 hu hx hxf py fy
      exact ⟨pz.trans (hpulse.woken hu hy), fz.trans hyf⟩
    · simpa [RstDrive.toLevel] using rz
    · simp [touched.k]
    · simp [touched.seq, hs]
    · simp [dcz, dcy, dcx]
    · simp [touched.trace]
  · obtain ⟨x, ex, tx, -, -, vx, px, fx⟩ := pulseHalf_ok Config.hw .deasserted d1 hscript
    obtain ⟨y, ey, ty, -, ry, vy, py, fy⟩ := pulseHalf_ok Config.hw .asserted d2 vx.script
    obtain ⟨z, ez, tz, -, rz, vz, pz, fz⟩ := setRst_fail_touches Config.hw .deasserted vy.script
    have touched := (tx.trans ty).trans tz
    rw [ex, Attempt.done_andThen, ey, Attempt.done_andThen, ez, settle_fault, abort_eq] at hstep
    refine ⟨_, _, hstep, rfl, (vx.trans vy).trans vz, fun hu => ?_, ?_, ?_, ?_, ?_⟩
    · obtain ⟨hx, hxf⟩ := hpulse.half1 hu px fx
      obtain ⟨hy, hyf⟩ := hpulse.half2 hu hx hxf py fy
      exact ⟨pz.trans hy, fz.trans hyf⟩
    · simp [rz, ry, RstDrive.toLevel]
    · simp
    · simp
    · simp [touched.trace, touched.k]
  · obtain ⟨x, ex, tx, -, rx, vx, px, fx⟩ := pulseHalf_ok Config.hw .deasserted d1 hscript
    have efail : pulseHalf Config.hw .asserted d2 x =
        (setRst Config.hw .asserted x).andThen (pulseDelay Config.hw d2) := rfl
    obtain ⟨y, ey, ty, -, ry, vy, py, fy⟩ := setRst_fail_touches Config.hw .asserted vx.script
    have touched := tx.trans ty
    rw [ex, Attempt.done_andThen, efail, ey, Attempt.fault_andThen, Attempt.fault_andThen, settle_fault, abort_eq] at hstep
    refine ⟨_, _, hstep, rfl, vx.trans vy, fun hu => ?_, ?_, ?_, ?_, ?_⟩
    · obtain ⟨hx, hxf⟩ := hpulse.half1 hu px fx
      exact ⟨py.trans hx, fy.trans hxf⟩
    · simp [ry, rx, RstDrive.toLevel]
    · simp
    · simp
    · simp [touched.trace, touched.k]
  · have efail : pulseHalf Config.hw .deasserted d1 s =
        (setRst Config.hw .deasserted s).andThen (pulseDelay Config.hw d1) := rfl
    rw [efail, setRst_fail Config.hw .deasserted hscript, Attempt.fault_andThen, Attempt.fault_andThen,
      Attempt.fault_andThen, settle_fault, abort_eq] at hstep
    exact ⟨_, _, hstep, rfl, rfl, rfl, by simp, by simp, by simp, by simp⟩

end Sys2Proof.Machine
end

section
/-! PROOFS. The panel at its edges (45_panel_reference_model.md): what leaves it undefined (R252, R254, R255, R267 to
R269), O54, and what finished processing leaves (R253, R255, R256, R263, R266), O55. -/

namespace Sys2Proof.Machine

namespace Panel

/-! ### Undefined behaviour -/

section
variable {c : Cfg} {p : Panel} {b : Byte} {bs : List Byte}

theorem onCmd_of_not_takesBytes (h : p.takesBytes = false) : p.onCmd c b = p.setUndef := by simp [onCmd, h]

theorem onData_of_not_takesBytes (h : p.takesBytes = false) : p.onData c bs = p.setUndef := by simp [onData, h]

theorem onCmd_of_expect {m : PanelCommand} {n : Nat} {got : List Byte} (h : p.frame = .expect m n got) :
    p.onCmd c b = p.setUndef := by
  simp [onCmd, h]

theorem onCmd_of_unknown (h : c.command? b = none) : p.onCmd c b = p.setUndef := by
  unfold onCmd
  split
  · rfl
  · cases p.frame <;> simp [h]

theorem onData_of_noFrame (h : p.frame = .noFrame) : p.onData c bs = p.setUndef := by simp [onData, h]

theorem onData_of_long {m : PanelCommand} {n : Nat} {got : List Byte} (h : p.frame = .expect m n got)
    (hn : n < bs.length) : p.onData c bs = p.setUndef := by
  have hlt : ¬ bs.length < n := by omega
  have hne : bs.length ≠ n := by omega
  simp [onData, h, hlt, hne]

/-- A command byte that is forbidden to a defined panel leaves any panel undefined and unknown throughout. -/
theorem react_cmd_forbidden (hi : p.Inv) (h : p.undef = false → p.onCmd c b = p.setUndef) :
    (p.react c (.cmd b)).undef = true ∧ (p.react c (.cmd b)).allUnknown := by
  cases hu : p.undef with
  | true =>
    have hkept : p.react c (.cmd b) = p := by simp [react, hu, onUndef]
    rw [hkept]
    exact ⟨hu, hi.undefUnknown hu⟩
  | false =>
    rw [react_cmd _ _ _ hu, h hu]
    exact ⟨rfl, setUndef_allUnknown p⟩

/-- Data bytes that are forbidden to a defined panel leave any panel undefined and unknown throughout. -/
theorem react_data_forbidden (hi : p.Inv) (h : p.undef = false → p.onData c bs = p.setUndef) :
    (p.react c (.data bs)).undef = true ∧ (p.react c (.data bs)).allUnknown := by
  cases hu : p.undef with
  | true =>
    have hkept : p.react c (.data bs) = p := by simp [react, hu, onUndef]
    rw [hkept]
    exact ⟨hu, hi.undefUnknown hu⟩
  | false =>
    rw [react_data _ _ _ hu, h hu]
    exact ⟨rfl, setUndef_allUnknown p⟩

theorem takesBytes_of_forbidding
    (h : p.busy = .known true ∨ p.inReset = true ∨ p.power = .known .deepSleep ∨ p.undef = true) :
    p.takesBytes = false := by
  rw [Bool.eq_false_iff, ne_eq, takesBytes_iff]
  rintro ⟨hu, hr, hb, hp⟩
  rcases h with h | h | h | h <;> simp_all

end

end Panel

/-- Settles O54: each reason a byte is forbidden, at the panel's reaction. -/
theorem forbiddenBytesLeaveThePanelUndefined : Obligations.ForbiddenBytesLeaveThePanelUndefined := by
  intro c p b bs hi
  refine ⟨fun h => ?_, fun h => ?_, fun h => ?_, fun m n got h hn => ?_, fun m n got h hn ht => ?_⟩
  · have htakes := Panel.takesBytes_of_forbidding h
    obtain ⟨hcmd, hcmd'⟩ := Panel.react_cmd_forbidden (c := c) (b := b) hi fun _ => Panel.onCmd_of_not_takesBytes htakes
    exact ⟨hcmd, hcmd', Panel.react_data_forbidden hi fun _ => Panel.onData_of_not_takesBytes htakes⟩
  · rcases h with h | ⟨m, n, got, h⟩
    · exact Panel.react_cmd_forbidden hi fun _ => Panel.onCmd_of_unknown h
    · exact Panel.react_cmd_forbidden hi fun _ => Panel.onCmd_of_expect h
  · exact Panel.react_data_forbidden hi fun _ => Panel.onData_of_noFrame h
  · exact Panel.react_data_forbidden hi fun _ => Panel.onData_of_long h hn
  · rw [Panel.react_data _ _ _ ((Panel.takesBytes_iff p).mp ht).1]
    simp [Panel.onData, ht, h, hn]

/-! ### Finished processing -/

namespace Panel

/-- The panel's finish by the effect pending (R253). -/
theorem finish_of_pending (c : Cfg) {p : Panel} {e : Effect} (h : p.pending = some e) :
    p.finish c = { p.applyEffect c e with busy := .known false, pending := none } := by
  simp [finish, h]

/-- The plane a finished fill leaves (R266). -/
theorem ram_finish_fill (c : Cfg) {p : Panel} {pl : Plane} {phase : Bool} (h : p.pending = some (.fill pl phase)) :
    (p.finish c).ram pl = if c.patFieldsCover then fillCells c phase else [] := by
  rw [finish_of_pending c h]
  cases pl <;> rfl

/-- A finished fill (R266). -/
theorem finish_fill (c : Cfg) {p : Panel} {pl : Plane} {phase : Bool} (h : p.pending = some (.fill pl phase)) :
    p.finish c = { p.setRam pl ((p.finish c).ram pl) with
      wxs := .unknown, wxe := .unknown, wys := .unknown, wye := .unknown, xc := .unknown, yc := .unknown,
      busy := .known false, pending := none } := by
  rw [ram_finish_fill c h, finish_of_pending c h]
  cases pl <;> rfl

/-- A finished activation shows the image (R263). -/
theorem finish_display (c : Cfg) {p : Panel} (h : p.pending = some .display) :
    p.finish c = { p with shown := p.image c, busy := .known false, pending := none } :=
  finish_of_pending c h

end Panel

/-- Settles O55: the idle sample is the finish; then the finish by the effect pending. -/
theorem finishedProcessingTakesEffect : Obligations.FinishedProcessingTakesEffect := by
  refine ⟨fun c p hu hb => ?_, fun c p hp => ?_, fun c p pl phase hc hp => ⟨Panel.finish_fill c hp, fun g y => ?_⟩,
    fun c p hp => ⟨by rw [Panel.finish_display c hp], fun x y hx hy => ?_⟩⟩
  · simp [Panel.react_sample c _ hu, Panel.onSample, hb]
  · rcases hp with hp | hp <;> exact Panel.finish_of_pending c hp
  · rw [Panel.ram_finish_fill c hp]
    cases hcover : c.patFieldsCover with
    | false => simp; rfl
    | true => simpa using Panel.read_fillCells_cell c (bounds_of_legal hc).2.1 phase g y
  · rw [Panel.finish_display c hp]
    show Sparse.read (p.image c) _ = _
    rw [Panel.read_image c p hx hy, Panel.pixelShown]
    simp only [bitPos_eq, Nat.shiftRight_eq_div_pow]
    cases Sparse.read p.ramBw (y * 32 + x / 8) with
    | unknown => rfl
    | known a =>
      cases Sparse.read p.ramRed (y * 32 + x / 8) with
      | unknown => rfl
      | known r => by_cases huc : p.uc1 = .known (c.uc1Payload0, c.uc1Payload1) <;> simp [huc]

end Sys2Proof.Machine
end

section
/-! PROOFS. The panel over the events of whole operations (45_panel_reference_model.md R270): O56 to O59. What an upload,
a fill, a refresh and an initialization leave is said once for each, at any panel that takes bytes. -/

namespace Sys2Proof.Machine

/-! ### Windows on the panel, in numbers -/

/-- The window covers `G` column groups from `g0` and `R` rows from `y0`, all on the panel. -/
structure Covers (c : Cfg) (win : Win) (g0 G y0 R : Nat) : Prop where
  left : win.xs.toNat / 8 = g0
  right : win.xe.toNat / 8 + 1 = g0 + G
  top : win.ys.toNat = y0
  bottom : win.ye.toNat + 1 = y0 + R
  posGroups : 0 < G
  posRows : 0 < R
  inWidth : g0 + G ≤ stride c
  inHeight : y0 + R ≤ c.H

theorem covers_fullWindow {c : Cfg} (hc : c.legal = true) : Covers c (fullWindow c) 0 (stride c) 0 c.H := by
  have := bounds_of_legal hc
  have hs := stride_eq c
  have hxe := toNat_fullWindow_xe hc
  have hye := toNat_fullWindow_ye hc
  have hxs : (fullWindow c).xs.toNat = 0 := rfl
  exact ⟨by omega, by omega, rfl, by omega, by omega, by omega, by omega, by omega⟩

theorem covers_partialWindow {c : Cfg} {x y w h : U32} (hc : c.legal = true) (hw : windowLegal c x y w h = true)
    (ha : aligned8 x w = true) : Covers c (partialWindow x y w h) (x.toNat / 8) (w.toNat / 8) y.toNat h.toNat := by
  have := bounds_of_legal hc
  have := (windowLegal_iff c x y w h).mp hw
  have := (aligned8_iff x w).mp ha
  have hs := stride_eq c
  have hxe := toNat_partialWindow_xe hc hw
  have hye := toNat_partialWindow_ye hc hw
  exact ⟨rfl, by omega, rfl, by omega, by omega, by omega, by omega, by omega⟩

section
variable {c : Cfg} {win : Win} {g0 G y0 R : Nat}

/-- The ends of a window as the chip holds them. -/
theorem Covers.toNat_ends (hw : Covers c win g0 G y0 R) (hc : c.legal = true) :
    (groupOf win.xs).toNat = g0 ∧ (groupOf win.xe).toNat + 1 = g0 + G ∧ (rowOf win.ys).toNat = y0 ∧
      (rowOf win.ye).toNat + 1 = y0 + R := by
  have := bounds_of_legal hc
  have := stride_eq c
  obtain ⟨hl, hr, ht, hb, _, _, _, _⟩ := hw
  simp only [groupOf, rowOf, BitVec.toNat_ofNat]
  omega

/-- The window as the stream's cells count it. -/
theorem Covers.window (hw : Covers c win g0 G y0 R) (hc : c.legal = true) :
    winGroups (groupOf win.xs) (groupOf win.xe) = G ∧ winRows (rowOf win.ys) (rowOf win.ye) = R ∧
      groupOf win.xs ≤ groupOf win.xe ∧ rowOf win.ys ≤ rowOf win.ye := by
  obtain ⟨hxs, hxe, hys, hye⟩ := hw.toNat_ends hc
  have := hw.posGroups
  have := hw.posRows
  rw [BitVec.le_def, BitVec.le_def, winGroups, winRows]
  omega

/-- The `i`-th cell of the window. -/
theorem Covers.toNat_cell (hw : Covers c win g0 G y0 R) (hc : c.legal = true) {i : Nat} (hi : i < R * G) :
    (cellX (groupOf win.xs) (groupOf win.xe) i).toNat = g0 + i % G ∧
      (cellY (groupOf win.xs) (groupOf win.xe) (rowOf win.ys) i).toNat = y0 + i / G := by
  obtain ⟨hxs, -, hys, -⟩ := hw.toNat_ends hc
  obtain ⟨hG, hR, hxle, hyle⟩ := hw.window hc
  have hrow := cellRow_le_511 hyle (i := i) (by rw [hG, hR, Nat.mul_comm]; exact hi)
  rw [toNat_cellX hxle, toNat_cellY hrow, hxs, hys, hG]
  exact ⟨rfl, rfl⟩

/-- Row and column of a row-major position. -/
theorem rowMajor_divMod {i j : Nat} (hi : i < R) (hj : j < G) :
    i * G + j < R * G ∧ (i * G + j) % G = j ∧ (i * G + j) / G = i := by
  refine ⟨?_, by rw [Nat.mul_comm, Nat.mul_add_mod, Nat.mod_eq_of_lt hj],
    by rw [Nat.mul_comm, Nat.mul_add_div (by omega), Nat.div_eq_of_lt hj, Nat.add_zero]⟩
  calc i * G + j < i * G + G := by omega
    _ = (i + 1) * G := by ring
    _ ≤ R * G := Nat.mul_le_mul_right _ hi

end

/-! ### One region (R205) -/

namespace Panel

/-- What an upload of a region keeps, and the window it leaves. -/
structure KeptBut (pl : Plane) (p q : Panel) : Prop where
  takes : q.takesBytes = true
  quiet : q.Quiet
  dem : q.dem = p.dem
  uc1 : q.uc1 = p.uc1
  other : ∀ pl', pl' ≠ pl → q.ram pl' = p.ram pl'

section
variable {c : Cfg} {p : Panel} {win : Win} (pl : Plane) (bs : List Byte)

/-- The panel before the stream of a region. -/
def atRegion (pl : Plane) (win : Win) (p : Panel) : Panel :=
  { p with
    wxs := .known (groupOf win.xs), wxe := .known (groupOf win.xe), wys := .known (rowOf win.ys),
    wye := .known (rowOf win.ye), xc := .known (groupOf win.xs), yc := .known (rowOf win.ys), frame := .stream pl }

theorem uploadRegion_keeps (hc : c.legal = true) (ht : p.takesBytes = true) (hf : p.Quiet) :
    KeptBut pl p (p.reactAll c (okEvents (uploadRegion c pl bs win))) := by
  rw [reactAll_uploadRegion pl bs win hc ht hf, writeStream_changes]
  cases pl with
  | bw => exact ⟨ht, fun _ _ _ => nofun, rfl, rfl, fun | .bw, h => absurd rfl h | .red, _ => rfl⟩
  | red => exact ⟨ht, fun _ _ _ => nofun, rfl, rfl, fun | .bw, _ => rfl | .red, h => absurd rfl h⟩

theorem uploadRegion_window (hc : c.legal = true) (ht : p.takesBytes = true) (hf : p.Quiet)
    (hd : p.dem = .known c.demPayload) : HasWindow c (p.reactAll c (okEvents (uploadRegion c pl bs win)))
      (groupOf win.xs) (groupOf win.xe) (rowOf win.ys) (rowOf win.ye) := by
  rw [reactAll_uploadRegion pl bs win hc ht hf]
  exact HasWindow.writeStream (p := p.atRegion pl win) ⟨hd, rfl, rfl, rfl, rfl⟩ pl bs

section
variable {g0 G y0 R : Nat} (hw : Covers c win g0 G y0 R) (hc : c.legal = true) (hd : p.dem = .known c.demPayload)
include hw hc hd

theorem atRegion_atOrigin : AtOrigin c (p.atRegion pl win) (groupOf win.xs) (groupOf win.xe) (rowOf win.ys)
    (rowOf win.ye) := by
  obtain ⟨-, -, hxle, hyle⟩ := hw.window hc
  exact ⟨⟨hd, rfl, rfl, rfl, rfl⟩, rfl, rfl, hxle, hyle⟩

section
variable (ht : p.takesBytes = true) (hf : p.Quiet) (hl : bs.length = R * G)
include ht hf hl

/-- After an upload of a region on the panel, the region holds the buffer row by row. -/
theorem read_uploadRegion {i j : Nat} (hi : i < R) (hj : j < G) : ∃ b, bs[i * G + j]? = some b ∧
    ((p.reactAll c (okEvents (uploadRegion c pl bs win))).ram pl).read (BitVec.ofNat 5 (g0 + j))
      (BitVec.ofNat 9 (y0 + i)) = .known b := by
  obtain ⟨hG, hR, -, -⟩ := hw.window hc
  obtain ⟨hlt, hmod, hdiv⟩ := rowMajor_divMod hi hj
  obtain ⟨hX, hY⟩ := hw.toNat_cell hc hlt
  rw [hmod] at hX
  rw [hdiv] at hY
  have hcx : BitVec.ofNat 5 (g0 + j) = cellX (groupOf win.xs) (groupOf win.xe) (i * G + j) := by rw [← hX]; simp
  have hcy : BitVec.ofNat 9 (y0 + i) = cellY (groupOf win.xs) (groupOf win.xe) (rowOf win.ys) (i * G + j) := by
    rw [← hY]; simp
  have hget := List.getElem?_eq_getElem (hl ▸ hlt)
  have hwidth := hw.inWidth
  have hheight := hw.inHeight
  refine ⟨_, hget, ?_⟩
  rw [reactAll_uploadRegion pl bs win hc ht hf, hcx, hcy]
  exact (read_writeStream_cell (atRegion_atOrigin pl hw hc hd) pl (by rw [hG, hR, hl, Nat.mul_comm]) hget).trans
    (cellValue_onPanel _ (by omega) (by omega))

/-- Outside the region the plane reads as before. -/
theorem read_uploadRegion_outside {gx : BitVec 5} {gy : BitVec 9}
    (hout : gx.toNat < g0 ∨ g0 + G ≤ gx.toNat ∨ gy.toNat < y0 ∨ y0 + R ≤ gy.toNat) :
    ((p.reactAll c (okEvents (uploadRegion c pl bs win))).ram pl).read gx gy = (p.ram pl).read gx gy := by
  obtain ⟨hG, hR, -, -⟩ := hw.window hc
  rw [reactAll_uploadRegion pl bs win hc ht hf]
  refine (read_writeStream_other (atRegion_atOrigin pl hw hc hd) pl (by rw [hG, hR, hl, Nat.mul_comm])
    fun i hi hsame => ?_).trans (by cases pl <;> rfl)
  rw [hl] at hi
  obtain ⟨hX, hY⟩ := hw.toNat_cell hc hi
  have hrow : i / G < R := Nat.div_lt_of_lt_mul (by rw [Nat.mul_comm]; exact hi)
  have hrow0 := Nat.zero_le (i / G)
  have hcol := Nat.mod_lt i hw.posGroups
  rw [← hsame.1] at hX
  rw [← hsame.2] at hY
  omega

end
end
end

/-- A panel whose window is the full one. -/
theorem HasWindow.full {c : Cfg} {p : Panel} (hc : c.legal = true) (h : HasWindow c p (groupOf (fullWindow c).xs)
    (groupOf (fullWindow c).xe) (rowOf (fullWindow c).ys) (rowOf (fullWindow c).ye)) : p.windowFull c := by
  obtain ⟨-, hxs, hxe, hys, hye⟩ := h
  rw [groupOf, toNat_fullWindow_xe hc] at hxe
  rw [rowOf, toNat_fullWindow_ye hc] at hye
  have hgroup0 : groupOf (fullWindow c).xs = 0 := by
    have hxs : (fullWindow c).xs.toNat = 0 := rfl
    rw [groupOf, hxs]
    rfl
  have hrow0 : rowOf (fullWindow c).ys = 0 := rfl
  exact ⟨hgroup0 ▸ hxs, hxe, hrow0 ▸ hys, hye⟩

end Panel

/-! ### Full-frame and partial uploads -/

/-- Cells that hold the bytes of a full-frame buffer hold its pixels (R264). -/
theorem pixel_of_cells {c : Cfg} {buf : List Byte} {m : Memory} (hl : buf.length = bufLen c)
    (hcells : ∀ g y, g < stride c → y < c.H →
      ∃ b, buf[y * stride c + g]? = some b ∧ m.read (BitVec.ofNat 5 g) (BitVec.ofNat 9 y) = .known b)
    {x y : Nat} (hx : x < c.W) (hy : y < c.H) :
    ∃ b, m.read (BitVec.ofNat 5 (x / 8)) (BitVec.ofNat 9 y) = .known b ∧
      pixelBit c buf x y = some (b.getLsbD (7 - x % 8)) := by
  have hs := stride_eq c
  obtain ⟨b, hb, hread⟩ := hcells (x / 8) y (by omega) hy
  obtain ⟨b', hb', hbit⟩ := pixelBit_of_length hx hy hl
  rw [byteIndex_eq, hb, Option.some.injEq] at hb'
  exact ⟨b, hread, hb' ▸ hbit⟩

section
variable {c : Cfg} {p : Panel} (hc : c.legal = true) (ht : p.takesBytes = true) (hf : p.Quiet)
  (hd : p.dem = .known c.demPayload)
include hc ht hf hd

/-- R270(b), and what of the panel the next request needs. -/
theorem Panel.reactAll_uploadColorFrame {bw red : List Byte} (hbw : bw.length = bufLen c) (hred : red.length = bufLen c) :
    (p.reactAll c (okEvents (uploadColorFrameSteps c bw red))).holdsFrame c bw red ∧
      (p.reactAll c (okEvents (uploadColorFrameSteps c bw red))).takesBytes = true ∧
      (p.reactAll c (okEvents (uploadColorFrameSteps c bw red))).Quiet ∧
      (p.reactAll c (okEvents (uploadColorFrameSteps c bw red))).dem = p.dem ∧
      (p.reactAll c (okEvents (uploadColorFrameSteps c bw red))).uc1 = p.uc1 := by
  have hcov := covers_fullWindow hc
  have hlen : bufLen c = c.H * stride c := Nat.mul_comm _ _
  have hkept := Panel.uploadRegion_keeps (win := fullWindow c) .bw bw hc ht hf
  have hcells := fun y hy g hg =>
    Panel.read_uploadRegion .bw bw hcov hc hd ht hf (hbw.trans hlen) (i := y) (j := g) hy hg
  simp only [uploadColorFrameSteps, okEvents_append, Panel.reactAll_append]
  generalize p.reactAll c (okEvents (uploadRegion c .bw bw (fullWindow c))) = q at hkept hcells ⊢
  have hkept' := Panel.uploadRegion_keeps (win := fullWindow c) .red red hc hkept.takes hkept.quiet
  have hcells' := fun y hy g hg => Panel.read_uploadRegion .red red hcov hc (hkept.dem.trans hd) hkept.takes hkept.quiet
    (hred.trans hlen) (i := y) (j := g) hy hg
  have hwin := Panel.uploadRegion_window (win := fullWindow c) .red red hc hkept.takes hkept.quiet (hkept.dem.trans hd)
  generalize q.reactAll c (okEvents (uploadRegion c .red red (fullWindow c))) = r at hkept' hcells' hwin ⊢
  have hplane : r.ramBw = q.ramBw := hkept'.other .bw nofun
  have hbwCells : ∀ g y, g < stride c → y < c.H → ∃ b, bw[y * stride c + g]? = some b ∧
      r.ramBw.read (BitVec.ofNat 5 g) (BitVec.ofNat 9 y) = .known b := by
    intro g y hg hy
    rw [hplane]
    simpa [Panel.ram] using hcells y hy g hg
  have hredCells : ∀ g y, g < stride c → y < c.H → ∃ b, red[y * stride c + g]? = some b ∧
      r.ramRed.read (BitVec.ofNat 5 g) (BitVec.ofNat 9 y) = .known b := by
    intro g y hg hy
    simpa [Panel.ram] using hcells' y hy g hg
  exact ⟨⟨fun g y hg hy => ⟨hbwCells g y hg hy, hredCells g y hg hy⟩,
    fun x y hx hy => ⟨pixel_of_cells hbw hbwCells hx hy, pixel_of_cells hred hredCells hx hy⟩, hwin.full hc⟩,
    hkept'.takes, hkept'.quiet, hkept'.dem.trans hkept.dem, hkept'.uc1.trans hkept.uc1⟩

/-- R270(c), and what of the panel the next request needs; the region's part for an aligned legal window. -/
theorem Panel.reactAll_uploadPartial (bw : List Byte) (x y w h : U32) :
    (windowLegal c x y w h = true → aligned8 x w = true → bw.length = capacity (partialWindow x y w h) →
      (p.reactAll c (okEvents (uploadPartialSteps c bw x y w h))).holdsRegion c bw x y w h p) ∧
      (p.reactAll c (okEvents (uploadPartialSteps c bw x y w h))).takesBytes = true ∧
      (p.reactAll c (okEvents (uploadPartialSteps c bw x y w h))).Quiet ∧
      (p.reactAll c (okEvents (uploadPartialSteps c bw x y w h))).dem = p.dem ∧
      (p.reactAll c (okEvents (uploadPartialSteps c bw x y w h))).uc1 = p.uc1 := by
  have hkept := Panel.uploadRegion_keeps (win := partialWindow x y w h) .bw bw hc ht hf
  have hlen : windowLegal c x y w h = true → aligned8 x w = true → bw.length = capacity (partialWindow x y w h) →
      bw.length = h.toNat * (w.toNat / 8) := fun hlegal ha hl => by
    rw [hl, capacity, groups_partialWindow hc hlegal ha, rows_partialWindow hc hlegal, Nat.mul_comm]
  have hin := fun hlegal ha hl i j hi hj => Panel.read_uploadRegion .bw bw (covers_partialWindow hc hlegal ha) hc hd ht hf
    (hlen hlegal ha hl) (i := i) (j := j) hi hj
  have hout := fun hlegal ha hl gx gy hgxy => Panel.read_uploadRegion_outside .bw bw (covers_partialWindow hc hlegal ha) hc
    hd ht hf (hlen hlegal ha hl) (gx := gx) (gy := gy) hgxy
  simp only [uploadPartialSteps, okEvents_append, Panel.reactAll_append]
  generalize p.reactAll c (okEvents (uploadRegion c .bw bw (partialWindow x y w h))) = q at hkept hin hout ⊢
  rw [reactAll_setWindow _ hc hkept.takes hkept.quiet]
  refine ⟨fun hlegal ha hl => ?_, hkept.takes, fun _ _ _ => nofun, hkept.dem, hkept.uc1⟩
  exact ⟨hin hlegal ha hl, hout hlegal ha hl, hkept.other .red nofun, Panel.HasWindow.full hc ⟨hkept.dem.trans hd, rfl, rfl, rfl, rfl⟩⟩

end

/-- Settles O57. -/
theorem colorFrameUploadRoundTrips : Obligations.ColorFrameUploadRoundTrips :=
  fun _ _ _ _ _ hc ht hd hf hbw hred => (Panel.reactAll_uploadColorFrame hc ht hf hd hbw hred).1

/-- Settles O58. -/
theorem partialUploadRoundTrips : Obligations.PartialUploadRoundTrips :=
  fun _ _ _ bw x y w h hc ht hd hf hlegal ha hl =>
    (Panel.reactAll_uploadPartial hc ht hf hd bw x y w h).1 hlegal ha hl

end Sys2Proof.Machine
end

section
/-! PROOFS. The panel over the events of INIT, CLEAR and REFRESH (45_panel_reference_model.md R270(a), (d), (e)): O56 and
O59. -/

namespace Sys2Proof.Machine

/-! ### Frames without a payload, and waits -/

/-- A frame that is its code byte only, sent whole. -/
theorem reactAll_code {c : Cfg} {p : Panel} {m : PanelCommand} (hc : c.legal = true) (ht : p.takesBytes = true)
    (hf : p.Quiet) (hs : m.shape = .fixed 0) :
    p.reactAll c (okEvents (frame c m [])) = Panel.runAtCode m { p with frame := .noFrame } := by
  have hfr : frame c m [] = [.cmd (c.code m)] := by simp [frame, hs]
  rw [hfr]
  simp only [okEvents, List.flatMap_cons, Step.okEvents, List.flatMap_nil, List.append_nil, Panel.reactAll_cons,
    Panel.reactAll_nil]
  rw [Panel.react_code ht hf (Cfg.command?_code hc m), hs]

/-- The wait for a processing effect is its finish (R253, log 5). -/
theorem reactAll_wait (c : Cfg) (e : Effect) {p : Panel} (hu : p.undef = false) :
    (p.startProcessing e).reactAll c (okEvents [.wait]) = (p.startProcessing e).finish c := by
  have hev : okEvents [.wait] = [.busySample .idle] := rfl
  have hb : (p.startProcessing e).busy = .known true := rfl
  rw [hev, Panel.reactAll_cons, Panel.reactAll_nil, Panel.react_sample c _ (p := p.startProcessing e) hu, Panel.onSample,
    if_pos hb]

theorem Panel.quiet_of_noFrame {p : Panel} (h : p.frame = .noFrame) : p.Quiet := by
  intro m n got
  rw [h]
  nofun

section
variable {c : Cfg} {p : Panel} (hc : c.legal = true) (ht : p.takesBytes = true) (hf : p.Quiet)
include hc ht hf

/-! ### Fills (R266) and the refresh (R263) -/

/-- A command that processes, and its wait. -/
theorem reactAll_processing {m : PanelCommand} {e : Effect} (hs : m.shape = .fixed 0)
    (hrun : ∀ q : Panel, Panel.runAtCode m q = q.startProcessing e) :
    p.reactAll c (okEvents (frame c m [] ++ [.wait])) =
      Panel.finish c (Panel.startProcessing e { p with frame := .noFrame }) := by
  rw [okEvents_append, Panel.reactAll_append, reactAll_code hc ht hf hs, hrun,
    reactAll_wait c e (p := { p with frame := .noFrame }) ((Panel.takesBytes_iff p).mp ht).1]

/-- A pattern fill and its wait. -/
theorem reactAll_pattern {m : PanelCommand} (pl : Plane) (phase : Bool) (hs : m.shape = .fixed 1)
    (hrun : ∀ (p0 : Byte) (q : Panel), Panel.runCommand c m [p0] q = q.startProcessing (.fill pl (patPhase c p0))) :
    p.reactAll c (okEvents (frame c m [patPayload c phase] ++ [.wait])) =
      { p.setRam pl (if c.patFieldsCover then Panel.fillCells c phase else []) with
        wxs := .unknown, wxe := .unknown, wys := .unknown, wye := .unknown, xc := .unknown, yc := .unknown,
        frame := .noFrame, busy := .known false, pending := none } := by
  have hphase : patPhase c (patPayload c phase) = phase := patPayload_bits hc phase
  rw [okEvents_append, Panel.reactAll_append, reactAll_frame hc ht hf hs rfl, hrun, hphase,
    reactAll_wait c _ (p := { p with frame := .noFrame }) ((Panel.takesBytes_iff p).mp ht).1]
  cases pl <;> rfl

/-- The fill of both planes by CLEAR (R216). -/
theorem reactAll_clear (bg : Color) : p.reactAll c (okEvents (clearSteps c bg)) =
    { p with
      ramBw := if c.patFieldsCover then Panel.fillCells c (clearPhases bg).1 else []
      ramRed := if c.patFieldsCover then Panel.fillCells c (clearPhases bg).2 else []
      wxs := .unknown, wxe := .unknown, wys := .unknown, wye := .unknown, xc := .unknown, yc := .unknown,
      frame := .noFrame, busy := .known false, pending := none } := by
  obtain ⟨hu, hr, -, hp⟩ := (Panel.takesBytes_iff p).mp ht
  have hsplit : clearSteps c bg = (frame c .patternBw [patPayload c (clearPhases bg).1] ++ [.wait]) ++
      (frame c .patternRed [patPayload c (clearPhases bg).2] ++ [.wait]) := by simp only [clearSteps, List.append_assoc]
  rw [hsplit, okEvents_append, Panel.reactAll_append, reactAll_pattern hc ht hf .bw _ rfl fun _ _ => rfl,
    reactAll_pattern hc _ _ .red _ rfl fun _ _ => rfl]
  · rfl
  · exact (Panel.takesBytes_iff _).mpr ⟨hu, hr, rfl, hp⟩
  · exact Panel.quiet_of_noFrame rfl

/-- The refresh and its wait (R211). -/
theorem reactAll_refresh : p.reactAll c (okEvents (refreshSteps c)) =
    { p with shown := p.image c, frame := .noFrame, busy := .known false, pending := none } :=
  reactAll_processing (m := .masterActivation) (e := .display) hc ht hf rfl fun _ => rfl

end

/-- A shown image of a filled panel has the fill's colour everywhere (R270(d)). -/
theorem Panel.showsColor_of_fill {c : Cfg} (hc : c.legal = true) (hcover : c.patFieldsCover = true) {p : Panel}
    (col : Color) (huc : p.uc1 = .known (c.uc1Payload0, c.uc1Payload1))
    (hbw : p.ramBw = if c.patFieldsCover then Panel.fillCells c (clearPhases col).1 else [])
    (hred : p.ramRed = if c.patFieldsCover then Panel.fillCells c (clearPhases col).2 else [])
    {q : Panel} (hq : q.shown = p.image c) : q.showsColor c col := by
  intro x y hx hy
  have hW := (bounds_of_legal hc).2.1
  rw [if_pos hcover] at hbw hred
  have hbit : (7 - x % 8) < 8 := by omega
  rw [hq, Panel.read_image c p hx hy, Panel.pixelShown, hbw, hred, Panel.read_fillCells c hW _ hx hy,
    Panel.read_fillCells c hW _ hx hy, bitPos_eq]
  simp only [huc, if_true]
  have hfill : ∀ phase : Bool, (if phase then (0xFF : Byte) else 0x00).getLsbD (7 - x % 8) = phase := by
    intro phase
    cases phase
    · exact BitVec.getLsbD_zero
    · rw [if_pos rfl, show (0xFF : Byte) = BitVec.allOnes 8 from rfl, BitVec.getLsbD_allOnes, decide_eq_true hbit]
  rw [hfill, hfill]
  cases col <;> rfl

/-- A shown image of the panel's own RAM (R270(e)). -/
theorem Panel.showsRam_of_image {c : Cfg} (hc : c.legal = true) {p q : Panel}
    (huc : p.uc1 = .known (c.uc1Payload0, c.uc1Payload1)) (hbw : q.ramBw = p.ramBw) (hred : q.ramRed = p.ramRed)
    (hq : q.shown = p.image c) : q.showsRam c := by
  intro x y a r hx hy ha hr
  have := bounds_of_legal hc
  have hkey : ramKey (BitVec.ofNat 5 (x / 8)) (BitVec.ofNat 9 y) = y * 32 + x >>> 3 := by
    rw [ramKey, BitVec.toNat_ofNat, BitVec.toNat_ofNat, Nat.shiftRight_eq_div_pow]
    omega
  rw [Memory.read, hkey, hbw] at ha
  rw [Memory.read, hkey, hred] at hr
  rw [hq, Panel.read_image c p hx hy, Panel.pixelShown, ha, hr, bitPos_eq]
  simp only [huc, if_true]

/-- Settles O59. -/
theorem clearThenRefreshShowsTheBackground : Obligations.ClearThenRefreshShowsTheBackground := by
  intro c p col hc hcover ht hf huc
  obtain ⟨hu, hr, -, hp⟩ := (Panel.takesBytes_iff p).mp ht
  simp only [stepList, okEvents_append, Panel.reactAll_append]
  have hclear := reactAll_clear hc ht hf col
  generalize p.reactAll c (okEvents (clearSteps c col)) = q at hclear ⊢
  have htakes : q.takesBytes = true := by rw [hclear]; exact (Panel.takesBytes_iff _).mpr ⟨hu, hr, rfl, hp⟩
  rw [reactAll_refresh hc htakes (Panel.quiet_of_noFrame (by rw [hclear]))]
  exact Panel.showsColor_of_fill (p := q) hc hcover col (by rw [hclear]; exact huc) (by rw [hclear]) (by rw [hclear]) rfl

/-! ### The initialization (R204) -/

/-- The steps of INIT after its reset pulse and the wait for it. -/
def configSteps (c : Cfg) : List Step :=
  frame c .swReset [] ++ [.wait] ++ frame c .dataEntryMode [c.demPayload] ++ setWindow c (fullWindow c) ++
    frame c .updateControl1 [c.uc1Payload0, c.uc1Payload1] ++ setCursor c 0 0

theorem initSteps_eq (c : Cfg) :
    initSteps c = .hwReset c.resetInitialDelayUs c.resetPulseUs :: .wait :: configSteps c := by
  simp only [initSteps, configSteps, List.append_assoc]
  rfl

namespace Panel

/-- The panel after the software reset and the configuration of INIT. -/
def configured (c : Cfg) (p : Panel) : Panel :=
  { p.forgetRegisters.forgetRam with
    dem := .known c.demPayload, uc1 := .known (c.uc1Payload0, c.uc1Payload1),
    wxs := .known (groupOf (fullWindow c).xs), wxe := .known (groupOf (fullWindow c).xe),
    wys := .known (rowOf (fullWindow c).ys), wye := .known (rowOf (fullWindow c).ye),
    xc := .known (groupOf 0), yc := .known (rowOf 0), frame := .noFrame, busy := .known false, pending := none }

theorem reactAll_configSteps {c : Cfg} {p : Panel} (hc : c.legal = true) (ht : p.takesBytes = true) (hf : p.Quiet) :
    p.reactAll c (okEvents (configSteps c)) = p.configured c := by
  obtain ⟨hu, hr, hb, hp⟩ := (takesBytes_iff p).mp ht
  rw [configSteps, okEvents_append, okEvents_append, okEvents_append, okEvents_append, reactAll_append, reactAll_append,
    reactAll_append, reactAll_append,
    reactAll_processing (m := .swReset) (e := .swResetDone) hc ht hf rfl fun _ => rfl,
    reactAll_frame (m := .dataEntryMode) (n := 0) hc, reactAll_setWindow _ hc,
    reactAll_frame (m := .updateControl1) (n := 1) hc, reactAll_setCursor _ _ hc]
  exacts [rfl, (takesBytes_iff _).mpr ⟨hu, hr, rfl, hp⟩, quiet_of_noFrame rfl,
    (takesBytes_iff _).mpr ⟨hu, hr, rfl, hp⟩, quiet_of_noFrame rfl, rfl, rfl,
    (takesBytes_iff _).mpr ⟨hu, hr, rfl, hp⟩, quiet_of_noFrame rfl,
    (takesBytes_iff _).mpr ⟨hu, hr, rfl, hp⟩, quiet_of_noFrame rfl, rfl, rfl]

theorem shown_configured (c : Cfg) (p : Panel) : (p.configured c).shown = p.shown := rfl

theorem takesBytes_configured {c : Cfg} {p : Panel} (ht : p.takesBytes = true) : (p.configured c).takesBytes = true := by
  obtain ⟨hu, hr, -, hp⟩ := (takesBytes_iff p).mp ht
  exact (takesBytes_iff _).mpr ⟨hu, hr, rfl, hp⟩

/-- R270(a) of the configured panel. -/
theorem initialized_configured {c : Cfg} {p : Panel} (hc : c.legal = true) (ht : p.takesBytes = true) :
    (p.configured c).initialized c :=
  ⟨((takesBytes_iff p).mp ht).2.2.2, rfl, HasWindow.full hc ⟨rfl, rfl, rfl, rfl, rfl⟩, rfl, rfl, rfl⟩

/-- A defined panel just woken by the deassert that ends a reset pulse, with no frame open (R255). -/
structure Waking (p : Panel) : Prop where
  defined : p.undef = false
  released : p.inReset = false
  awake : p.power = .known .awake
  busy : p.busy = .known true
  pending : p.pending = some .resetDone
  quiet : p.Quiet

/-- The wait after the pulse at a waking panel. -/
theorem Waking.finished (c : Cfg) {p : Panel} (h : p.Waking) : p.react c (.busySample .idle) = p.finish c ∧
    (p.finish c).takesBytes = true ∧ (p.finish c).Quiet ∧ (p.finish c).shown = p.shown := by
  have hfin := finish_of_pending c h.pending
  refine ⟨by rw [react_sample c _ h.defined, onSample, if_pos h.busy], ?_, ?_, ?_⟩
  · rw [hfin]
    exact (takesBytes_iff _).mpr ⟨h.defined, h.released, rfl, h.awake⟩
  · rw [hfin]
    exact h.quiet
  · rw [hfin]
    rfl

/-- What INIT leaves after its pulse. -/
theorem Waking.reactAll {c : Cfg} {p : Panel} (hc : c.legal = true) (h : p.Waking) :
    p.reactAll c (okEvents (.wait :: configSteps c)) = (p.finish c).configured c := by
  obtain ⟨hreact, htakes, hquiet, -⟩ := h.finished c
  have hev : okEvents (.wait :: configSteps c) = .busySample .idle :: okEvents (configSteps c) := rfl
  rw [hev, reactAll_cons, hreact, reactAll_configSteps hc htakes hquiet]

/-- A write of the reset line opens no frame, and neither shows nor undefines anything. -/
theorem onRst_keeps {p : Panel} (d : RstDrive) (hf : p.Quiet) :
    (p.onRst d).undef = p.undef ∧ (p.onRst d).Quiet ∧ (p.onRst d).shown = p.shown := by
  have hend : p.endStream.undef = p.undef ∧ p.endStream.Quiet ∧ p.endStream.shown = p.shown := by
    unfold endStream
    split
    · exact ⟨rfl, quiet_of_noFrame rfl, rfl⟩
    · exact ⟨rfl, hf, rfl⟩
  cases d with
  | asserted => exact hend
  | deasserted =>
    rw [onRst]
    split
    · exact hend
    · exact hend

/-- The deassert that ends a pulse wakes a quiet panel. -/
theorem waking_onRst {p : Panel} (hu : p.undef = false) (hr : p.inReset = true) (hf : p.Quiet) :
    (p.onRst .deasserted).Waking := by
  obtain ⟨hu', hf', -⟩ := onRst_keeps .deasserted hf
  have hon : p.onRst .deasserted =
      { (p.endStream.startProcessing .resetDone) with inReset := false, power := .known .awake } := if_pos hr
  exact ⟨hu'.trans hu, by rw [hon], by rw [hon], by rw [hon]; rfl, by rw [hon]; rfl, hf'⟩

/-- The pulse of a fault-free INIT wakes a quiet panel and shows nothing. -/
theorem waking_pulse {c : Cfg} {p : Panel} (d1 d2 : Nat) (hu : p.undef = false) (hf : p.Quiet) :
    (p.reactAll c (Step.hwReset d1 d2).okEvents).Waking ∧
      (p.reactAll c (Step.hwReset d1 d2).okEvents).shown = p.shown := by
  obtain ⟨hu1, hf1, hs1⟩ := onRst_keeps .deasserted hf
  obtain ⟨hu2, hf2, hs2⟩ := onRst_keeps .asserted hf1
  obtain ⟨hu3, hf3, hs3⟩ := onRst_keeps .deasserted hf2
  have hev : p.reactAll c (Step.hwReset d1 d2).okEvents =
      ((p.onRst .deasserted).onRst .asserted).onRst .deasserted := by
    simp [Step.okEvents, react, hu, hu1, hu2]
  rw [hev]
  exact ⟨waking_onRst (hu2.trans (hu1.trans hu)) rfl hf2, hs3.trans (hs2.trans hs1)⟩

end Panel

/-- Settles O56. -/
theorem initLeavesThePanelConfigured : Obligations.InitLeavesThePanelConfigured := by
  intro c p bg hc hu hf
  obtain ⟨hwaking, hshown⟩ := Panel.waking_pulse (c := c) c.resetInitialDelayUs c.resetPulseUs hu hf
  obtain ⟨-, htakes, -, hshown'⟩ := hwaking.finished c
  have hev : okEvents (stepList c .init bg) =
      (Step.hwReset c.resetInitialDelayUs c.resetPulseUs).okEvents ++ okEvents (.wait :: configSteps c) := by
    rw [stepList, initSteps_eq]
    rfl
  rw [hev, Panel.reactAll_append, hwaking.reactAll hc]
  exact ⟨Panel.takesBytes_configured htakes, Panel.initialized_configured hc htakes,
    (Panel.shown_configured c _).trans (hshown'.trans hshown)⟩

end Sys2Proof.Machine
end

section
/-! PROOFS. A request whose primitives all succeed and whose samples all read idle (42_transport_busy_fsm.md R185, R187):
O29, by induction on the steps that remain. -/

namespace Sys2Proof.Machine

/-! ### Draws without a fault -/

/-- The first of the draws that a script repeats. -/
theorem Draws.next_of_replicate {α : Type} {free : Nat → α} {d : Draws α} {a : α} {n : Nat} {rest : List α}
    (h : d.script = List.replicate (n + 1) a ++ rest) :
    (d.next free).1 = a ∧ (d.next free).2.script = List.replicate n a ++ rest := by
  rw [List.replicate_succ, List.cons_append] at h
  rw [Draws.next_of_script h]
  exact ⟨rfl, rfl⟩

/-- The scripts hold the good draws that the steps will use, and one idle sample for each wait. -/
structure FaultFree (L : List Step) (e : Env) : Prop where
  dc : ∃ rest, e.dc.script = List.replicate (L.countP Step.isSend) PinDraw.ok ++ rest
  bus : ∃ rest, e.bus.script = List.replicate (L.countP Step.isSend) BusDraw.ok ++ rest
  busy : ∃ rest, e.busy.script =
    List.replicate (L.countP Step.isWait) (BusyDraw.level Config.hw.busyIdleLevel) ++ rest
  rst : ∃ rest, e.rst.script = List.replicate (3 * L.countP Step.isHwReset) PinDraw.ok ++ rest

section
variable {L : List Step} {s : State} {st : Step}

/-- The panel's turn uses none of these draws. -/
theorem FaultFree.turn (h : FaultFree L s.env) : FaultFree L (panelTurn Config.hw s).env :=
  ⟨by simpa using h.dc, by simpa using h.bus, by simpa using h.busy, by simpa using h.rst⟩

/-- A `Cmd` or `Data` step uses one good pin write and one good transfer. -/
theorem FaultFree.send (h : FaultFree (st :: L) s.env) (hst : st.isSend = true) (hw : st.isWait = false)
    (hr : st.isHwReset = false) : sendsOk s ∧ FaultFree L (afterSend s.env) := by
  obtain ⟨⟨dcs, hdc⟩, ⟨buses, hbus⟩, hbusy, hrst⟩ := h
  simp only [List.countP_cons, hst, hw, hr, if_true, Bool.false_eq_true, if_false, Nat.add_zero] at hdc hbus hbusy hrst
  obtain ⟨hdc1, hdc2⟩ := Draws.next_of_replicate (free := Config.freeDc) hdc
  obtain ⟨hbus1, hbus2⟩ := Draws.next_of_replicate (free := Config.freeBus) hbus
  exact ⟨⟨hdc1, hbus1⟩, ⟨dcs, hdc2⟩, ⟨buses, hbus2⟩, hbusy, hrst⟩

/-! ### One step without a fault -/

/-- What a step of the list leaves when it is done. -/
structure StepDone (st : Step) (L : List Step) (s u : State) : Prop where
  seq : u.seq = .exec
  req : u.req = s.req
  steps : u.steps = s.steps
  k : u.k = s.k + 1
  bg : u.bg = s.bg
  life : u.life = s.life
  violation : u.violation = s.violation
  trace : u.trace = s.trace ++ st.okEvents
  draws : FaultFree L u.env

theorem StepDone.turn {u : State} (h : StepDone st L s u) : StepDone st L s (panelTurn Config.hw u) := by
  obtain ⟨h1, h2, h3, h4, h5, h6, h7, h8, h9⟩ := h
  exact ⟨by simpa using h1, by simpa using h2, by simpa using h3, by simpa using h4, by simpa using h5, by simpa using h6,
    by simpa using h7, by simpa using h8, h9.turn⟩

/-- A step whose draws are good is done in one transition. -/
theorem step_faultFree (hs : s.seq = .exec) (hst : s.steps[s.k]? = some st) (hL : FaultFree (st :: L) s.env) :
    ∃ u, step s = .next u ∧ StepDone st L s u := by
  suffices h : StepDone st L s (stepTurn Config.hw s) by
    refine ⟨_, step_eq s, ?_⟩
    rw [show turn Config.hw s = stepTurn Config.hw s by simp only [turn, hs]]
    exact h.turn
  cases st with
  | cmd b =>
    obtain ⟨hok, hrest⟩ := hL.send rfl rfl rfl
    simp only [stepTurn, hst]
    rw [settle_sendCmd_ok _ _ _ hok]
    exact ⟨hs, rfl, rfl, rfl, rfl, rfl, rfl, rfl, hrest⟩
  | data bs =>
    obtain ⟨hok, hrest⟩ := hL.send rfl rfl rfl
    simp only [stepTurn, hst]
    rw [settle_sendData_ok _ _ _ hok]
    exact ⟨hs, rfl, rfl, rfl, rfl, rfl, rfl, rfl, hrest⟩
  | hwReset d1 d2 =>
    obtain ⟨hdc, hbus, hbusy, rest, hrst⟩ := hL
    obtain ⟨t, hdone, touched, -, -, henv⟩ := hwReset_ok Config.hw d1 d2 (s := s)
      (rest := List.replicate (3 * L.countP Step.isHwReset) PinDraw.ok ++ rest)
      (by simpa [List.countP_cons, Step.isHwReset, Nat.mul_add, List.replicate_succ] using hrst)
    simp only [stepTurn, hst]
    rw [hdone, settle_done]
    refine ⟨touched.seq.trans hs, touched.req, touched.steps, by simp [touched.k], touched.bg, touched.life,
      touched.violation, touched.trace, ?_⟩
    rw [State.advance_env, henv]
    exact ⟨hdc, hbus, hbusy, rest, rfl⟩
  | wait =>
    obtain ⟨hdc, hbus, ⟨rest, hbusy⟩, hrst⟩ := hL
    rw [List.countP_cons_of_pos rfl] at hbusy
    obtain ⟨hdraw, hafter⟩ := Draws.next_of_replicate (free := Config.freeBusy) hbusy
    simp only [stepTurn, hst]
    rw [sampleBusy_of_idle hdraw rfl]
    exact ⟨rfl, rfl, rfl, rfl, rfl, rfl, rfl, rfl, hdc, hbus, ⟨rest, hafter⟩, hrst⟩
  | delay us =>
    simp only [stepTurn, hst, delayFor, settle_done]
    exact ⟨hs, rfl, rfl, rfl, rfl, rfl, rfl, rfl, hL.dc, hL.bus, hL.busy, hL.rst⟩

/-! ### The run to the end -/

/-- From a step of the list with good draws, one transition a step and one more end the request. -/
theorem run_faultFree {r : Request} (L : List Step) : ∀ s : State, s.seq = .exec → s.req = some r →
    s.rest = L → FaultFree L s.env →
    ∃ t, Sys2Proof.core.run (L.length + 1) s = .next t ∧ t.seq = .idle ∧ t.req = none ∧ t.life = lifeAfter r s.life ∧
      t.bg = bgAfter r s.bg ∧ t.resp = some (result Config.hw r t.bg) ∧ t.violation = s.violation ∧
      t.trace = s.trace ++ okEvents L ++ [.respond (result Config.hw r t.bg)] := by
  induction L with
  | nil =>
    intro s hs hr hL _
    refine ⟨_, (run_succ 0 (step_eq s)).trans (run_zero _), ?_⟩
    rw [turn_of_rest_nil hs hL, complete_eq Config.hw hr]
    simp [okEvents]
  | cons st L ih =>
    intro s hs hr hL hdraws
    obtain ⟨u, hstep, hu⟩ := step_faultFree hs (getElem?_of_rest hL) hdraws
    have hrest : u.rest = L := by rw [State.rest, hu.steps, hu.k, rest_tail hL]
    obtain ⟨t, hrun, h1, h2, h3, h4, h5, h6, h7⟩ := ih u hu.seq (hu.req.trans hr) hrest hu.draws
    refine ⟨t, (run_succ _ hstep).trans hrun, h1, h2, by rw [h3, hu.life], by rw [h4, hu.bg], h5, by rw [h6, hu.violation],
      ?_⟩
    rw [h7, hu.trace]
    simp [okEvents]

end

/-- Settles O29. -/
theorem faultFreeRequestRunsToCompletion : Obligations.FaultFreeRequestRunsToCompletion := by
  intro i r steps s s' dcs rsts buses busies hi hs hsteps hexec hdc hbus hbusy hrst
  obtain ⟨w, -, haccept⟩ := exec_of_request hi s
  rw [haccept, offerRequest_of_idle _ _ hs, Host.Outcome.next.injEq] at hexec
  subst hexec hsteps
  obtain ⟨t, hrun, h1, h2, h3, h4, h5, h6, h7⟩ := run_faultFree (r := r) (stepList Config.hw r s.bg)
    (acceptRequest Config.hw r s) rfl rfl rfl ⟨⟨dcs, hdc⟩, ⟨buses, hbus⟩, ⟨busies, hbusy⟩, ⟨rsts, hrst⟩⟩
  exact ⟨t, hrun, h1, h2, h3, h4, h5, h6, h7⟩

end Sys2Proof.Machine
end

section
/-! PROOFS. Runs that complete (42_transport_busy_fsm.md R185 to R188), the tools for O60: a completed request is a run
from its acceptance to the first idle state; where the panel ends defined, it is where the events of the step list lead
(`run_steps`), the reset pulse of INIT apart. -/

namespace Sys2Proof.Machine

/-! ### Runs to the first idle state -/

/-- From `s`, the run comes to its first idle state `t`, which answers no fault. -/
structure EndsAt (s t : State) : Prop where
  idle : t.seq = .idle
  noErr : ∀ kind, t.resp ≠ some (.err kind)
  run : ∃ n, Sys2Proof.core.run n s = .next t ∧ ∀ m u, m < n → Sys2Proof.core.run m s = .next u → u.seq ≠ .idle

/-- A completed request is a run from its acceptance. -/
theorem endsAt_of_completes {i : Instr} {r : Request} {s t : State} (h : completes i s t) (hi : i.request? = some r) :
    EndsAt (panelTurn Config.hw (acceptRequest Config.hw r s)) t := by
  obtain ⟨hs, -, ht, hresp, s', n, hexec, hrun⟩ := h
  obtain ⟨w, -, haccept⟩ := exec_of_request hi s
  rw [haccept, offerRequest_of_idle _ _ hs, thenPanel_next, Host.Outcome.next.injEq] at hexec
  subst hexec
  exact ⟨ht, hresp, n, hrun⟩

namespace EndsAt
section
variable {s t : State} (h : EndsAt s t)
include h

theorem eq_of_idle (hs : s.seq = .idle) : t = s := by
  obtain ⟨n, hrun, hfirst⟩ := h.run
  exact idle_end hs hrun hfirst

theorem tail {u : State} (hs : s.seq ≠ .idle) (hstep : step s = .next u) : EndsAt u t := by
  obtain ⟨n, hrun, hfirst⟩ := h.run
  cases n with
  | zero => cases hrun; exact absurd h.idle hs
  | succ n =>
    rw [run_succ n hstep] at hrun
    exact ⟨h.idle, h.noErr, n, hrun, fun m v hm hv => hfirst (m + 1) v (by omega) (by rw [run_succ m hstep]; exact hv)⟩

theorem undef (hu : s.panel.undef = true) : t.panel.undef = true := by
  obtain ⟨n, hrun, -⟩ := h.run
  exact run_undef step_eq n hrun hu

theorem violation (hv : s.violation = true) : t.violation = true := by
  obtain ⟨n, hrun, -⟩ := h.run
  clear h
  induction n generalizing s with
  | zero => cases hrun; exact hv
  | succ n ih =>
    rw [run_succ n (step_eq s)] at hrun
    exact ih ((traceAndMarksOnlyGrow.2 _ _ (step_eq s)).1 hv) hrun

end

/-- A run that ends without a fault does not abort. -/
theorem not_abort {kind : FaultKind} {u t : State} (h : EndsAt (panelTurn Config.hw (abort Config.hw kind u)) t) :
    False := by
  have ht := h.eq_of_idle (by simp)
  exact h.noErr kind (by rw [ht]; simp)

end EndsAt

/-! ### A panel that awaits a payload -/

/-- A panel that is undefined or awaits a payload: no code byte leaves it defined. -/
def Panel.Stuck (p : Panel) : Prop := p.undef = true ∨ ∃ m n got, p.frame = .expect m n got

namespace Panel.Stuck
variable {c : Cfg} {p : Panel}

theorem react_cmd (h : p.Stuck) (b : Byte) : (p.react c (.cmd b)).undef = true := by
  cases hu : p.undef with
  | true => exact Panel.react_undef c _ p hu
  | false =>
    obtain ⟨m, n, got, hf⟩ := h.resolve_left (by simp [hu])
    rw [Panel.react_cmd _ _ _ hu, Panel.onCmd_of_expect hf]
    rfl

theorem finish (h : p.Stuck) : (p.finish c).Stuck := by
  unfold Panel.Stuck
  rw [Panel.finish_undef, Panel.finish_frame]
  exact h

theorem react_sample (h : p.Stuck) (o : BusySample) : (p.react c (.busySample o)).Stuck := by
  cases hu : p.undef with
  | true => exact .inl (Panel.react_undef c _ p hu)
  | false =>
    rw [Panel.react_sample c o hu]
    cases o with
    | idle => rw [Panel.onSample]; split; exacts [h.finish, h]
    | busy => rw [Panel.onSample]; split; exacts [.inl rfl, h]

theorem panelTurn {s : State} (h : s.panel.Stuck) : (panelTurn c s).panel.Stuck := by
  unfold Panel.Stuck
  rw [panelTurn_undef, panelTurn_frame]
  exact h

end Panel.Stuck

/-- A `Cmd` step aborts, or its byte reaches the panel. -/
theorem settle_sendCmd_cases (c : Cfg) (b : Byte) (s : State) :
    (∃ kind u, settle c (sendCmd c b s) = abort c kind u) ∨
      (settle c (sendCmd c b s)).panel = s.panel.react c (.cmd b) := by
  by_cases h : sendsOk s
  · exact .inr (by rw [settle_sendCmd_ok c b s h])
  · refine .inl ?_
    rcases setDc_cases .low s with ⟨hok, hdc⟩ | ⟨-, hdc⟩
    · rcases busWrite_cases c [b] (fun _ => .cmd b) { s with env := s.env.drawDc.2, dc := .low } with
        ⟨hbus, -⟩ | ⟨n, -, hbus⟩
      · exact absurd ⟨hok, hbus⟩ h
      · exact ⟨.bus, _, by rw [sendCmd, hdc, Attempt.done_andThen, hbus, settle_fault]⟩
    · exact ⟨.dcOutput, _, by rw [sendCmd, hdc, Attempt.fault_andThen, settle_fault]⟩

/-- A run that sends a code byte to a stuck panel leaves it undefined. -/
theorem EndsAt.undef_of_cmd {s t : State} {b : Byte} {L : List Step} (h : EndsAt s t) (hs : s.seq = .exec)
    (hL : s.rest = .cmd b :: L) (hp : s.panel.Stuck) : t.panel.undef = true := by
  have hturn : turn Config.hw s = settle Config.hw (sendCmd Config.hw b s) := by
    simp only [turn, hs, stepTurn, getElem?_of_rest hL]
  have htail := h.tail (by simp [hs]) (step_eq s)
  rw [hturn] at htail
  rcases settle_sendCmd_cases Config.hw b s with ⟨kind, u, habort⟩ | hpanel
  · rw [habort] at htail
    exact htail.not_abort.elim
  · exact htail.undef (by rw [panelTurn_undef, hpanel]; exact hp.react_cmd b)

/-- So does a run that waits first, however long. -/
theorem EndsAt.undef_of_wait_cmd {s t : State} {b : Byte} {L : List Step} (h : EndsAt s t)
    (hs : s.seq = .exec ∨ s.seq = .wait) (hL : s.rest = .wait :: .cmd b :: L) (hp : s.panel.Stuck) :
    t.panel.undef = true := by
  obtain ⟨n, hrun, -⟩ := h.run
  induction n generalizing s with
  | zero =>
    cases hrun
    rcases hs with hs | hs <;> cases h.idle.symm.trans hs
  | succ n ih =>
    have hbusy : s.seq ≠ .idle := by rcases hs with hs | hs <;> simp [hs]
    have hstep : step s = .next (panelTurn Config.hw (sampleBusy Config.hw s)) :=
      step_of_sampling (hs.symm.imp_right fun hs => ⟨hs, getElem?_of_rest hL⟩)
    have htail := h.tail hbusy hstep
    rw [run_succ n hstep] at hrun
    cases hdraw : s.env.drawBusy.1 with
    | fault =>
      rw [sampleBusy_of_fault hdraw] at htail
      exact htail.not_abort.elim
    | level l =>
      by_cases hl : l = Config.hw.busyIdleLevel
      · rw [sampleBusy_of_idle hdraw hl] at htail
        refine htail.undef_of_cmd (b := b) (L := L) (by simp) ?_ (Panel.Stuck.panelTurn (by simpa using hp.react_sample _))
        simpa [State.rest] using rest_tail hL
      · rw [sampleBusy_of_busy hdraw hl] at htail hrun
        exact ih htail (.inr (by simp)) (by simpa [State.rest] using hL)
          (Panel.Stuck.panelTurn (by simpa using hp.react_sample _)) hrun

/-! ### A completed request of the host -/

/-- Only INIT and WAKE have a reset pulse, and no request has a delay outside one. -/
theorem stepList_plain {r : Request} (hinit : r ≠ .init) (hwake : r ≠ .wake) (bg : Color) :
    ∀ st ∈ stepList Config.hw r bg, st.isHwReset = false ∧ ∀ us, st ≠ .delay us := by
  cases r <;> simp [stepList, uploadFrameSteps, uploadColorFrameSteps, uploadPartialSteps, uploadRegion, refreshSteps,
    clearSteps, sleepSteps, setWindow, setCursor, frame, writeCommand, PanelCommand.shape, Step.isHwReset] at hinit hwake ⊢

/-- The acceptance is nothing to the panel. -/
theorem accept_panel (r : Request) (s : State) : (acceptRequest Config.hw r s).panel = s.panel :=
  Panel.react_accept Config.hw r s.panel

/-- A request that ran to its completion from an idle state that meets the invariant and is prepared, without a violation
and with defined panel behaviour. -/
structure Ran (r : Request) (s t : State) : Prop where
  inv : s.panel.Inv
  prepared : s.prepared
  ends : EndsAt (panelTurn Config.hw (acceptRequest Config.hw r s)) t
  unviolated : t.violation = false
  defined : t.panel.undef = false

namespace Ran
section
variable {r : Request} {s t : State} (h : Ran r s t)
include h

/-- The request broke no contract, nor did one before it. -/
theorem allowed : s.violation = false ∧ violates Config.hw r s.life = false := by
  have hv : (s.violation || violates Config.hw r s.life) = false := by
    cases hv : (s.violation || violates Config.hw r s.life) with
    | false => rfl
    | true =>
      have := h.ends.violation (by simpa using hv)
      rw [h.unviolated] at this
      cases this
  simpa using hv

theorem panel_defined : s.panel.undef = false := by
  cases hu : s.panel.undef with
  | false => rfl
  | true =>
    have := h.ends.undef (by rw [panelTurn_undef, accept_panel r s, hu])
    rw [h.defined] at this
    cases this

theorem panel_prepared (hl : s.life = .ready) : s.panel.prepared Config.hw := h.prepared hl h.allowed.1 h.panel_defined

/-- A request without a reset pulse leaves the panel near where its events lead. -/
theorem near (hinit : r ≠ .init) (hwake : r ≠ .wake)
    (hq : (s.panel.reactAll Config.hw (okEvents (stepList Config.hw r s.bg))).undef = false) :
    Panel.Near Config.hw t.panel (s.panel.reactAll Config.hw (okEvents (stepList Config.hw r s.bg))) ∧
      t.life = lifeAfter r s.life := by
  obtain ⟨hidle, hresp, n, hrun, hfirst⟩ := h.ends
  have hreset := stepList_plain hinit hwake s.bg
  have hnear : Panel.Near Config.hw (panelTurn Config.hw (acceptRequest Config.hw r s)).panel s.panel :=
    Panel.Near.turn (.inl (accept_panel r s))
  obtain ⟨hpanel, hlife, -⟩ := run_steps step_eq r n _ t (stepList Config.hw r s.bg) s.panel hnear h.inv h.panel_defined
    (.inl (by simp)) (by simp) (by simp) (fun us hmem => (hreset _ hmem).2 us rfl)
    (fun d1 d2 hmem => by cases (hreset _ hmem).1) hq hrun hidle hfirst hresp h.defined
  exact ⟨hpanel, by simpa using hlife⟩

/-- A request without a reset pulse that leaves the panel taking bytes leaves it exactly where its events lead. -/
theorem panel (hinit : r ≠ .init) (hwake : r ≠ .wake)
    (hq : (s.panel.reactAll Config.hw (okEvents (stepList Config.hw r s.bg))).takesBytes = true) :
    t.panel = s.panel.reactAll Config.hw (okEvents (stepList Config.hw r s.bg)) := by
  obtain ⟨hu, -, hb, -⟩ := (Panel.takesBytes_iff _).mp hq
  have hi := Panel.reactAll_inv Config.hw (bounds_of_legal Config.hw_legal).2.1
    (okEvents (stepList Config.hw r s.bg)) _ h.inv
  refine (h.near hinit hwake hu).1.of_none ?_
  by_contra hp
  rw [← ne_eq, ← Option.isSome_iff_ne_none, ← hi.busyPending, hb] at hp
  cases hp

end
end Ran

end Sys2Proof.Machine
end

section
/-! PROOFS. The correspondence laws on the machine's own runs (45_panel_reference_model.md R270): O60, request by request
from what its events do at the panel, and INIT from what its reset pulse leaves. -/

namespace Sys2Proof.Machine

/-! ### The requests without a reset pulse -/

namespace Ran
variable {s t : State}

/-- R270(b), and the panel is prepared again. -/
theorem uploadColorFrame {bw red : List Byte} (h : Ran (.uploadColorFrame bw red) s t) :
    t.panel.holdsFrame Config.hw bw red ∧ t.panel.prepared Config.hw := by
  have hallowed := h.allowed.2
  simp only [violates, Bool.or_eq_false_iff, decide_eq_false_iff_not, not_not] at hallowed
  obtain ⟨⟨hl, hbw⟩, hred⟩ := hallowed
  obtain ⟨ht, hf, hd, huc⟩ := h.panel_prepared hl
  obtain ⟨hlaw, ht', hf', hd', huc'⟩ := Panel.reactAll_uploadColorFrame Config.hw_legal ht hf hd hbw hred
  rw [h.panel nofun nofun ht']
  exact ⟨hlaw, ht', hf', hd'.trans hd, huc'.trans huc⟩

/-- R270(b) with zeros for the chromatic plane, and the panel is prepared again. -/
theorem uploadFrame {bw : List Byte} (h : Ran (.uploadFrame bw) s t) :
    t.panel.holdsFrame Config.hw bw (zeros (bufLen Config.hw)) ∧ t.panel.prepared Config.hw := by
  have hallowed := h.allowed.2
  simp only [violates, Bool.or_eq_false_iff, decide_eq_false_iff_not, not_not] at hallowed
  obtain ⟨hl, hbw⟩ := hallowed
  obtain ⟨ht, hf, hd, huc⟩ := h.panel_prepared hl
  obtain ⟨hlaw, ht', hf', hd', huc'⟩ := Panel.reactAll_uploadColorFrame Config.hw_legal ht hf hd hbw
    (red := zeros (bufLen Config.hw)) List.length_replicate
  rw [h.panel nofun nofun ht']
  exact ⟨hlaw, ht', hf', hd'.trans hd, huc'.trans huc⟩

/-- R270(c), and the panel is prepared again. -/
theorem uploadPartial {bw : List Byte} {x y w hh : U32} (h : Ran (.uploadPartial bw x y w hh) s t) :
    (aligned8 x w = true → t.panel.holdsRegion Config.hw bw x y w hh s.panel) ∧ t.panel.prepared Config.hw := by
  have hallowed := h.allowed.2
  simp only [violates, Bool.or_eq_false_iff, decide_eq_false_iff_not, not_not, Bool.not_eq_false'] at hallowed
  obtain ⟨⟨hl, hlegal⟩, hbw⟩ := hallowed
  obtain ⟨ht, hf, hd, huc⟩ := h.panel_prepared hl
  obtain ⟨hlaw, ht', hf', hd', huc'⟩ := Panel.reactAll_uploadPartial Config.hw_legal ht hf hd bw x y w hh
  rw [h.panel nofun nofun ht']
  exact ⟨fun ha => hlaw hlegal ha hbw, ht', hf', hd'.trans hd, huc'.trans huc⟩

/-- R270(e), the image shown, and the panel is prepared again. -/
theorem refresh (h : Ran .refresh s t) : t.panel.showsRam Config.hw ∧ t.panel.shown = s.panel.image Config.hw ∧
    t.panel.prepared Config.hw := by
  obtain ⟨ht, hf, hd, huc⟩ := h.panel_prepared (by simpa [violates] using h.allowed.2)
  obtain ⟨hu, hr, -, hp⟩ := (Panel.takesBytes_iff _).mp ht
  have hafter := reactAll_refresh Config.hw_legal ht hf
  have hpanel := h.panel nofun nofun (by rw [stepList, hafter]; exact (Panel.takesBytes_iff _).mpr ⟨hu, hr, rfl, hp⟩)
  rw [stepList, hafter] at hpanel
  rw [hpanel]
  exact ⟨Panel.showsRam_of_image (p := s.panel) Config.hw_legal huc rfl rfl rfl, rfl,
    (Panel.takesBytes_iff _).mpr ⟨hu, hr, rfl, hp⟩, Panel.quiet_of_noFrame rfl, hd, huc⟩

/-- R270(b) and (e) of UPLOAD_AND_REFRESH, and the panel is prepared again. -/
theorem uploadAndRefresh {bw : List Byte} (h : Ran (.uploadAndRefresh bw) s t) :
    (t.panel.holdsFrame Config.hw bw (zeros (bufLen Config.hw)) ∧ t.panel.showsRam Config.hw) ∧
      t.panel.prepared Config.hw := by
  have hallowed := h.allowed.2
  simp only [violates, Bool.or_eq_false_iff, decide_eq_false_iff_not, not_not] at hallowed
  obtain ⟨hl, hbw⟩ := hallowed
  obtain ⟨ht, hf, hd, huc⟩ := h.panel_prepared hl
  have hupload := Panel.reactAll_uploadColorFrame Config.hw_legal ht hf hd hbw
    (red := zeros (bufLen Config.hw)) List.length_replicate
  have hsplit : s.panel.reactAll Config.hw (okEvents (stepList Config.hw (.uploadAndRefresh bw) s.bg)) =
      (s.panel.reactAll Config.hw (okEvents (uploadColorFrameSteps Config.hw bw (zeros (bufLen Config.hw))))).reactAll
        Config.hw (okEvents (refreshSteps Config.hw)) := by
    rw [← Panel.reactAll_append, ← okEvents_append]
    rfl
  generalize s.panel.reactAll Config.hw (okEvents (uploadColorFrameSteps Config.hw bw (zeros (bufLen Config.hw)))) = q
    at hupload hsplit
  obtain ⟨hlaw, ht', hf', hd', huc'⟩ := hupload
  obtain ⟨hu, hr, -, hp⟩ := (Panel.takesBytes_iff _).mp ht'
  rw [reactAll_refresh Config.hw_legal ht' hf'] at hsplit
  have hpanel := h.panel nofun nofun (by rw [hsplit]; exact (Panel.takesBytes_iff _).mpr ⟨hu, hr, rfl, hp⟩)
  rw [hpanel, hsplit]
  exact ⟨⟨hlaw, Panel.showsRam_of_image (p := q) Config.hw_legal (huc'.trans huc) rfl rfl rfl⟩,
    (Panel.takesBytes_iff _).mpr ⟨hu, hr, rfl, hp⟩, Panel.quiet_of_noFrame rfl, hd'.trans hd, huc'.trans huc⟩

/-- The fill of CLEAR (R216), and the panel is prepared again. -/
theorem clear (h : Ran .clear s t) :
    t.panel.ramBw = (if Config.hw.patFieldsCover then Panel.fillCells Config.hw (clearPhases s.bg).1 else []) ∧
      t.panel.ramRed = (if Config.hw.patFieldsCover then Panel.fillCells Config.hw (clearPhases s.bg).2 else []) ∧
      t.panel.Inv ∧ t.panel.prepared Config.hw := by
  obtain ⟨ht, hf, hd, huc⟩ := h.panel_prepared (by simpa [violates] using h.allowed.2)
  obtain ⟨hu, hr, -, hp⟩ := (Panel.takesBytes_iff _).mp ht
  have hafter := reactAll_clear Config.hw_legal ht hf s.bg
  have hpanel := h.panel nofun nofun (by rw [stepList, hafter]; exact (Panel.takesBytes_iff _).mpr ⟨hu, hr, rfl, hp⟩)
  have hinv := Panel.reactAll_inv Config.hw (bounds_of_legal Config.hw_legal).2.1
    (okEvents (stepList Config.hw .clear s.bg)) _ h.inv
  rw [← hpanel] at hinv
  rw [stepList, hafter] at hpanel
  refine ⟨by rw [hpanel], by rw [hpanel], hinv, ?_⟩
  rw [hpanel]
  exact ⟨(Panel.takesBytes_iff _).mpr ⟨hu, hr, rfl, hp⟩, Panel.quiet_of_noFrame rfl, hd, huc⟩

/-- R270(d): a REFRESH that runs after CLEAR shows the background. -/
theorem clear_refresh {u : State} (h : Ran .clear s t) (hcover : Config.hw.patFieldsCover = true) (h' : Ran .refresh t u) :
    u.panel.showsColor Config.hw s.bg := by
  obtain ⟨hbw, hred, -, -, -, -, huc⟩ := h.clear
  exact Panel.showsColor_of_fill Config.hw_legal hcover s.bg huc hbw hred h'.refresh.2.1

/-- SLEEP leaves the block asleep (R215). -/
theorem sleep (h : Ran .sleep s t) : t.life = .asleep := by
  obtain ⟨ht, hf, -⟩ := h.panel_prepared (by simpa [violates] using h.allowed.2)
  refine (h.near nofun nofun ?_).2
  rw [stepList, sleepSteps, reactAll_frame (m := .deepSleep) (n := 0) Config.hw_legal ht hf rfl rfl, runCommand_deepSleep]
  exact h.panel_defined

/-- A request with no step leaves a prepared panel as it is. -/
theorem noSteps {r : Request} (h : Ran r s t) (hinit : r ≠ .init) (hwake : r ≠ .wake)
    (hsteps : stepList Config.hw r s.bg = []) (hlife : lifeAfter r s.life = s.life) : t.prepared := by
  intro hl _ _
  have hevents : s.panel.reactAll Config.hw (okEvents (stepList Config.hw r s.bg)) = s.panel := by rw [hsteps]; rfl
  have hready : s.life = .ready := by
    rw [← hlife, ← (h.near hinit hwake (by rw [hevents]; exact h.panel_defined)).2, hl]
  have hprepared := h.panel_prepared hready
  rw [h.panel hinit hwake (by rw [hevents]; exact hprepared.1), hevents]
  exact hprepared

end Ran

/-! ### INIT and WAKE -/

namespace Panel

/-- Finishing keeps the reset line. -/
theorem finish_inReset_eq (c : Cfg) (p : Panel) : (p.finish c).inReset = p.inReset :=
  (congrArg Panel.inReset (finish_inReset c p p.inReset) :)

/-- After finishes alone the panel is near where it was. -/
theorem Follows.near {c : Cfg} {p q : Panel} (h : Follows c [] p q) : Near c q p := by
  refine h.keeps (P := fun x => Near c x p) (fun x hx hnear => ?_) (.inl rfl)
  rcases hnear with rfl | ⟨-, rfl⟩
  · exact .inr ⟨hx, rfl⟩
  · simp at hx

/-- A reset pulse, with the panel finishing when it will: before the last write the chip is in reset, and what writes of
the line and finishes keep still holds. -/
theorem Follows.pulse {c : Cfg} {K : Panel → Prop} (hfin : ∀ x, x.pending.isSome = true → K x → K (x.finish c))
    (hrst : ∀ x d, K x → K (x.react c (.rst d)))
    (hassert : ∀ x, K x → (x.react c (.rst .asserted)).inReset = true) {d1 d2 : Nat} {p q : Panel}
    (h : Follows c (Step.hwReset d1 d2).okEvents p q) (hp : K p) :
    ∃ x, K x ∧ x.inReset = true ∧ Near c q (x.react c (.rst .deasserted)) := by
  obtain ⟨p1, f1, h⟩ := h.uncons
  obtain ⟨p2, f2, h⟩ := h.uncons
  obtain ⟨p3, f3, h⟩ := h.uncons
  obtain ⟨p4, f4, h⟩ := h.uncons
  obtain ⟨p5, f5, h⟩ := h.uncons
  rw [react_delay] at f3 f5
  have hK3 : K p3 := f3.keeps hfin (f2.keeps hfin (hrst _ _ (f1.keeps hfin hp)))
  have hreset : ∀ x, x.pending.isSome = true → K x ∧ x.inReset = true → K (x.finish c) ∧ (x.finish c).inReset = true :=
    fun x hx hK => ⟨hfin x hx hK.1, by rw [finish_inReset_eq]; exact hK.2⟩
  have hK5 := f5.keeps (P := fun x => K x ∧ x.inReset = true) hreset
    (f4.keeps (P := fun x => K x ∧ x.inReset = true) hreset ⟨hrst _ _ hK3, hassert _ hK3⟩)
  exact ⟨p5, hK5.1, hK5.2, h.near⟩

/-- A pulse wakes a quiet panel. -/
theorem Follows.waking {c : Cfg} {d1 d2 : Nat} {p q : Panel} (hW : c.W ≤ 256)
    (h : Follows c (Step.hwReset d1 d2).okEvents p q) (hu : p.undef = false) (hf : p.Quiet) (hi : p.Inv) :
    ∃ P : Panel, P.Waking ∧ P.Inv ∧ Near c q P := by
  obtain ⟨x, ⟨hxu, hxf, hxi⟩, hxr, hnear⟩ := h.pulse (K := fun x => x.undef = false ∧ x.Quiet ∧ x.Inv)
    (fun x _ ⟨hu, hf, hi⟩ => ⟨by rw [finish_undef, hu], by unfold Quiet; rwa [finish_frame], finish_inv c hW hi hu⟩)
    (fun x d ⟨hu, hf, hi⟩ => by
      obtain ⟨hu', hf', -⟩ := onRst_keeps d hf
      rw [react_rst c d hu]
      exact ⟨hu'.trans hu, hf', onRst_inv d hi hu⟩)
    (fun x ⟨hu, _⟩ => by rw [react_rst c _ hu]; rfl) ⟨hu, hf, hi⟩
  rw [react_rst c _ hxu] at hnear
  exact ⟨_, waking_onRst hxu hxr hxf, onRst_inv _ hxi hxu, hnear⟩

/-- A pulse leaves a stuck panel stuck (log 8). -/
theorem Stuck.react_rst {p : Panel} (c : Cfg) (d : RstDrive) (h : p.Stuck) : (p.react c (.rst d)).Stuck := by
  cases hu : p.undef with
  | true => exact .inl (react_undef c _ p hu)
  | false =>
    obtain ⟨m, n, got, hf⟩ := h.resolve_left (by simp [hu])
    have hend : p.endStream = p := by simp [endStream, hf]
    refine .inr ⟨m, n, got, ?_⟩
    rw [Panel.react_rst c d hu]
    cases d with
    | asserted => rw [onRst, hend]; exact hf
    | deasserted => rw [onRst, hend]; split <;> exact hf

theorem Stuck.follows {c : Cfg} {es : List Event} {p q : Panel} (h : Follows c es p q)
    (hes : ∀ e ∈ es, (∃ d, e = .rst d) ∨ ∃ us, e = .delay us) (hp : p.Stuck) : q.Stuck := by
  induction h with
  | nil => exact hp
  | event e _ ih =>
    refine ih (fun e he => hes e (List.mem_cons_of_mem _ he)) ?_
    rcases hes e List.mem_cons_self with ⟨d, rfl⟩ | ⟨us, rfl⟩
    · exact hp.react_rst c d
    · rw [react_delay]; exact hp
  | finish _ _ ih => exact ih hes hp.finish

end Panel

/-- After the reset pulse of INIT the run goes on at the wait, the panel having followed the pulse. -/
theorem Ran.pulse {r : Request} {s t : State} (h : Ran r s t) (hr : stepList Config.hw r s.bg = initSteps Config.hw) :
    ∃ u : State, EndsAt u t ∧ u.seq = .exec ∧ u.req = some r ∧ u.rest = .wait :: configSteps Config.hw ∧
      Panel.Follows Config.hw (Step.hwReset Config.hw.resetInitialDelayUs Config.hw.resetPulseUs).okEvents s.panel
        u.panel := by
  have hturn := step_of_hwReset (s := panelTurn Config.hw (acceptRequest Config.hw r s))
    (d1 := Config.hw.resetInitialDelayUs) (d2 := Config.hw.resetPulseUs) (by simp) (by simp [hr, initSteps_eq])
  have htail := h.ends.tail (by simp) hturn
  cases hreset : hwReset Config.hw Config.hw.resetInitialDelayUs Config.hw.resetPulseUs
      (panelTurn Config.hw (acceptRequest Config.hw r s)) with
  | fault kind x =>
    rw [hreset, settle_fault] at htail
    exact htail.not_abort.elim
  | done x =>
    rw [hreset, settle_done] at htail
    have touched := hwReset_done hreset
    refine ⟨_, htail, by simp [touched.seq], by simp [touched.req], ?_, ?_⟩
    · simp [State.rest, touched.steps, touched.k, hr, initSteps_eq]
    · have hbefore := Panel.Follows.turn Config.hw (acceptRequest Config.hw r s)
      rw [accept_panel] at hbefore
      exact (hbefore.trans touched.panel).trans (Panel.Follows.turn Config.hw x.advance)

/-- R270(a) of INIT and WAKE, the panel prepared. -/
theorem Ran.init {r : Request} {s t : State} (h : Ran r s t) (hr : stepList Config.hw r s.bg = initSteps Config.hw) :
    t.panel.initialized Config.hw ∧ t.panel.prepared Config.hw := by
  obtain ⟨u, hends, hseq, hreq, hrest, hfollows⟩ := h.pulse hr
  by_cases hquiet : s.panel.Quiet
  · obtain ⟨P, hwaking, hinv, hnear⟩ :=
      hfollows.waking (bounds_of_legal Config.hw_legal).2.1 h.panel_defined hquiet h.inv
    obtain ⟨n, hrun, hfirst⟩ := hends.run
    have hafter := hwaking.reactAll Config.hw_legal
    have htakes := Panel.takesBytes_configured (c := Config.hw) (hwaking.finished Config.hw).2.1
    have hdelay : ∀ us, Step.delay us ∉ .wait :: configSteps Config.hw := by
      simp [configSteps, setWindow, setCursor, frame, PanelCommand.shape]
    have hreset : ∀ d1 d2, Step.hwReset d1 d2 ∉ .wait :: configSteps Config.hw := by
      simp [configSteps, setWindow, setCursor, frame, PanelCommand.shape]
    obtain ⟨hend, -⟩ := run_steps step_eq r n u t _ P hnear hinv hwaking.defined (.inl hseq) hrest hreq hdelay hreset
      (by rw [hafter]; exact ((Panel.takesBytes_iff _).mp htakes).1) hrun hends.idle hfirst hends.noErr h.defined
    rw [hend.of_none (by rw [hafter]; rfl), hafter]
    exact ⟨Panel.initialized_configured Config.hw_legal (hwaking.finished Config.hw).2.1, htakes,
      Panel.quiet_of_noFrame rfl, rfl, rfl⟩
  · simp only [Panel.Quiet, not_forall, not_not] at hquiet
    have hstuck : u.panel.Stuck := Panel.Stuck.follows hfollows (by simp [Step.okEvents]) (.inr hquiet)
    have hundef := hends.undef_of_wait_cmd (.inl hseq) hrest hstuck
    rw [h.defined] at hundef
    cases hundef

/-! ### The laws -/

/-- The block is prepared again after every request that ran. -/
theorem Ran.prepared_after {r : Request} {s t : State} (h : Ran r s t) : t.prepared := by
  cases r with
  | init | wake => exact fun _ _ _ => (h.init rfl).2
  | uploadFrame bw => exact fun _ _ _ => h.uploadFrame.2
  | uploadColorFrame bw red => exact fun _ _ _ => h.uploadColorFrame.2
  | uploadPartial bw x y w hh => exact fun _ _ _ => h.uploadPartial.2
  | refresh => exact fun _ _ _ => h.refresh.2.2
  | uploadAndRefresh bw => exact fun _ _ _ => h.uploadAndRefresh.2
  | clear => exact fun _ _ _ => h.clear.2.2.2
  | sleep => exact fun hl => by cases h.sleep.symm.trans hl
  | setBg col | getBg | getWidth | getHeight => exact h.noSteps nofun nofun rfl rfl

/-- Settles O60: each law from the panel's part of its request. -/
theorem completedRequestsObeyTheCorrespondenceLaws : Obligations.CompletedRequestsObeyTheCorrespondenceLaws := by
  intro i s t hinv hprepared hcomp hv hu
  have ran : ∀ r, i.request? = some r → Ran r s t := fun r hr =>
    ⟨hinv.panelInv, hprepared, endsAt_of_completes hcomp hr, hv, hu⟩
  refine ⟨?_, ?_, ?_, ?_, ?_, ?_, ?_, ?_⟩
  · obtain ⟨r, hr⟩ := Option.ne_none_iff_exists'.mp hcomp.2.1
    exact (ran r hr).prepared_after
  · rintro (rfl | rfl)
    · exact ((ran .init rfl).init rfl).1
    · exact ((ran .wake rfl).init rfl).1
  · rintro bw red rfl
    exact (ran _ rfl).uploadColorFrame.1
  · rintro bw rfl
    exact (ran _ rfl).uploadFrame.1
  · rintro bw rfl
    exact (ran _ rfl).uploadAndRefresh.1
  · rintro bw x y w hh rfl ha
    exact (ran _ rfl).uploadPartial.1 ha
  · rintro rfl hcover u hcomp' hv' hu'
    have hclear := ran .clear rfl
    exact hclear.clear_refresh hcover
      ⟨hclear.clear.2.2.1, hclear.prepared_after, endsAt_of_completes hcomp' rfl, hv', hu'⟩
  · rintro rfl
    exact (ran .refresh rfl).refresh.1

end Sys2Proof.Machine
end
